-- ==== Sys2Proof/Word.lean ====
section
/-! DEFINITION. The two word types of the core (spec 00_scope R8, R10): bytes and 16-bit addresses. -/

namespace Sys2Proof

/-- An 8-bit value: a register A, X, Y, S, P or one byte of memory (R8). -/
abbrev Byte := BitVec 8

/-- A 16-bit value: PC or an address `h * 256 + l` (R8, R10). -/
abbrev Word := BitVec 16

end Sys2Proof
end

