-- ==== Sys2Proof/Machine/Bits.lean ====
section
/-! DEFINITION. Bit fields, sign extension and byte order (spec 00_scope R10, 20_memory R54). -/

namespace Sys2Proof.Machine

/-- `v[7:0]` of a 16-bit value (R10). -/
def lowByte (w : Word) : Byte := w.setWidth 8

/-- `v[15:8]` of a 16-bit value (R10). -/
def highByte (w : Word) : Byte := (w >>> 8).setWidth 8

/-- `{h, l} = h * 256 + l` (R10, R54). -/
def wordOf (h l : Byte) : Word := (h.setWidth 16 <<< 8) ||| l.setWidth 16

/-- `zext_16(b)` (R10). -/
def zeroExtend16 (b : Byte) : Word := b.setWidth 16

/-- `sext_16(d)` (R10). -/
def signExtend16 (d : Byte) : Word := d.signExtend 16

/-- `p` with bit `k` set to `b` and every other bit kept. -/
def setBit (p : Byte) (k : Nat) (b : Bool) : Byte :=
  if b then p ||| (1#8 <<< k) else p &&& ~~~(1#8 <<< k)

end Sys2Proof.Machine
end

