-- ==== Sys2Proof/Config.lean ====
section
/-! DEFINITION. What the platform or the implementation fixes (spec 00_scope R9, 92_eei_decisions), and the
free values: constants without a body, which no proof can look into. -/

namespace Sys2Proof

/-- `UNDOC_PROFILE` (R322, D3): what the 91 undocumented opcodes that are neither halt nor invalid mean. -/
inductive UndocProfile where
  | refuse     -- all 91 refused
  | nopsOnly   -- the 27 NOP aliases execute, the 64 combined opcodes are refused
  | nmos       -- all 91 execute
deriving DecidableEq, Repr

/-- `DECIMAL_NZV` (R214, D5): N, Z and V after ADC and SBC with D = 1. -/
inductive DecimalNzv where
  | binary       -- as the binary operation on the same inputs leaves them
  | unspecified  -- each a draw
deriving DecidableEq, Repr

/-- `BUS_TRACE` (R58, D11): whether an instruction may make bus accesses beyond those its rule lists. -/
inductive BusTrace where
  | functional   -- exactly the accesses the rules list
  | unspecified  -- extra reads of any address; an rmw may first write the unmodified byte
deriving DecidableEq, Repr

/-- The parameters that the spec says a model takes as arguments (R9), less the bus, which State holds
as memory and abort regions. No instruction and no host call changes them. -/
structure Params where
  undocProfile : UndocProfile
  decimalNzv : DecimalNzv
  busTrace : BusTrace
deriving DecidableEq, Repr

/-- The parameters at reset: the spec's defaults (R7, R9). Create takes others (log 1), and statements hold for
every value of the parameters. -/
def Config.resetParams : Params :=
  { undocProfile := .nopsOnly, decimalNzv := .binary, busTrace := .functional }

/-- What an address that nothing has written reads as. DESIGN CHOICE, unsafe (log 4): the spec leaves the
initial contents to the platform (R52, D25); its scenarios assume memory zeroed. -/
def Config.unlistedByte : Byte := 0x00

/-- `INVALID_CYCLES` (R113, D9): the cycle count returned with InvalidOpcode and BusFault, a draw at each Step (log 9). -/
opaque Config.invalidCycles : Nat → Nat

/-- `ANE_MAGIC` (R342, D29): a draw at each execution (log 9). -/
opaque Config.aneMagic : Nat → Byte

/-- `LXA_MAGIC` (R343, D29): a draw at each execution (log 9). -/
opaque Config.lxaMagic : Nat → Byte

/-- N after a decimal ADC or SBC under `DECIMAL_NZV = unspecified` (R214): a draw (log 9). -/
opaque Config.decimalN : Nat → Bool

/-- V after a decimal ADC or SBC under `DECIMAL_NZV = unspecified` (R214): a draw (log 9). -/
opaque Config.decimalV : Nat → Bool

/-- Z after a decimal ADC or SBC under `DECIMAL_NZV = unspecified` (R214): a draw (log 9). -/
opaque Config.decimalZ : Nat → Bool

/-- The extra reads before one bus access under `BUS_TRACE = unspecified` (R58): a draw (log 3). -/
opaque Config.extraReads : Nat → List Word

/-- Whether a read-modify-write instruction first writes the unmodified byte under
`BUS_TRACE = unspecified` (R58, D12): a draw (log 3). -/
opaque Config.rmwWritesTwice : Nat → Bool

end Sys2Proof
end

