-- ==== Sys2Proof/Machine/State.lean ====
section
/-! DEFINITION. The state of the machine (spec 10_state R20 to R39, 20_memory R50 to R52), the reasons a Step can
stop, and the state right after reset (R36, R500). -/

namespace Sys2Proof.Machine

/-- Memory: the listed (address, byte) pairs, addresses rising, none with the byte an unlisted address reads as. -/
abbrev Memory := List Host.Cell

/-- One bus access (R51), with the byte read or written. -/
inductive BusAccess where
  | read (a : Word) (v : Byte)
  | write (a : Word) (v : Byte)
deriving DecidableEq, Repr

/-- A region of accesses that the platform's bus aborts (R52, D10), with the bus's message (R403): reads of its addresses,
writes to them of a byte from `firstByte` to `lastByte`, or both. A list of regions can say any predicate of the access
(log 5). A region with both switches off aborts nothing. -/
structure BusAbort where
  onRead : Bool
  onWrite : Bool
  first : Word
  last : Word
  firstByte : Byte
  lastByte : Byte
  msg : String
deriving DecidableEq, Repr

/-- The outcomes of a Step after which the core has a defined state (R400 to R402). BusFault (R403) is `Fault.busFault`. -/
inductive StepOutcome where
  | ok
  | halted
  | invalidOpcode (addr : Word) (op : Byte)
deriving DecidableEq, Repr

/-- What a Step returns to the host: `(cycles, outcome)` (R110, R400). -/
structure StepReport where
  cycles : Nat
  outcome : StepOutcome
deriving DecidableEq, Repr

/-- The state. A, X, Y, S, PC, P, halted and cycles are the core's (R20); mem and aborts are the platform's bus (R52);
params are the spec's parameters (R9); report, trace and draws are the model's own (log 7, 8, 9). -/
structure State where
  /-- The accumulator (R21). -/
  A : Byte
  /-- An index register (R22). -/
  X : Byte
  /-- An index register (R22). -/
  Y : Byte
  /-- The stack pointer, into page $01 (R23). -/
  S : Byte
  /-- The program counter (R24). -/
  PC : Word
  /-- The status register N V U B D I Z C, bit 7 to bit 0 (R25). -/
  P : Byte
  /-- The halt latch (R33). -/
  halted : Bool
  /-- The cycle counter of the current Step (R34). -/
  cycles : Nat
  /-- The memory behind the bus (R50, R52). -/
  mem : Memory
  /-- Which accesses the bus aborts (R52). -/
  aborts : List BusAbort
  /-- The spec's parameters (R9). -/
  params : Params
  /-- What the last Step returned (R110). -/
  report : StepReport
  /-- The bus accesses since the last running Step or Reset began, oldest first (R58, R61). -/
  trace : List BusAccess
  /-- How many free values have been drawn. -/
  draws : Nat
deriving DecidableEq, Repr

/-- Why the machine stops with a fault. -/
inductive Fault where
  /-- `BusFault(msg)` (R403): raised by the first bus access that the platform's bus aborts, in an opcode fetch, an
  instruction, an interrupt entry, Reset or Create. `cycles` is the count a Step returns with it, the draw INVALID_CYCLES
  (R110, R113); the other calls report none. Safe: the spec makes the state after it a draw (D10), and a fault makes no
  claim about it. -/
  | busFault (msg : String) (cycles : Nat)
deriving DecidableEq, Repr

/-- Why a Step is refused: the spec gives the execution no meaning (R322, D32). -/
inductive Refusal where
  /-- An instruction without a meaning in this model. Raised by no arm: every instruction has its meaning. Safe. -/
  | notModelled (mnemonic : String)
  /-- A NOP alias under `UNDOC_PROFILE = refuse` (R322). Raised by the fetch and by the meaning of the aliases. Safe. -/
  | undocNopNotAdmitted
  /-- A combined opcode under `UNDOC_PROFILE` other than `nmos` (R322, R330). Raised by the fetch and by the meanings of 49. Safe. -/
  | undocNmosNotAdmitted
  /-- ARR with D = 1, which no source settles (R341, D30). Raised by ARR. Safe. -/
  | arrDecimal
  /-- TAS whose indexed address crosses a page (R347, D31). Raised by TAS. Safe. -/
  | tasPageCross
  /-- SHA whose indexed address crosses a page (R348, D31). Raised by SHA. Safe. -/
  | shaPageCross
deriving DecidableEq, Repr

/-- What an operation answers: a value and the next state, or the reason it stops. -/
abbrev Res (α : Type) := Host.Outcome (α × State) Fault Refusal

/-- The machine right after Reset (R36, R500) with nothing listed in memory, so that the reset vector at $FFFC/$FFFD
holds what an unlisted address reads as (log 4, log 18). -/
def State.reset : State where
  A := 0x00
  X := 0x00
  Y := 0x00
  S := 0xFF
  PC := 0x0000
  P := 0x00
  halted := false
  cycles := 0
  mem := []
  aborts := []
  params := Config.resetParams
  report := { cycles := 0, outcome := .ok }
  trace := [.read 0xFFFC 0x00, .read 0xFFFD 0x00]
  draws := 0

end Sys2Proof.Machine
end

