-- ==== Sys2Proof/Machine/Flags.lean ====
section
/-! DEFINITION. The flags (spec 10_state R25 to R28) and the ALU (spec 41_arithmetic R210 to R214, R217). -/

namespace Sys2Proof.Machine

/-! Flags of P, by position (R25). -/

def State.flagN (s : State) : Bool := s.P.getLsbD 7
def State.flagV (s : State) : Bool := s.P.getLsbD 6
def State.flagD (s : State) : Bool := s.P.getLsbD 3
def State.flagI (s : State) : Bool := s.P.getLsbD 2
def State.flagZ (s : State) : Bool := s.P.getLsbD 1
def State.flagC (s : State) : Bool := s.P.getLsbD 0

def State.setN (s : State) (b : Bool) : State := { s with P := setBit s.P 7 b }
def State.setV (s : State) (b : Bool) : State := { s with P := setBit s.P 6 b }
def State.setD (s : State) (b : Bool) : State := { s with P := setBit s.P 3 b }
def State.setI (s : State) (b : Bool) : State := { s with P := setBit s.P 2 b }
def State.setZ (s : State) (b : Bool) : State := { s with P := setBit s.P 1 b }
def State.setC (s : State) (b : Bool) : State := { s with P := setBit s.P 0 b }

/-- `setNZ(v)` (R28). -/
def State.setNZ (s : State) (v : Byte) : State := (s.setN (v.getLsbD 7)).setZ (v == 0)

/-- What an ALU primitive returns. -/
structure AluResult where
  r : Byte
  N : Bool
  V : Bool
  Z : Bool
  C : Bool
deriving DecidableEq, Repr

/-- `adc_bin(a, m, cin)` (R210). -/
def adcBin (a m : Byte) (cin : Bool) : AluResult :=
  let w := a.toNat + m.toNat + cin.toNat
  let r := BitVec.ofNat 8 w
  { r := r
    N := r.getLsbD 7
    V := (a ^^^ r) &&& (m ^^^ r) &&& 0x80 != 0
    Z := r == 0
    C := decide (w > 0xFF) }

/-- `sbc_bin(a, m, cin) = adc_bin(a, (~m) & 0xFF, cin)` (R211). -/
def sbcBin (a m : Byte) (cin : Bool) : AluResult := adcBin a (~~~m) cin

/-- `bcd_add(a, m, cin)` (R212): the result and the carry. The formula applies to every byte (D6). -/
def bcdAdd (a m : Byte) (cin : Bool) : Byte × Bool :=
  let lo0 := a.toNat % 16 + m.toNat % 16 + cin.toNat
  let lo := if lo0 > 9 then lo0 + 6 else lo0
  let hi0 := a.toNat / 16 + m.toNat / 16 + (if lo > 0x0F then 1 else 0)
  let hi := if hi0 > 9 then hi0 + 6 else hi0
  ((BitVec.ofNat 8 lo &&& 0x0F) ||| ((BitVec.ofNat 8 hi <<< 4) &&& 0xF0), decide (hi > 0x0F))

/-- `bcd_sub(a, m, cin)` (R213): the result and the carry (1 = no borrow). Integers are signed and bit operations read
their two's-complement bits; the borrow from lo is read before the adjust (D6). -/
def bcdSub (a m : Byte) (cin : Bool) : Byte × Bool :=
  let lo0 : Int := (a.toNat % 16 : Nat) - (m.toNat % 16 : Nat) - (if cin then 0 else 1)
  let bl := (BitVec.ofInt 8 lo0).getLsbD 4
  let lo := if bl then lo0 - 6 else lo0
  let hi0 : Int := (a.toNat / 16 : Nat) - (m.toNat / 16 : Nat) - (if bl then 1 else 0)
  let hi := if (BitVec.ofInt 8 hi0).getLsbD 4 then hi0 - 6 else hi0
  ((BitVec.ofInt 8 lo &&& 0x0F) ||| (BitVec.ofInt 8 hi <<< 4), decide ((BitVec.ofInt 8 hi).toNat < 0x0F))

/-- N, V and Z take the values of a binary result. -/
def State.setNVZ (s : State) (n v z : Bool) : State := ((s.setN n).setV v).setZ z

/-- N, V and Z after a decimal ADC or SBC (R214): the binary ones, or draws under `DECIMAL_NZV = unspecified`. -/
def State.setDecimalNVZ (s : State) (bin : AluResult) : State :=
  match s.params.decimalNzv with
  | .binary => s.setNVZ bin.N bin.V bin.Z
  | .unspecified =>
    { s.setNVZ (Config.decimalN s.draws) (Config.decimalV s.draws) (Config.decimalZ s.draws) with draws := s.draws + 1 }

/-- The common end of ADC and SBC: the binary result, or with D = 1 the decimal result and carry (R215, R216). -/
def State.addResult (s : State) (bin : AluResult) (dec : Byte × Bool) : State :=
  if s.flagD then
    ({ s with A := dec.1 }.setC dec.2).setDecimalNVZ bin
  else
    ({ s with A := bin.r }.setNVZ bin.N bin.V bin.Z).setC bin.C

/-- The body of ADC on an operand (R215). -/
def State.adc (s : State) (m : Byte) : State :=
  s.addResult (adcBin s.A m s.flagC) (bcdAdd s.A m s.flagC)

/-- The body of SBC on an operand (R216). -/
def State.sbc (s : State) (m : Byte) : State :=
  s.addResult (sbcBin s.A m s.flagC) (bcdSub s.A m s.flagC)

/-- `compare(r, m)` (R217). -/
def State.compare (s : State) (r m : Byte) : State :=
  (s.setNZ (r - m)).setC (decide (m.toNat ≤ r.toNat))

/-! The one-bit shifts and rotates of a byte (R230 to R233); the rotates take the old carry. -/

def aslByte (v : Byte) : Byte := v <<< 1
def lsrByte (v : Byte) : Byte := v >>> 1
def rolByte (v : Byte) (c : Bool) : Byte := setBit (v <<< 1) 0 c
def rorByte (v : Byte) (c : Bool) : Byte := setBit (v >>> 1) 7 c

end Sys2Proof.Machine
end

