-- ==== Sys2Proof/Machine/Memory.lean ====
section
/-! DEFINITION. Memory as a canonical list (spec 20_memory R50, R52): reading one byte, writing one byte, the form. -/

namespace Sys2Proof.Machine

/-- The byte at an address: the listed one, else what an unlisted address reads as (log 4). -/
def Memory.read : Memory → Nat → Byte
  | [], _ => Config.unlistedByte
  | (k, v) :: rest, a => if k = a then v else Memory.read rest a

/-- The list with a pair put in its place. -/
def Memory.insert : Memory → Nat → Byte → Memory
  | [], a, v => [(a, v)]
  | (k, w) :: rest, a, v => if a < k then (a, v) :: (k, w) :: rest else (k, w) :: Memory.insert rest a v

/-- Write one byte, keeping the canonical form: writing what an unlisted address reads as removes the entry. -/
def Memory.write (m : Memory) (a : Nat) (v : Byte) : Memory :=
  let others := m.filter fun c => c.1 != a
  if v = Config.unlistedByte then others else Memory.insert others a v

/-- Every listed address is above `a`. -/
def Memory.above (a : Nat) (m : Memory) : Bool := m.all fun c => a < c.1

/-- The canonical form: addresses rise strictly and lie in the 64 KiB space (R50), and no entry holds what an
unlisted address reads as. Equal memories are then equal lists. -/
def Memory.wf : Memory → Bool
  | [] => true
  | (k, v) :: rest => decide (k < 65536) && decide (v ≠ Config.unlistedByte) && Memory.above k rest && Memory.wf rest

/-- The byte of a state's memory at an address. -/
def State.peek (s : State) (a : Word) : Byte := Memory.read s.mem a.toNat

end Sys2Proof.Machine
end

