-- ==== Sys2Proof/Machine/Ops.lean ====
section
/-! DEFINITION. The operations shared by the instructions: the bus adapter (spec 20_memory R51 to R58), the primitives
of 00_scope R12, the stack (10_state R29 to R31), the end of a Step (30_encoding R120) and taking and leaving an
interrupt (46_control R283, R284, 60_exceptions R411 to R413). -/

namespace Sys2Proof.Machine

/-- Go on with an operation's value and state, or stop for its reason. -/
def andThen {α τ : Type} (x : Res α) (k : α → State → Host.Outcome τ Fault Refusal) : Host.Outcome τ Fault Refusal :=
  match x with
  | .next r => k r.1 r.2
  | .fault f => .fault f
  | .refused r => .refused r

/-! The bus. -/

/-- The region aborts a read of `a`. -/
def BusAbort.abortsRead (b : BusAbort) (a : Word) : Bool :=
  b.onRead && decide (b.first.toNat ≤ a.toNat) && decide (a.toNat ≤ b.last.toNat)

/-- The region aborts a write of `v` to `a`. -/
def BusAbort.abortsWrite (b : BusAbort) (a : Word) (v : Byte) : Bool :=
  b.onWrite && decide (b.first.toNat ≤ a.toNat) && decide (a.toNat ≤ b.last.toNat) &&
    decide (b.firstByte.toNat ≤ v.toNat) && decide (v.toNat ≤ b.lastByte.toNat)

/-- The fault of an access that `b` aborts: the bus's message, and INVALID_CYCLES (R113, R403). -/
def BusAbort.fault (b : BusAbort) (s : State) : Fault := .busFault b.msg (Config.invalidCycles s.draws)

/-- `read(a[7:0], a[15:8])` on the bus (R51): the byte, one cycle (R53), or BusFault (R403). -/
def busRead (a : Word) (s : State) : Res Byte :=
  match s.aborts.find? fun b => b.abortsRead a with
  | some b => .fault (b.fault s)
  | none => .next (s.peek a, { s with cycles := s.cycles + 1, trace := s.trace ++ [.read a (s.peek a)] })

/-- `write(a[7:0], a[15:8], v)` on the bus (R51): one cycle (R53), or BusFault (R403). -/
def busWrite (a : Word) (v : Byte) (s : State) : Res Unit :=
  match s.aborts.find? fun b => b.abortsWrite a v with
  | some b => .fault (b.fault s)
  | none =>
    .next ((), { s with mem := Memory.write s.mem a.toNat v, cycles := s.cycles + 1, trace := s.trace ++ [.write a v] })

/-- Reads whose bytes are not used. -/
def dummyReads : List Word → State → Res Unit
  | [], s => .next ((), s)
  | a :: rest, s => andThen (busRead a s) fun _ s1 => dummyReads rest s1

/-- The accesses that `BUS_TRACE = unspecified` lets a model add before an access (R58): a free list of reads (log 3). -/
def extraAccesses (s : State) : Res Unit :=
  match s.params.busTrace with
  | .functional => .next ((), s)
  | .unspecified => dummyReads (Config.extraReads s.draws) { s with draws := s.draws + 1 }

/-- `MemRead(addr, 1)` (R12). -/
def memRead (a : Word) (s : State) : Res Byte :=
  andThen (extraAccesses s) fun _ s1 => busRead a s1

/-- `MemWrite(addr, 1, v)` (R12). -/
def memWrite (a : Word) (v : Byte) (s : State) : Res Unit :=
  andThen (extraAccesses s) fun _ s1 => busWrite a v s1

/-- `fetch()` (R12): read at PC, then increment PC, which wraps at $FFFF (D2). -/
def fetch (s : State) : Res Byte :=
  andThen (memRead s.PC s) fun b s1 => .next (b, { s1 with PC := s1.PC + 1 })

/-- `zread(p)` (R12): a zero-page read. -/
def zread (p : Byte) (s : State) : Res Byte := memRead (zeroExtend16 p) s

/-- The word at a vector, low byte first (R54, R59). -/
def readVector (v : Word) (s : State) : Res Word :=
  andThen (memRead v s) fun lo s1 => andThen (memRead (v + 1) s1) fun hi s2 => .next (wordOf hi lo, s2)

/-! The stack. -/

/-- `$0100 | S` (R23, R60, R84). -/
def stackAddress (sp : Byte) : Word := wordOf 0x01 sp

/-- `push(v)` (R12). -/
def push (v : Byte) (s : State) : Res Unit :=
  andThen (memWrite (stackAddress s.S) v s) fun _ s1 => .next ((), { s1 with S := s1.S - 1 })

/-- `pull()` (R12). -/
def pull (s : State) : Res Byte :=
  memRead (stackAddress (s.S + 1)) { s with S := s.S + 1 }

/-- Push a 16-bit value, high byte first (R54). -/
def pushWord (w : Word) (s : State) : Res Unit :=
  andThen (push (highByte w) s) fun _ s1 => push (lowByte w) s1

/-- Pull a 16-bit value, low byte first (R54). -/
def pullWord (s : State) : Res Word :=
  andThen (pull s) fun lo s1 => andThen (pull s1) fun hi s2 => .next (wordOf hi lo, s2)

/-- The byte `pushStatus()` pushes: `P | $30`, U and B set (R29). -/
def statusPushed (p : Byte) : Byte := p ||| 0x30

/-- The byte `pushStatusInterrupt()` pushes: `(P | $20) & $EF`, U set and B clear (R31). -/
def statusPushedInterrupt (p : Byte) : Byte := (p ||| 0x20) &&& 0xEF

/-- The P that `pullStatus()` makes of a pulled byte: `& $CF`, U and B cleared (R30). -/
def statusPulled (v : Byte) : Byte := v &&& 0xCF

/-- `pushStatus()` (R29). -/
def pushStatus (s : State) : Res Unit := push (statusPushed s.P) s

/-- `pushStatusInterrupt()` (R31). -/
def pushStatusInterrupt (s : State) : Res Unit := push (statusPushedInterrupt s.P) s

/-- `pullStatus()` (R30). -/
def pullStatus (s : State) : Res Unit :=
  andThen (pull s) fun v s1 => .next ((), { s1 with P := statusPulled v })

/-! Taking an interrupt and returning from one. -/

/-- The entry common to NMI, IRQ and BRK (R284, R411, R412, R413): PCH, PCL and the given status byte are pushed, I is
set, and PC is loaded from the vector. D and the other flags stay (D15). -/
def enterInterrupt (status : Byte) (vector : Word) (s : State) : Res Unit :=
  andThen (pushWord s.PC s) fun _ s1 =>
  andThen (push status s1) fun _ s2 =>
  andThen (readVector vector (s2.setI true)) fun target s3 =>
  .next ((), { s3 with PC := target })

/-- The return from an interrupt (R283, R420): P is pulled, then PCL, then PCH, with no +1. -/
def returnFromInterrupt (s : State) : Res Unit :=
  andThen (pullStatus s) fun _ s1 =>
  andThen (pullWord s1) fun target s2 =>
  .next ((), { s2 with PC := target })

/-! The end of a Step. -/

/-- The Step ends with Ok and `n` cycles: the residual cycles are charged (R110, R120). -/
def State.finish (s : State) (n : Nat) : State := { s with cycles := n, report := { cycles := n, outcome := .ok } }

/-- The Step of an operation ends with Ok and `n` cycles. -/
def finishAfter (x : Res Unit) (n : Nat) : Host.Outcome State Fault Refusal :=
  andThen x fun _ s => .next (s.finish n)

/-- An opcode of class `undoc_nop` runs unless `UNDOC_PROFILE = refuse` (R322). -/
def whenNopAdmitted {τ : Type} (s : State) (x : Host.Outcome τ Fault Refusal) : Host.Outcome τ Fault Refusal :=
  match s.params.undocProfile with
  | .refuse => .refused .undocNopNotAdmitted
  | .nopsOnly => x
  | .nmos => x

/-- An opcode of class `undoc_nmos` runs under `UNDOC_PROFILE = nmos` only (R322, R330). -/
def whenNmosAdmitted {τ : Type} (s : State) (x : Host.Outcome τ Fault Refusal) : Host.Outcome τ Fault Refusal :=
  match s.params.undocProfile with
  | .refuse => .refused .undocNmosNotAdmitted
  | .nopsOnly => .refused .undocNmosNotAdmitted
  | .nmos => x

end Sys2Proof.Machine
end

