-- ==== Sys2Proof/Syntax.lean ====
section
/-! DEFINITION. The instructions (spec 30_encoding R100 to R104, 40 to 49): one constructor for each instruction
rule of the spec. Rows of the opcode table with one mnemonic that differ in the operand form alone are one
constructor with the operand form as its argument (log 20); rows that share both (HLT, the invalid opcodes, ANC,
the NOP aliases) carry their place among those rows, so that every one of the 256 rows is an instruction of its own. -/

namespace Sys2Proof

/-- The formats of R101, under the names of the opcode table. -/
inductive Format where
  | imp | acc | imm | zp | zpx | zpy | abs | absx | absy | indx | indy | rel | ind
deriving DecidableEq, Repr

/-- A memory operand (R74 to R81) with its operand byte or bytes, the 16-bit address already assembled (R102). -/
inductive AddrMode where
  | zp (a : Byte)     -- zero page, R74
  | zpx (a : Byte)    -- zero page,X, R75
  | zpy (a : Byte)    -- zero page,Y, R76
  | abs (a : Word)    -- absolute, R77
  | absx (a : Word)   -- absolute,X, R78
  | absy (a : Word)   -- absolute,Y, R79
  | indx (a : Byte)   -- (zero page,X), R80
  | indy (a : Byte)   -- (zero page),Y, R81
deriving DecidableEq, Repr

/-- The operand of a read-class instruction (R85): the immediate byte or a byte of memory. -/
inductive ReadOperand where
  | imm (v : Byte)
  | mem (m : AddrMode)
deriving DecidableEq, Repr

/-- The operand of a shift or rotate (R72, R85): A or a byte of memory. -/
inductive ShiftOperand where
  | acc
  | mem (m : AddrMode)
deriving DecidableEq, Repr

/-- The operand of JMP (R280): an absolute target or the address of a pointer to it. -/
inductive JumpTarget where
  | abs (a : Word)
  | ind (p : Word)
deriving DecidableEq, Repr

/-- The 27 NOP aliases (R311): the operand form, and which of the opcodes of that form (in the order R311 lists them). -/
inductive NopForm where
  | imp (k : Fin 6)
  | imm (k : Fin 5) (v : Byte)
  | zp (k : Fin 3) (a : Byte)
  | zpx (k : Fin 6) (a : Byte)
  | abs (a : Word)
  | absx (k : Fin 6) (a : Word)
deriving DecidableEq, Repr

/-- The instructions. The rule of each stands beside it. -/
inductive Instr where
  -- 40 logical
  | ora (o : ReadOperand)   -- R200
  | and (o : ReadOperand)   -- R201
  | eor (o : ReadOperand)   -- R202
  | bit (m : AddrMode)      -- R203
  -- 41 arithmetic and compare
  | adc (o : ReadOperand)   -- R215
  | sbc (o : ReadOperand)   -- R216
  | cmp (o : ReadOperand)   -- R218
  | cpx (o : ReadOperand)   -- R219
  | cpy (o : ReadOperand)   -- R220
  -- 42 shifts and rotates
  | asl (o : ShiftOperand)  -- R230
  | lsr (o : ShiftOperand)  -- R231
  | rol (o : ShiftOperand)  -- R232
  | ror (o : ShiftOperand)  -- R233
  -- 43 loads and stores
  | lda (o : ReadOperand)   -- R240
  | ldx (o : ReadOperand)   -- R241
  | ldy (o : ReadOperand)   -- R242
  | sta (m : AddrMode)      -- R243
  | stx (m : AddrMode)      -- R244
  | sty (m : AddrMode)      -- R245
  -- 44 transfers, increments, decrements
  | tax                     -- R250
  | tay                     -- R251
  | txa                     -- R252
  | tya                     -- R253
  | tsx                     -- R254
  | txs                     -- R255
  | inc (m : AddrMode)      -- R256
  | dec (m : AddrMode)      -- R257
  | inx                     -- R258
  | iny                     -- R259
  | dex                     -- R260
  | dey                     -- R261
  -- 45 stack
  | pha                     -- R270
  | php                     -- R271
  | pla                     -- R272
  | plp                     -- R273
  -- 46 control transfer
  | jmp (t : JumpTarget)    -- R280
  | jsr (a : Word)          -- R281
  | rts                     -- R282
  | rti                     -- R283
  | brk                     -- R284
  | bpl (d : Byte)          -- R286
  | bmi (d : Byte)          -- R287
  | bvc (d : Byte)          -- R288
  | bvs (d : Byte)          -- R289
  | bcc (d : Byte)          -- R290
  | bcs (d : Byte)          -- R291
  | bne (d : Byte)          -- R292
  | beq (d : Byte)          -- R293
  -- 47 flags
  | clc                     -- R300
  | sec                     -- R301
  | cli                     -- R302
  | sei                     -- R303
  | clv                     -- R304
  | cld                     -- R305
  | sed                     -- R306
  -- 48 no-operations, halt, invalid
  | nop                     -- R310
  | nopAlias (f : NopForm)  -- R311
  | hlt (k : Fin 12)        -- R320: which of the twelve opcodes, in the order R320 lists them
  | invalid (k : Fin 2)     -- R321: 0x9C or 0x9E
  -- 49 undocumented combined operations
  | slo (m : AddrMode)      -- R331
  | rla (m : AddrMode)      -- R332
  | sre (m : AddrMode)      -- R333
  | rra (m : AddrMode)      -- R334
  | sax (m : AddrMode)      -- R335
  | lax (m : AddrMode)      -- R336
  | dcp (m : AddrMode)      -- R337
  | isc (m : AddrMode)      -- R338
  | anc (k : Fin 2) (v : Byte)  -- R339: 0x0B or 0x2B
  | alr (v : Byte)          -- R340
  | arr (v : Byte)          -- R341
  | ane (v : Byte)          -- R342
  | lxa (v : Byte)          -- R343
  | sbx (v : Byte)          -- R344
  | usbc (v : Byte)         -- R345
  | las (a : Word)          -- R346, absolute,Y
  | tas (a : Word)          -- R347, absolute,Y
  | sha (m : AddrMode)      -- R348, absolute,Y or (zero page),Y
deriving DecidableEq, Repr

end Sys2Proof
end

