-- ==== Sys2Proof/Machine/Operands.lean ====
section
/-! DEFINITION. The addressing modes (spec 20_memory R70 to R85), the instruction classes (R85) and their cycle counts
(spec 30_encoding R120 to R124). -/

namespace Sys2Proof.Machine

/-- What an addressing mode produces (R70): the effective address and the page-cross flag, and the address before
indexing, which TAS and SHA use (R347, R348). -/
structure EffectiveAddress where
  addr : Word
  cross : Bool
  base : Word
deriving DecidableEq, Repr

/-- An address that is not indexed: it crosses no page. -/
def unindexed (a : Word) : EffectiveAddress := { addr := a, cross := false, base := a }

/-- `s <- lo + i; c <- s >> 8; EA <- u8(hi + c) * 256 + u8(s)`, `pc_cross = (c != 0)` (R78, R79, R81). -/
def indexed (base : Word) (i : Byte) : EffectiveAddress :=
  let sum := (lowByte base).toNat + i.toNat
  let c := sum / 256
  { addr := wordOf (BitVec.ofNat 8 ((highByte base).toNat + c)) (BitVec.ofNat 8 sum)
    cross := c != 0
    base := base }

/-- The word a zero-page pointer points to: low byte at p, high byte at u8(p + 1) (R80, R81). -/
def readPointer (p : Byte) (s : State) : Res Word :=
  andThen (zread p s) fun lo s1 => andThen (zread (p + 1) s1) fun hi s2 => .next (wordOf hi lo, s2)

/-- The effective address of a memory operand (R74 to R81). -/
def effectiveAddress (m : AddrMode) (s : State) : Res EffectiveAddress :=
  match m with
  | .zp a => .next (unindexed (zeroExtend16 a), s)
  | .zpx a => .next (unindexed (zeroExtend16 (a + s.X)), s)
  | .zpy a => .next (unindexed (zeroExtend16 (a + s.Y)), s)
  | .abs a => .next (unindexed a, s)
  | .absx a => .next (indexed a s.X, s)
  | .absy a => .next (indexed a s.Y, s)
  | .indx a => andThen (readPointer (a + s.X) s) fun w s1 => .next (unindexed w, s1)
  | .indy a => andThen (readPointer a s) fun w s1 => .next (indexed w s1.Y, s1)

/-- The read-class operand (R85): the byte and the page-cross flag. -/
def readOperand (o : ReadOperand) (s : State) : Res (Byte × Bool) :=
  match o with
  | .imm v => .next ((v, false), s)
  | .mem m =>
    andThen (effectiveAddress m s) fun ea s1 =>
    andThen (memRead ea.addr s1) fun v s2 => .next ((v, ea.cross), s2)

/-! Cycle counts by class and form (R124, and the rows of the opcode table). -/

/-- Read-class base cycles on memory. -/
def AddrMode.readCycles : AddrMode → Nat
  | .zp _ => 3
  | .zpx _ => 4
  | .zpy _ => 4
  | .abs _ => 4
  | .absx _ => 4
  | .absy _ => 4
  | .indx _ => 6
  | .indy _ => 5

/-- Read-class base cycles. -/
def ReadOperand.readCycles : ReadOperand → Nat
  | .imm _ => 2
  | .mem m => AddrMode.readCycles m

/-- Write-class cycles; there is no page-cross penalty. -/
def AddrMode.writeCycles : AddrMode → Nat
  | .zp _ => 3
  | .zpx _ => 4
  | .zpy _ => 4
  | .abs _ => 4
  | .absx _ => 5
  | .absy _ => 5
  | .indx _ => 6
  | .indy _ => 6

/-- Read-modify-write cycles on memory; there is no page-cross penalty. -/
def AddrMode.rmwCycles : AddrMode → Nat
  | .zp _ => 5
  | .zpx _ => 6
  | .zpy _ => 6
  | .abs _ => 6
  | .absx _ => 7
  | .absy _ => 7
  | .indx _ => 8
  | .indy _ => 8

/-- The page-cross penalty (R121). -/
def crossPenalty (cross : Bool) : Nat := if cross then 1 else 0

/-! The classes (R85). -/

/-- A read-class instruction: fetch the operand, do `f` with it, charge the page-cross penalty (R85, R121). -/
def readClass (o : ReadOperand) (s : State) (f : Byte → State → State) : Host.Outcome State Fault Refusal :=
  andThen (readOperand o s) fun r s1 => .next ((f r.1 s1).finish (ReadOperand.readCycles o + crossPenalty r.2))

/-- A write-class instruction: one write of `v` at the effective address, no data read (R85). -/
def writeClass (m : AddrMode) (s : State) (v : Byte) : Host.Outcome State Fault Refusal :=
  andThen (effectiveAddress m s) fun ea s1 => finishAfter (memWrite ea.addr v s1) (AddrMode.writeCycles m)

/-- The write of the unmodified byte that `BUS_TRACE = unspecified` admits before the final write (R58, D12; log 3). -/
def unmodifiedWrite (a : Word) (v : Byte) (s : State) : Res Unit :=
  match s.params.busTrace with
  | .functional => .next ((), s)
  | .unspecified =>
    if Config.rmwWritesTwice s.draws then memWrite a v { s with draws := s.draws + 1 }
    else .next ((), { s with draws := s.draws + 1 })

/-- A read-modify-write instruction on memory (R85): read `v`, write `f v s`, then `g v r` sets registers and flags.
`f` sees the state before the write, so a rotate feeds in the old carry. -/
def rmwMemory (m : AddrMode) (s : State) (f : Byte → State → Byte) (g : Byte → Byte → State → State) :
    Host.Outcome State Fault Refusal :=
  andThen (effectiveAddress m s) fun ea s1 =>
  andThen (memRead ea.addr s1) fun v s2 =>
  andThen (unmodifiedWrite ea.addr v s2) fun _ s3 =>
  andThen (memWrite ea.addr (f v s3) s3) fun _ s4 =>
  .next ((g v (f v s3) s4).finish (AddrMode.rmwCycles m))

/-- A shift or rotate (R230 to R233): on A in two cycles, or read-modify-write on memory. -/
def shiftClass (o : ShiftOperand) (s : State) (f : Byte → State → Byte) (g : Byte → Byte → State → State) :
    Host.Outcome State Fault Refusal :=
  match o with
  | .acc => .next ((g s.A (f s.A s) { s with A := f s.A s }).finish 2)
  | .mem m => rmwMemory m s f g

end Sys2Proof.Machine
end

