-- ==== Sys2Proof/Machine/Arithmetic.lean ====
section
/-! DEFINITION. The meanings of ADC, SBC, CMP, CPX and CPY (spec 41_arithmetic). -/

namespace Sys2Proof.Machine

/-- ADC (R215), binary or decimal by D. -/
def execAdc (o : ReadOperand) (s : State) : Host.Outcome State Fault Refusal :=
  readClass o s fun m s1 => s1.adc m

/-- SBC (R216), binary or decimal by D. -/
def execSbc (o : ReadOperand) (s : State) : Host.Outcome State Fault Refusal :=
  readClass o s fun m s1 => s1.sbc m

/-- CMP (R218): `compare(A, M)`. -/
def execCmp (o : ReadOperand) (s : State) : Host.Outcome State Fault Refusal :=
  readClass o s fun m s1 => s1.compare s1.A m

/-- CPX (R219): `compare(X, M)`. -/
def execCpx (o : ReadOperand) (s : State) : Host.Outcome State Fault Refusal :=
  readClass o s fun m s1 => s1.compare s1.X m

/-- CPY (R220): `compare(Y, M)`. -/
def execCpy (o : ReadOperand) (s : State) : Host.Outcome State Fault Refusal :=
  readClass o s fun m s1 => s1.compare s1.Y m

end Sys2Proof.Machine
end

