-- ==== Sys2Proof/Machine/Control.lean ====
section
/-! DEFINITION. The meanings of JMP, JSR, RTS, RTI, BRK and the conditional branches (spec 46_control). A meaning starts after the
operand bytes are fetched, so PC is the address after them (log 12). -/

namespace Sys2Proof.Machine

/-- The target of an indirect JMP (R83): the pointer's high byte is read from the page of its low byte. -/
def readIndirect (p : Word) (s : State) : Res Word :=
  andThen (memRead p s) fun tl s1 =>
  andThen (memRead (wordOf (highByte p) (lowByte p + 1)) s1) fun th s2 => .next (wordOf th tl, s2)

/-- JMP (R280): absolute in 3 cycles, indirect in 5. -/
def execJmp (t : JumpTarget) (s : State) : Host.Outcome State Fault Refusal :=
  match t with
  | .abs a => .next ({ s with PC := a }.finish 3)
  | .ind p => andThen (readIndirect p s) fun a s1 => .next ({ s1 with PC := a }.finish 5)

/-- JSR (R281): the address of the JSR's last byte is pushed, high byte first, 6 cycles. -/
def execJsr (a : Word) (s : State) : Host.Outcome State Fault Refusal :=
  andThen (pushWord (s.PC - 1) s) fun _ s1 => .next ({ s1 with PC := a }.finish 6)

/-- RTS (R282): the pulled address plus one, 6 cycles. -/
def execRts (s : State) : Host.Outcome State Fault Refusal :=
  andThen (pullWord s) fun w s1 => .next ({ s1 with PC := w + 1 }.finish 6)

/-- RTI (R283), 6 cycles. -/
def execRti (s : State) : Host.Outcome State Fault Refusal := finishAfter (returnFromInterrupt s) 6

/-- BRK (R284): a dummy fetch, then the interrupt entry through $FFFE with U and B set in the pushed status, 7 cycles. -/
def execBrk (s : State) : Host.Outcome State Fault Refusal :=
  andThen (fetch s) fun _ s1 => finishAfter (enterInterrupt (statusPushed s1.P) 0xFFFE s1) 7

/-- The common branch rule (R285) and its cycles (R122): `N` is PC, the address of the next instruction. -/
def branch (cond : Bool) (d : Byte) (s : State) : Host.Outcome State Fault Refusal :=
  let target := s.PC + signExtend16 d
  if cond then
    .next ({ s with PC := target }.finish (if highByte target = highByte s.PC then 3 else 4))
  else .next (s.finish 2)

/-- BPL (R286): taken when N = 0. -/
def execBpl (d : Byte) (s : State) : Host.Outcome State Fault Refusal := branch (!s.flagN) d s

/-- BMI (R287): taken when N = 1. -/
def execBmi (d : Byte) (s : State) : Host.Outcome State Fault Refusal := branch (s.flagN) d s

/-- BVC (R288): taken when V = 0. -/
def execBvc (d : Byte) (s : State) : Host.Outcome State Fault Refusal := branch (!s.flagV) d s

/-- BVS (R289): taken when V = 1. -/
def execBvs (d : Byte) (s : State) : Host.Outcome State Fault Refusal := branch (s.flagV) d s

/-- BCC (R290): taken when C = 0. -/
def execBcc (d : Byte) (s : State) : Host.Outcome State Fault Refusal := branch (!s.flagC) d s

/-- BCS (R291): taken when C = 1. -/
def execBcs (d : Byte) (s : State) : Host.Outcome State Fault Refusal := branch (s.flagC) d s

/-- BNE (R292): taken when Z = 0. -/
def execBne (d : Byte) (s : State) : Host.Outcome State Fault Refusal := branch (!s.flagZ) d s

/-- BEQ (R293): taken when Z = 1. -/
def execBeq (d : Byte) (s : State) : Host.Outcome State Fault Refusal := branch (s.flagZ) d s

end Sys2Proof.Machine
end

