-- ==== Sys2Proof/Machine/FlagOps.lean ====
section
/-! DEFINITION. The meanings of CLC, SEC, CLI, SEI, CLV, CLD and SED (spec 47_flag_ops): one flag, 2 cycles. -/

namespace Sys2Proof.Machine

/-- CLC (R300): `P.C <- 0`. -/
def execClc (s : State) : Host.Outcome State Fault Refusal := .next ((s.setC false).finish 2)

/-- SEC (R301): `P.C <- 1`. -/
def execSec (s : State) : Host.Outcome State Fault Refusal := .next ((s.setC true).finish 2)

/-- CLI (R302): `P.I <- 0`. -/
def execCli (s : State) : Host.Outcome State Fault Refusal := .next ((s.setI false).finish 2)

/-- SEI (R303): `P.I <- 1`. -/
def execSei (s : State) : Host.Outcome State Fault Refusal := .next ((s.setI true).finish 2)

/-- CLV (R304): `P.V <- 0`. -/
def execClv (s : State) : Host.Outcome State Fault Refusal := .next ((s.setV false).finish 2)

/-- CLD (R305): `P.D <- 0`. -/
def execCld (s : State) : Host.Outcome State Fault Refusal := .next ((s.setD false).finish 2)

/-- SED (R306): `P.D <- 1`. -/
def execSed (s : State) : Host.Outcome State Fault Refusal := .next ((s.setD true).finish 2)

end Sys2Proof.Machine
end

