-- ==== Sys2Proof/Machine/LoadStore.lean ====
section
/-! DEFINITION. The meanings of LDA, LDX, LDY, STA, STX and STY (spec 43_load_store). -/

namespace Sys2Proof.Machine

/-- LDA (R240): `A <- M; setNZ(A)`. -/
def execLda (o : ReadOperand) (s : State) : Host.Outcome State Fault Refusal :=
  readClass o s fun m s1 => { s1 with A := m }.setNZ m

/-- LDX (R241): `X <- M; setNZ(X)`. -/
def execLdx (o : ReadOperand) (s : State) : Host.Outcome State Fault Refusal :=
  readClass o s fun m s1 => { s1 with X := m }.setNZ m

/-- LDY (R242): `Y <- M; setNZ(Y)`. -/
def execLdy (o : ReadOperand) (s : State) : Host.Outcome State Fault Refusal :=
  readClass o s fun m s1 => { s1 with Y := m }.setNZ m

/-- STA (R243): `MemWrite(EA, 1, A)`. -/
def execSta (m : AddrMode) (s : State) : Host.Outcome State Fault Refusal := writeClass m s s.A

/-- STX (R244): `MemWrite(EA, 1, X)`. -/
def execStx (m : AddrMode) (s : State) : Host.Outcome State Fault Refusal := writeClass m s s.X

/-- STY (R245): `MemWrite(EA, 1, Y)`. -/
def execSty (m : AddrMode) (s : State) : Host.Outcome State Fault Refusal := writeClass m s s.Y

end Sys2Proof.Machine
end

