-- ==== Sys2Proof/Machine/Logical.lean ====
section
/-! DEFINITION. The meanings of ORA, AND, EOR and BIT (spec 40_logical). -/

namespace Sys2Proof.Machine

/-- ORA (R200): `A <- A | M; setNZ(A)`. -/
def execOra (o : ReadOperand) (s : State) : Host.Outcome State Fault Refusal :=
  readClass o s fun m s1 => { s1 with A := s1.A ||| m }.setNZ (s1.A ||| m)

/-- AND (R201): `A <- A & M; setNZ(A)`. -/
def execAnd (o : ReadOperand) (s : State) : Host.Outcome State Fault Refusal :=
  readClass o s fun m s1 => { s1 with A := s1.A &&& m }.setNZ (s1.A &&& m)

/-- EOR (R202): `A <- A ^ M; setNZ(A)`. -/
def execEor (o : ReadOperand) (s : State) : Host.Outcome State Fault Refusal :=
  readClass o s fun m s1 => { s1 with A := s1.A ^^^ m }.setNZ (s1.A ^^^ m)

/-- BIT (R203): N and V are bits 7 and 6 of M, Z tells whether `M & A` is 0; A stays. -/
def execBit (m : AddrMode) (s : State) : Host.Outcome State Fault Refusal :=
  readClass (.mem m) s fun v s1 => s1.setNVZ (v.getLsbD 7) (v.getLsbD 6) (v &&& s1.A == 0)

end Sys2Proof.Machine
end

