-- ==== Sys2Proof/Decode.lean ====
section
/-! DEFINITION. The decoder (spec 30_encoding R100 to R105) and the encoder. The decoder reads the opcode grid of
30_encoding section 6; the encoder is written from the "Encoding" lines of the instruction rules (40 to 49). -/

namespace Sys2Proof

open Machine (wordOf)

/-- What an opcode byte fixes: the instruction, up to the operand bytes that follow it (R100). -/
inductive Shape where
  | none (i : Instr)
  | byte (f : Byte → Instr)
  | word (f : Word → Instr)

/-- How many operand bytes follow the opcode. -/
def Shape.operandBytes : Shape → Nat
  | .none _ => 0
  | .byte _ => 1
  | .word _ => 2

def rImm (f : ReadOperand → Instr) : Shape := .byte fun v => f (.imm v)
def rZp (f : ReadOperand → Instr) : Shape := .byte fun a => f (.mem (.zp a))
def rZpx (f : ReadOperand → Instr) : Shape := .byte fun a => f (.mem (.zpx a))
def rZpy (f : ReadOperand → Instr) : Shape := .byte fun a => f (.mem (.zpy a))
def rAbs (f : ReadOperand → Instr) : Shape := .word fun a => f (.mem (.abs a))
def rAbsx (f : ReadOperand → Instr) : Shape := .word fun a => f (.mem (.absx a))
def rAbsy (f : ReadOperand → Instr) : Shape := .word fun a => f (.mem (.absy a))
def rIndx (f : ReadOperand → Instr) : Shape := .byte fun a => f (.mem (.indx a))
def rIndy (f : ReadOperand → Instr) : Shape := .byte fun a => f (.mem (.indy a))

def sZp (f : ShiftOperand → Instr) : Shape := .byte fun a => f (.mem (.zp a))
def sZpx (f : ShiftOperand → Instr) : Shape := .byte fun a => f (.mem (.zpx a))
def sAbs (f : ShiftOperand → Instr) : Shape := .word fun a => f (.mem (.abs a))
def sAbsx (f : ShiftOperand → Instr) : Shape := .word fun a => f (.mem (.absx a))

def mZp (f : AddrMode → Instr) : Shape := .byte fun a => f (.zp a)
def mZpx (f : AddrMode → Instr) : Shape := .byte fun a => f (.zpx a)
def mZpy (f : AddrMode → Instr) : Shape := .byte fun a => f (.zpy a)
def mAbs (f : AddrMode → Instr) : Shape := .word fun a => f (.abs a)
def mAbsx (f : AddrMode → Instr) : Shape := .word fun a => f (.absx a)
def mAbsy (f : AddrMode → Instr) : Shape := .word fun a => f (.absy a)
def mIndx (f : AddrMode → Instr) : Shape := .byte fun a => f (.indx a)
def mIndy (f : AddrMode → Instr) : Shape := .byte fun a => f (.indy a)

def nopImp (k : Fin 6) : Shape := .none (.nopAlias (.imp k))
def nopImm (k : Fin 5) : Shape := .byte fun v => .nopAlias (.imm k v)
def nopZp (k : Fin 3) : Shape := .byte fun a => .nopAlias (.zp k a)
def nopZpx (k : Fin 6) : Shape := .byte fun a => .nopAlias (.zpx k a)
def nopAbs : Shape := .word fun a => .nopAlias (.abs a)
def nopAbsx (k : Fin 6) : Shape := .word fun a => .nopAlias (.absx k a)

/-- Opcodes 0x00 to 0x0F. -/
def grid0 : Vector Shape 16 := #v[
  .none .brk, rIndx .ora, .none (.hlt 0), mIndx .slo,
  nopZp 0, rZp .ora, sZp .asl, mZp .slo,
  .none .php, rImm .ora, .none (.asl .acc), .byte (.anc 0),
  nopAbs, rAbs .ora, sAbs .asl, mAbs .slo]

/-- Opcodes 0x10 to 0x1F. -/
def grid1 : Vector Shape 16 := #v[
  .byte .bpl, rIndy .ora, .none (.hlt 1), mIndy .slo,
  nopZpx 0, rZpx .ora, sZpx .asl, mZpx .slo,
  .none .clc, rAbsy .ora, nopImp 0, mAbsy .slo,
  nopAbsx 0, rAbsx .ora, sAbsx .asl, mAbsx .slo]

/-- Opcodes 0x20 to 0x2F. -/
def grid2 : Vector Shape 16 := #v[
  .word .jsr, rIndx .and, .none (.hlt 2), mIndx .rla,
  mZp .bit, rZp .and, sZp .rol, mZp .rla,
  .none .plp, rImm .and, .none (.rol .acc), .byte (.anc 1),
  mAbs .bit, rAbs .and, sAbs .rol, mAbs .rla]

/-- Opcodes 0x30 to 0x3F. -/
def grid3 : Vector Shape 16 := #v[
  .byte .bmi, rIndy .and, .none (.hlt 3), mIndy .rla,
  nopZpx 1, rZpx .and, sZpx .rol, mZpx .rla,
  .none .sec, rAbsy .and, nopImp 1, mAbsy .rla,
  nopAbsx 1, rAbsx .and, sAbsx .rol, mAbsx .rla]

/-- Opcodes 0x40 to 0x4F. -/
def grid4 : Vector Shape 16 := #v[
  .none .rti, rIndx .eor, .none (.hlt 4), mIndx .sre,
  nopZp 1, rZp .eor, sZp .lsr, mZp .sre,
  .none .pha, rImm .eor, .none (.lsr .acc), .byte .alr,
  (.word fun a => .jmp (.abs a)), rAbs .eor, sAbs .lsr, mAbs .sre]

/-- Opcodes 0x50 to 0x5F. -/
def grid5 : Vector Shape 16 := #v[
  .byte .bvc, rIndy .eor, .none (.hlt 5), mIndy .sre,
  nopZpx 2, rZpx .eor, sZpx .lsr, mZpx .sre,
  .none .cli, rAbsy .eor, nopImp 2, mAbsy .sre,
  nopAbsx 2, rAbsx .eor, sAbsx .lsr, mAbsx .sre]

/-- Opcodes 0x60 to 0x6F. -/
def grid6 : Vector Shape 16 := #v[
  .none .rts, rIndx .adc, .none (.hlt 6), mIndx .rra,
  nopZp 2, rZp .adc, sZp .ror, mZp .rra,
  .none .pla, rImm .adc, .none (.ror .acc), .byte .arr,
  (.word fun p => .jmp (.ind p)), rAbs .adc, sAbs .ror, mAbs .rra]

/-- Opcodes 0x70 to 0x7F. -/
def grid7 : Vector Shape 16 := #v[
  .byte .bvs, rIndy .adc, .none (.hlt 7), mIndy .rra,
  nopZpx 3, rZpx .adc, sZpx .ror, mZpx .rra,
  .none .sei, rAbsy .adc, nopImp 3, mAbsy .rra,
  nopAbsx 3, rAbsx .adc, sAbsx .ror, mAbsx .rra]

/-- Opcodes 0x80 to 0x8F. -/
def grid8 : Vector Shape 16 := #v[
  nopImm 0, mIndx .sta, nopImm 1, mIndx .sax,
  mZp .sty, mZp .sta, mZp .stx, mZp .sax,
  .none .dey, nopImm 2, .none .txa, .byte .ane,
  mAbs .sty, mAbs .sta, mAbs .stx, mAbs .sax]

/-- Opcodes 0x90 to 0x9F. -/
def grid9 : Vector Shape 16 := #v[
  .byte .bcc, mIndy .sta, .none (.hlt 8), mIndy .sha,
  mZpx .sty, mZpx .sta, mZpy .stx, mZpy .sax,
  .none .tya, mAbsy .sta, .none .txs, .word .tas,
  .none (.invalid 0), mAbsx .sta, .none (.invalid 1), mAbsy .sha]

/-- Opcodes 0xA0 to 0xAF. -/
def gridA : Vector Shape 16 := #v[
  rImm .ldy, rIndx .lda, rImm .ldx, mIndx .lax,
  rZp .ldy, rZp .lda, rZp .ldx, mZp .lax,
  .none .tay, rImm .lda, .none .tax, .byte .lxa,
  rAbs .ldy, rAbs .lda, rAbs .ldx, mAbs .lax]

/-- Opcodes 0xB0 to 0xBF. -/
def gridB : Vector Shape 16 := #v[
  .byte .bcs, rIndy .lda, .none (.hlt 9), mIndy .lax,
  rZpx .ldy, rZpx .lda, rZpy .ldx, mZpy .lax,
  .none .clv, rAbsy .lda, .none .tsx, .word .las,
  rAbsx .ldy, rAbsx .lda, rAbsy .ldx, mAbsy .lax]

/-- Opcodes 0xC0 to 0xCF. -/
def gridC : Vector Shape 16 := #v[
  rImm .cpy, rIndx .cmp, nopImm 3, mIndx .dcp,
  rZp .cpy, rZp .cmp, mZp .dec, mZp .dcp,
  .none .iny, rImm .cmp, .none .dex, .byte .sbx,
  rAbs .cpy, rAbs .cmp, mAbs .dec, mAbs .dcp]

/-- Opcodes 0xD0 to 0xDF. -/
def gridD : Vector Shape 16 := #v[
  .byte .bne, rIndy .cmp, .none (.hlt 10), mIndy .dcp,
  nopZpx 4, rZpx .cmp, mZpx .dec, mZpx .dcp,
  .none .cld, rAbsy .cmp, nopImp 4, mAbsy .dcp,
  nopAbsx 4, rAbsx .cmp, mAbsx .dec, mAbsx .dcp]

/-- Opcodes 0xE0 to 0xEF. -/
def gridE : Vector Shape 16 := #v[
  rImm .cpx, rIndx .sbc, nopImm 4, mIndx .isc,
  rZp .cpx, rZp .sbc, mZp .inc, mZp .isc,
  .none .inx, rImm .sbc, .none .nop, .byte .usbc,
  rAbs .cpx, rAbs .sbc, mAbs .inc, mAbs .isc]

/-- Opcodes 0xF0 to 0xFF. -/
def gridF : Vector Shape 16 := #v[
  .byte .beq, rIndy .sbc, .none (.hlt 11), mIndy .isc,
  nopZpx 5, rZpx .sbc, mZpx .inc, mZpx .isc,
  .none .sed, rAbsy .sbc, nopImp 5, mAbsy .isc,
  nopAbsx 5, rAbsx .sbc, mAbsx .inc, mAbsx .isc]

/-- The opcode map (30_encoding section 6): row = high nibble, column = low nibble. -/
def opcodeGrid : Vector (Vector Shape 16) 16 := #v[
  grid0, grid1, grid2, grid3, grid4, grid5, grid6, grid7,
  grid8, grid9, gridA, gridB, gridC, gridD, gridE, gridF]

/-- The row of an opcode: all eight bits are decoded and every opcode has a row (R100, R103). -/
def decodeOpcode (op : Byte) : Shape :=
  (opcodeGrid[op.toNat / 16]'(by have := op.isLt; omega))[op.toNat % 16]'(by omega)

/-- Why a list of bytes is no instruction. Every opcode is one (R104), so only missing bytes are rejected. -/
inductive DecodeError where
  | empty
  | truncated (op : Byte)
deriving DecidableEq, Repr

/-- Decoding (R100 to R103): the instruction at the head of the bytes, and the bytes after it. -/
def decode : List Byte → Except DecodeError (Instr × List Byte)
  | [] => .error .empty
  | op :: rest =>
    match decodeOpcode op, rest with
    | .none i, rest => .ok (i, rest)
    | .byte f, b :: rest => .ok (f b, rest)
    | .word f, lo :: hi :: rest => .ok (f (wordOf hi lo), rest)
    | .byte _, [] => .error (.truncated op)
    | .word _, [] => .error (.truncated op)
    | .word _, [_] => .error (.truncated op)

/-- The instruction of a table word: `w` numbered as spec/opcode_table.json numbers bits, the opcode in bits 7..0. -/
def decodeTableWord (nbits w : Nat) : Option Instr :=
  let v := w % 2 ^ nbits
  match decode [BitVec.ofNat 8 v, BitVec.ofNat 8 (v / 256), BitVec.ofNat 8 (v / 65536)] with
  | .ok (i, _) => some i
  | .error _ => none

/-- The classes of opcodes (R104, the column "profile" of the opcode table). -/
inductive RowProfile where
  | documented
  | hlt
  | invalid
  | undocNop
  | undocNmos
deriving DecidableEq, Repr

/-- The class of the opcodes of an instruction (R104). -/
def Instr.rowProfile : Instr → RowProfile
  | .ora _ | .and _ | .eor _ | .bit _ | .adc _ | .sbc _ | .cmp _ | .cpx _ | .cpy _ => .documented
  | .asl _ | .lsr _ | .rol _ | .ror _ | .lda _ | .ldx _ | .ldy _ | .sta _ | .stx _ | .sty _ => .documented
  | .tax | .tay | .txa | .tya | .tsx | .txs | .inc _ | .dec _ | .inx | .iny | .dex | .dey => .documented
  | .pha | .php | .pla | .plp | .jmp _ | .jsr _ | .rts | .rti | .brk => .documented
  | .bpl _ | .bmi _ | .bvc _ | .bvs _ | .bcc _ | .bcs _ | .bne _ | .beq _ => .documented
  | .clc | .sec | .cli | .sei | .clv | .cld | .sed | .nop => .documented
  | .nopAlias _ => .undocNop
  | .hlt _ => .hlt
  | .invalid _ => .invalid
  | .slo _ | .rla _ | .sre _ | .rra _ | .sax _ | .lax _ | .dcp _ | .isc _ => .undocNmos
  | .anc _ _ | .alr _ | .arr _ | .ane _ | .lxa _ | .sbx _ | .usbc _ | .las _ | .tas _ | .sha _ => .undocNmos

/-- The class of an opcode; it does not depend on the operand bytes. -/
def Shape.rowProfile : Shape → RowProfile
  | .none i => i.rowProfile
  | .byte f => (f 0).rowProfile
  | .word f => (f 0).rowProfile

/-! The encoder. -/

/-- The opcodes of one instruction, by operand form; a form its rule does not list has none. -/
structure Codes where
  acc : Option Byte := none
  imm : Option Byte := none
  zp : Option Byte := none
  zpx : Option Byte := none
  zpy : Option Byte := none
  abs : Option Byte := none
  absx : Option Byte := none
  absy : Option Byte := none
  indx : Option Byte := none
  indy : Option Byte := none

/-- A 16-bit operand: low byte first (R54). -/
def wordBytes (w : Word) : List Byte := [Machine.lowByte w, Machine.highByte w]

def Codes.encodeMem (c : Codes) : AddrMode → Option (List Byte)
  | .zp a => c.zp.map (· :: [a])
  | .zpx a => c.zpx.map (· :: [a])
  | .zpy a => c.zpy.map (· :: [a])
  | .abs a => c.abs.map (· :: wordBytes a)
  | .absx a => c.absx.map (· :: wordBytes a)
  | .absy a => c.absy.map (· :: wordBytes a)
  | .indx a => c.indx.map (· :: [a])
  | .indy a => c.indy.map (· :: [a])

def Codes.encodeRead (c : Codes) : ReadOperand → Option (List Byte)
  | .imm v => c.imm.map (· :: [v])
  | .mem m => c.encodeMem m

def Codes.encodeShift (c : Codes) : ShiftOperand → Option (List Byte)
  | .acc => c.acc.map (· :: [])
  | .mem m => c.encodeMem m

/-- The twelve halt opcodes (R320). -/
def hltOpcodes : Vector Byte 12 := #v[0x02, 0x12, 0x22, 0x32, 0x42, 0x52, 0x62, 0x72, 0x92, 0xB2, 0xD2, 0xF2]

/-- The two invalid opcodes (R321). -/
def invalidOpcodes : Vector Byte 2 := #v[0x9C, 0x9E]

/-- The two opcodes of ANC (R339). -/
def ancOpcodes : Vector Byte 2 := #v[0x0B, 0x2B]

/-- The NOP aliases (R311's table). -/
def NopForm.encode : NopForm → List Byte
  | .imp k => [(#v[0x1A, 0x3A, 0x5A, 0x7A, 0xDA, 0xFA] : Vector Byte 6)[k]]
  | .imm k v => [(#v[0x80, 0x82, 0x89, 0xC2, 0xE2] : Vector Byte 5)[k], v]
  | .zp k a => [(#v[0x04, 0x44, 0x64] : Vector Byte 3)[k], a]
  | .zpx k a => [(#v[0x14, 0x34, 0x54, 0x74, 0xD4, 0xF4] : Vector Byte 6)[k], a]
  | .abs a => 0x0C :: wordBytes a
  | .absx k a => (#v[0x1C, 0x3C, 0x5C, 0x7C, 0xDC, 0xFC] : Vector Byte 6)[k] :: wordBytes a

/-- The bytes of an instruction; none for an operand form without an opcode. -/
def encode : Instr → Option (List Byte)
  | .ora o => Codes.encodeRead
      { imm := some 0x09, zp := some 0x05, zpx := some 0x15, abs := some 0x0D, absx := some 0x1D, absy := some 0x19, indx := some 0x01, indy := some 0x11 } o
  | .and o => Codes.encodeRead
      { imm := some 0x29, zp := some 0x25, zpx := some 0x35, abs := some 0x2D, absx := some 0x3D, absy := some 0x39, indx := some 0x21, indy := some 0x31 } o
  | .eor o => Codes.encodeRead
      { imm := some 0x49, zp := some 0x45, zpx := some 0x55, abs := some 0x4D, absx := some 0x5D, absy := some 0x59, indx := some 0x41, indy := some 0x51 } o
  | .bit m => Codes.encodeMem
      { zp := some 0x24, abs := some 0x2C } m
  | .adc o => Codes.encodeRead
      { imm := some 0x69, zp := some 0x65, zpx := some 0x75, abs := some 0x6D, absx := some 0x7D, absy := some 0x79, indx := some 0x61, indy := some 0x71 } o
  | .sbc o => Codes.encodeRead
      { imm := some 0xE9, zp := some 0xE5, zpx := some 0xF5, abs := some 0xED, absx := some 0xFD, absy := some 0xF9, indx := some 0xE1, indy := some 0xF1 } o
  | .cmp o => Codes.encodeRead
      { imm := some 0xC9, zp := some 0xC5, zpx := some 0xD5, abs := some 0xCD, absx := some 0xDD, absy := some 0xD9, indx := some 0xC1, indy := some 0xD1 } o
  | .cpx o => Codes.encodeRead
      { imm := some 0xE0, zp := some 0xE4, abs := some 0xEC } o
  | .cpy o => Codes.encodeRead
      { imm := some 0xC0, zp := some 0xC4, abs := some 0xCC } o
  | .asl o => Codes.encodeShift
      { acc := some 0x0A, zp := some 0x06, zpx := some 0x16, abs := some 0x0E, absx := some 0x1E } o
  | .lsr o => Codes.encodeShift
      { acc := some 0x4A, zp := some 0x46, zpx := some 0x56, abs := some 0x4E, absx := some 0x5E } o
  | .rol o => Codes.encodeShift
      { acc := some 0x2A, zp := some 0x26, zpx := some 0x36, abs := some 0x2E, absx := some 0x3E } o
  | .ror o => Codes.encodeShift
      { acc := some 0x6A, zp := some 0x66, zpx := some 0x76, abs := some 0x6E, absx := some 0x7E } o
  | .lda o => Codes.encodeRead
      { imm := some 0xA9, zp := some 0xA5, zpx := some 0xB5, abs := some 0xAD, absx := some 0xBD, absy := some 0xB9, indx := some 0xA1, indy := some 0xB1 } o
  | .ldx o => Codes.encodeRead
      { imm := some 0xA2, zp := some 0xA6, zpy := some 0xB6, abs := some 0xAE, absy := some 0xBE } o
  | .ldy o => Codes.encodeRead
      { imm := some 0xA0, zp := some 0xA4, zpx := some 0xB4, abs := some 0xAC, absx := some 0xBC } o
  | .sta m => Codes.encodeMem
      { zp := some 0x85, zpx := some 0x95, abs := some 0x8D, absx := some 0x9D, absy := some 0x99, indx := some 0x81, indy := some 0x91 } m
  | .stx m => Codes.encodeMem
      { zp := some 0x86, zpy := some 0x96, abs := some 0x8E } m
  | .sty m => Codes.encodeMem
      { zp := some 0x84, zpx := some 0x94, abs := some 0x8C } m
  | .inc m => Codes.encodeMem
      { zp := some 0xE6, zpx := some 0xF6, abs := some 0xEE, absx := some 0xFE } m
  | .dec m => Codes.encodeMem
      { zp := some 0xC6, zpx := some 0xD6, abs := some 0xCE, absx := some 0xDE } m
  | .slo m => Codes.encodeMem
      { zp := some 0x07, zpx := some 0x17, abs := some 0x0F, absx := some 0x1F, absy := some 0x1B, indx := some 0x03, indy := some 0x13 } m
  | .rla m => Codes.encodeMem
      { zp := some 0x27, zpx := some 0x37, abs := some 0x2F, absx := some 0x3F, absy := some 0x3B, indx := some 0x23, indy := some 0x33 } m
  | .sre m => Codes.encodeMem
      { zp := some 0x47, zpx := some 0x57, abs := some 0x4F, absx := some 0x5F, absy := some 0x5B, indx := some 0x43, indy := some 0x53 } m
  | .rra m => Codes.encodeMem
      { zp := some 0x67, zpx := some 0x77, abs := some 0x6F, absx := some 0x7F, absy := some 0x7B, indx := some 0x63, indy := some 0x73 } m
  | .dcp m => Codes.encodeMem
      { zp := some 0xC7, zpx := some 0xD7, abs := some 0xCF, absx := some 0xDF, absy := some 0xDB, indx := some 0xC3, indy := some 0xD3 } m
  | .isc m => Codes.encodeMem
      { zp := some 0xE7, zpx := some 0xF7, abs := some 0xEF, absx := some 0xFF, absy := some 0xFB, indx := some 0xE3, indy := some 0xF3 } m
  | .sax m => Codes.encodeMem
      { zp := some 0x87, zpy := some 0x97, abs := some 0x8F, indx := some 0x83 } m
  | .lax m => Codes.encodeMem
      { zp := some 0xA7, zpy := some 0xB7, abs := some 0xAF, absy := some 0xBF, indx := some 0xA3, indy := some 0xB3 } m
  | .tax => some [0xAA]
  | .tay => some [0xA8]
  | .txa => some [0x8A]
  | .tya => some [0x98]
  | .tsx => some [0xBA]
  | .txs => some [0x9A]
  | .inx => some [0xE8]
  | .iny => some [0xC8]
  | .dex => some [0xCA]
  | .dey => some [0x88]
  | .pha => some [0x48]
  | .php => some [0x08]
  | .pla => some [0x68]
  | .plp => some [0x28]
  | .jmp (.abs a) => some (0x4C :: wordBytes a)
  | .jmp (.ind p) => some (0x6C :: wordBytes p)
  | .jsr a => some (0x20 :: wordBytes a)
  | .rts => some [0x60]
  | .rti => some [0x40]
  | .brk => some [0x00]
  | .bpl d => some [0x10, d]
  | .bmi d => some [0x30, d]
  | .bvc d => some [0x50, d]
  | .bvs d => some [0x70, d]
  | .bcc d => some [0x90, d]
  | .bcs d => some [0xB0, d]
  | .bne d => some [0xD0, d]
  | .beq d => some [0xF0, d]
  | .clc => some [0x18]
  | .sec => some [0x38]
  | .cli => some [0x58]
  | .sei => some [0x78]
  | .clv => some [0xB8]
  | .cld => some [0xD8]
  | .sed => some [0xF8]
  | .nop => some [0xEA]
  | .nopAlias f => some f.encode
  | .hlt k => some [hltOpcodes[k]]
  | .invalid k => some [invalidOpcodes[k]]
  | .anc k v => some [ancOpcodes[k], v]
  | .alr v => some [0x4B, v]
  | .arr v => some [0x6B, v]
  | .ane v => some [0x8B, v]
  | .lxa v => some [0xAB, v]
  | .sbx v => some [0xCB, v]
  | .usbc v => some [0xEB, v]
  | .las a => some (0xBB :: wordBytes a)
  | .tas a => some (0x9B :: wordBytes a)
  | .sha m => Codes.encodeMem { absy := some 0x9F, indy := some 0x93 } m

end Sys2Proof
end

