-- ==== Sys2Proof/Machine/NopHalt.lean ====
section
/-! DEFINITION. The meanings of NOP, the NOP aliases, HLT and the invalid opcodes (spec 48_nop_halt). -/

namespace Sys2Proof.Machine

/-- NOP (R310): nothing beyond the opcode fetch, 2 cycles. -/
def execNop (s : State) : Host.Outcome State Fault Refusal := .next (s.finish 2)

/-- The NOP aliases (R311): the operand is fetched, or the byte at EA read, and ignored. -/
def execNopAlias (f : NopForm) (s : State) : Host.Outcome State Fault Refusal :=
  whenNopAdmitted s <|
    match f with
    | .imp _ => .next (s.finish 2)
    | .imm _ v => readClass (.imm v) s fun _ s1 => s1
    | .zp _ a => readClass (.mem (.zp a)) s fun _ s1 => s1
    | .zpx _ a => readClass (.mem (.zpx a)) s fun _ s1 => s1
    | .abs a => readClass (.mem (.abs a)) s fun _ s1 => s1
    | .absx _ a => readClass (.mem (.absx a)) s fun _ s1 => s1

/-- HLT (R320): the latch is set and the Step returns `(0, Halted)` (R123); the cycle counter keeps the opcode
fetch's cycle (R34, C2; log 11). The machine goes on: every later Step is that of a halted core (R111). -/
def execHlt (_ : Fin 12) (s : State) : Host.Outcome State Fault Refusal :=
  .next { s with halted := true, report := { cycles := 0, outcome := .halted } }

/-- The invalid opcodes (R321): the Step returns `(INVALID_CYCLES, InvalidOpcode(opaddr, op))` and the core stays
running, with PC past the opcode (R402, D9). The count is a free value (R113). -/
def execInvalid (k : Fin 2) (s : State) : Host.Outcome State Fault Refusal :=
  let n := Config.invalidCycles s.draws
  .next { s with
    cycles := n
    draws := s.draws + 1
    report := { cycles := n, outcome := .invalidOpcode (s.PC - 1) invalidOpcodes[k] } }

end Sys2Proof.Machine
end

