-- ==== Sys2Proof/Machine/Shift.lean ====
section
/-! DEFINITION. The meanings of ASL, LSR, ROL and ROR (spec 42_shift_rotate). -/

namespace Sys2Proof.Machine

/-- C takes the bit shifted out, N and Z follow the result (R230 to R233). -/
def State.shiftFlags (s : State) (out : Bool) (r : Byte) : State := (s.setC out).setNZ r

/-- ASL (R230): C is the old bit 7. -/
def execAsl (o : ShiftOperand) (s : State) : Host.Outcome State Fault Refusal :=
  shiftClass o s (fun v _ => aslByte v) fun v r s1 => s1.shiftFlags (v.getLsbD 7) r

/-- LSR (R231): C is the old bit 0. -/
def execLsr (o : ShiftOperand) (s : State) : Host.Outcome State Fault Refusal :=
  shiftClass o s (fun v _ => lsrByte v) fun v r s1 => s1.shiftFlags (v.getLsbD 0) r

/-- ROL (R232): the old C enters bit 0, C is the old bit 7. -/
def execRol (o : ShiftOperand) (s : State) : Host.Outcome State Fault Refusal :=
  shiftClass o s (fun v s1 => rolByte v s1.flagC) fun v r s1 => s1.shiftFlags (v.getLsbD 7) r

/-- ROR (R233): the old C enters bit 7, C is the old bit 0. -/
def execRor (o : ShiftOperand) (s : State) : Host.Outcome State Fault Refusal :=
  shiftClass o s (fun v s1 => rorByte v s1.flagC) fun v r s1 => s1.shiftFlags (v.getLsbD 0) r

end Sys2Proof.Machine
end

