-- ==== Sys2Proof/Machine/Stack.lean ====
section
/-! DEFINITION. The meanings of PHA, PHP, PLA and PLP (spec 45_stack). -/

namespace Sys2Proof.Machine

/-- PHA (R270): `push(A)`, 3 cycles. -/
def execPha (s : State) : Host.Outcome State Fault Refusal := finishAfter (push s.A s) 3

/-- PHP (R271): `pushStatus()`, 3 cycles. -/
def execPhp (s : State) : Host.Outcome State Fault Refusal := finishAfter (pushStatus s) 3

/-- PLA (R272): `A <- pull(); setNZ(A)`, 4 cycles. -/
def execPla (s : State) : Host.Outcome State Fault Refusal :=
  andThen (pull s) fun v s1 => .next (({ s1 with A := v }.setNZ v).finish 4)

/-- PLP (R273): `pullStatus()`, 4 cycles. -/
def execPlp (s : State) : Host.Outcome State Fault Refusal := finishAfter (pullStatus s) 4

end Sys2Proof.Machine
end

