-- ==== Sys2Proof/Machine/Transfer.lean ====
section
/-! DEFINITION. The meanings of the register transfers, increments and decrements (spec 44_transfer_incdec). -/

namespace Sys2Proof.Machine

/-- TAX (R250): `X <- A; setNZ(X)`, 2 cycles. -/
def execTax (s : State) : Host.Outcome State Fault Refusal :=
  .next (({ s with X := s.A }.setNZ (s.A)).finish 2)

/-- TAY (R251): `Y <- A; setNZ(Y)`, 2 cycles. -/
def execTay (s : State) : Host.Outcome State Fault Refusal :=
  .next (({ s with Y := s.A }.setNZ (s.A)).finish 2)

/-- TXA (R252): `A <- X; setNZ(A)`, 2 cycles. -/
def execTxa (s : State) : Host.Outcome State Fault Refusal :=
  .next (({ s with A := s.X }.setNZ (s.X)).finish 2)

/-- TYA (R253): `A <- Y; setNZ(A)`, 2 cycles. -/
def execTya (s : State) : Host.Outcome State Fault Refusal :=
  .next (({ s with A := s.Y }.setNZ (s.Y)).finish 2)

/-- TSX (R254): `X <- S; setNZ(X)`, 2 cycles. -/
def execTsx (s : State) : Host.Outcome State Fault Refusal :=
  .next (({ s with X := s.S }.setNZ (s.S)).finish 2)

/-- TXS (R255): `S <- X`, 2 cycles; no flag changes. -/
def execTxs (s : State) : Host.Outcome State Fault Refusal :=
  .next ({ s with S := s.X }.finish 2)

/-- INC (R256): `MemWrite(EA, 1, u8(v + 1))`; N and Z of the result. -/
def execInc (m : AddrMode) (s : State) : Host.Outcome State Fault Refusal :=
  rmwMemory m s (fun v _ => v + 1) fun _ r s1 => s1.setNZ r

/-- DEC (R257): `MemWrite(EA, 1, u8(v - 1))`; N and Z of the result. -/
def execDec (m : AddrMode) (s : State) : Host.Outcome State Fault Refusal :=
  rmwMemory m s (fun v _ => v - 1) fun _ r s1 => s1.setNZ r

/-- INX (R258): `X <- u8(X + 1); setNZ(X)`, 2 cycles. -/
def execInx (s : State) : Host.Outcome State Fault Refusal :=
  .next (({ s with X := s.X + 1 }.setNZ (s.X + 1)).finish 2)

/-- INY (R259): `Y <- u8(Y + 1); setNZ(Y)`, 2 cycles. -/
def execIny (s : State) : Host.Outcome State Fault Refusal :=
  .next (({ s with Y := s.Y + 1 }.setNZ (s.Y + 1)).finish 2)

/-- DEX (R260): `X <- u8(X - 1); setNZ(X)`, 2 cycles. -/
def execDex (s : State) : Host.Outcome State Fault Refusal :=
  .next (({ s with X := s.X - 1 }.setNZ (s.X - 1)).finish 2)

/-- DEY (R261): `Y <- u8(Y - 1); setNZ(Y)`, 2 cycles. -/
def execDey (s : State) : Host.Outcome State Fault Refusal :=
  .next (({ s with Y := s.Y - 1 }.setNZ (s.Y - 1)).finish 2)

end Sys2Proof.Machine
end

