-- ==== Sys2Proof/Machine/Undocumented.lean ====
section
/-! DEFINITION. The meanings of the undocumented combined opcodes (spec 49_undocumented), which run under
`UNDOC_PROFILE = nmos` only (R322, R330). The spec's rules are general knowledge (G2; log 14). -/

namespace Sys2Proof.Machine

/-- SLO (R331): ASL the byte, then ORA it into A. -/
def execSlo (m : AddrMode) (s : State) : Host.Outcome State Fault Refusal :=
  whenNmosAdmitted s <| rmwMemory m s (fun v _ => aslByte v) fun v r s1 =>
    ({ s1 with A := s1.A ||| r }.setC (v.getLsbD 7)).setNZ (s1.A ||| r)

/-- RLA (R332): ROL the byte, then AND it into A. -/
def execRla (m : AddrMode) (s : State) : Host.Outcome State Fault Refusal :=
  whenNmosAdmitted s <| rmwMemory m s (fun v s1 => rolByte v s1.flagC) fun v r s1 =>
    ({ s1 with A := s1.A &&& r }.setC (v.getLsbD 7)).setNZ (s1.A &&& r)

/-- SRE (R333): LSR the byte, then EOR it into A. -/
def execSre (m : AddrMode) (s : State) : Host.Outcome State Fault Refusal :=
  whenNmosAdmitted s <| rmwMemory m s (fun v _ => lsrByte v) fun v r s1 =>
    ({ s1 with A := s1.A ^^^ r }.setC (v.getLsbD 0)).setNZ (s1.A ^^^ r)

/-- RRA (R334): ROR the byte, then ADC it with the carry just produced, decimal mode included. -/
def execRra (m : AddrMode) (s : State) : Host.Outcome State Fault Refusal :=
  whenNmosAdmitted s <| rmwMemory m s (fun v s1 => rorByte v s1.flagC) fun v r s1 =>
    (s1.setC (v.getLsbD 0)).adc r

/-- SAX (R335): `MemWrite(EA, 1, A & X)`. -/
def execSax (m : AddrMode) (s : State) : Host.Outcome State Fault Refusal :=
  whenNmosAdmitted s <| writeClass m s (s.A &&& s.X)

/-- LAX (R336): `A <- M; X <- M; setNZ(M)`. -/
def execLax (m : AddrMode) (s : State) : Host.Outcome State Fault Refusal :=
  whenNmosAdmitted s <| readClass (.mem m) s fun v s1 => { s1 with A := v, X := v }.setNZ v

/-- DCP (R337): DEC the byte, then CMP it with A. -/
def execDcp (m : AddrMode) (s : State) : Host.Outcome State Fault Refusal :=
  whenNmosAdmitted s <| rmwMemory m s (fun v _ => v - 1) fun _ r s1 => s1.compare s1.A r

/-- ISC (R338): INC the byte, then SBC it, decimal mode included. -/
def execIsc (m : AddrMode) (s : State) : Host.Outcome State Fault Refusal :=
  whenNmosAdmitted s <| rmwMemory m s (fun v _ => v + 1) fun _ r s1 => s1.sbc r

/-- ANC (R339): `A <- A & imm; setNZ(A); P.C <- A[7]`. -/
def execAnc (_ : Fin 2) (v : Byte) (s : State) : Host.Outcome State Fault Refusal :=
  whenNmosAdmitted s <| readClass (.imm v) s fun m s1 =>
    ({ s1 with A := s1.A &&& m }.setNZ (s1.A &&& m)).setC ((s1.A &&& m).getLsbD 7)

/-- ALR (R340): `t <- A & imm; P.C <- t[0]; A <- t >> 1; setNZ(A)`. -/
def execAlr (v : Byte) (s : State) : Host.Outcome State Fault Refusal :=
  whenNmosAdmitted s <| readClass (.imm v) s fun m s1 =>
    let t := s1.A &&& m
    ({ s1 with A := lsrByte t }.setC (t.getLsbD 0)).setNZ (lsrByte t)

/-- ARR (R341) with D = 0: `t <- A & imm; A <- (t >> 1) | (P.C << 7); setNZ(A); P.C <- A[6]; P.V <- A[6] ^ A[5]`.
With D = 1 the spec refuses it (D30; log 15). DESIGN CHOICE: a Step meets that refusal only after the operand fetch, so an
abort of that fetch is a BusFault (R405 leaves it open; log 25). -/
def execArr (v : Byte) (s : State) : Host.Outcome State Fault Refusal :=
  whenNmosAdmitted s <|
    if s.flagD then .refused .arrDecimal
    else readClass (.imm v) s fun m s1 =>
      let r := rorByte (s1.A &&& m) s1.flagC
      (({ s1 with A := r }.setNZ r).setC (r.getLsbD 6)).setV (r.getLsbD 6 ^^ r.getLsbD 5)

/-- ANE (R342): `A <- (A | ANE_MAGIC) & X & imm; setNZ(A)`, the constant a draw at each execution (D29). -/
def execAne (v : Byte) (s : State) : Host.Outcome State Fault Refusal :=
  whenNmosAdmitted s <| readClass (.imm v) s fun m s1 =>
    let r := (s1.A ||| Config.aneMagic s1.draws) &&& s1.X &&& m
    { s1 with A := r, draws := s1.draws + 1 }.setNZ r

/-- LXA (R343): `v <- (A | LXA_MAGIC) & imm; A <- v; X <- v; setNZ(v)`, the constant a draw at each execution (D29). -/
def execLxa (v : Byte) (s : State) : Host.Outcome State Fault Refusal :=
  whenNmosAdmitted s <| readClass (.imm v) s fun m s1 =>
    let r := (s1.A ||| Config.lxaMagic s1.draws) &&& m
    { s1 with A := r, X := r, draws := s1.draws + 1 }.setNZ r

/-- SBX (R344): `t <- A & X; P.C <- (t >= imm); X <- u8(t - imm); setNZ(X)`. -/
def execSbx (v : Byte) (s : State) : Host.Outcome State Fault Refusal :=
  whenNmosAdmitted s <| readClass (.imm v) s fun m s1 =>
    let t := s1.A &&& s1.X
    ({ s1 with X := t - m }.setC (decide (m.toNat ≤ t.toNat))).setNZ (t - m)

/-- USBC (R345): SBC with an immediate operand. -/
def execUsbc (v : Byte) (s : State) : Host.Outcome State Fault Refusal :=
  whenNmosAdmitted s <| readClass (.imm v) s fun m s1 => s1.sbc m

/-- LAS (R346), absolute,Y: `v <- MemRead(EA, 1) & S; A <- v; X <- v; S <- v; setNZ(v)`. -/
def execLas (a : Word) (s : State) : Host.Outcome State Fault Refusal :=
  whenNmosAdmitted s <| readClass (.mem (.absy a)) s fun m s1 =>
    let r := m &&& s1.S
    { s1 with A := r, X := r, S := r }.setNZ r

/-- TAS (R347), absolute,Y: `S <- A & X; MemWrite(EA, 1, A & X & u8(H + 1))`, H the high byte of the base address.
On a page crossing the spec refuses it (D31; log 15). -/
def execTas (a : Word) (s : State) : Host.Outcome State Fault Refusal :=
  whenNmosAdmitted s <|
    andThen (effectiveAddress (.absy a) s) fun ea s1 =>
    if ea.cross then .refused .tasPageCross
    else
      finishAfter
        (memWrite ea.addr (s1.A &&& s1.X &&& (highByte ea.base + 1)) { s1 with S := s1.A &&& s1.X })
        (AddrMode.writeCycles (.absy a))

/-- SHA (R348): `MemWrite(EA, 1, A & X & u8(H + 1))`, H the high byte of the base address before Y is added.
On a page crossing the spec refuses it (D31; log 15). -/
def execSha (m : AddrMode) (s : State) : Host.Outcome State Fault Refusal :=
  whenNmosAdmitted s <|
    andThen (effectiveAddress m s) fun ea s1 =>
    if ea.cross then .refused .shaPageCross
    else finishAfter (memWrite ea.addr (s1.A &&& s1.X &&& (highByte ea.base + 1)) s1) (AddrMode.writeCycles m)

end Sys2Proof.Machine
end

