-- ==== Sys2Proof/Machine/Fetch.lean ====
section
/-! DEFINITION. Fetching an instruction (spec 30_encoding R110, R405), and placing one for the host. -/

namespace Sys2Proof.Machine

/-- The opcode's class is admitted by `UNDOC_PROFILE`, else its refusal (R110, R322). -/
def whenAdmitted {τ : Type} (row : RowProfile) (s : State) (x : Host.Outcome τ Fault Refusal) :
    Host.Outcome τ Fault Refusal :=
  match row with
  | .documented => x
  | .hlt => x
  | .invalid => x
  | .undocNop => whenNopAdmitted s x
  | .undocNmos => whenNmosAdmitted s x

/-- The operand bytes of an opcode, low byte first (R54, R101). -/
def fetchOperands (shape : Shape) (s : State) : Res Instr :=
  match shape with
  | .none i => .next (i, s)
  | .byte f => andThen (fetch s) fun b s1 => .next (f b, s1)
  | .word f =>
    andThen (fetch s) fun lo s1 => andThen (fetch s1) fun hi s2 => .next (f (wordOf hi lo), s2)

/-- The next instruction: the opcode is fetched, an opcode that the profile does not admit is refused before any operand
byte is fetched (R405), and PC ends past the operand bytes. -/
def fetchInstr (s : State) : Res Instr :=
  andThen (fetch s) fun op s1 =>
  whenAdmitted (decodeOpcode op).rowProfile s1 (fetchOperands (decodeOpcode op) s1)

/-- A Step that runs begins with the cycle counter at 0 (R34); the record of bus accesses begins with it. -/
def State.beginStep (s : State) : State := { s with cycles := 0, trace := [] }

/-- A Step of a halted core returns `(0, Halted)`, makes no bus access and changes nothing else (R111). -/
def State.haltedStep (s : State) : State := { s with report := { cycles := 0, outcome := .halted } }

/-- Store bytes from an address on. -/
def placeBytes : Memory → Word → List Byte → Memory
  | m, _, [] => m
  | m, a, b :: rest => placeBytes (Memory.write m a.toNat b) (a + 1) rest

/-- `UNDOC_PROFILE` raised, where it must be, to a value that admits the opcodes of a class (R322). -/
def admittingProfile (row : RowProfile) (p : UndocProfile) : UndocProfile :=
  match row, p with
  | .documented, p => p
  | .hlt, p => p
  | .invalid, p => p
  | .undocNop, .refuse => .nopsOnly
  | .undocNop, .nopsOnly => .nopsOnly
  | .undocNop, .nmos => .nmos
  | .undocNmos, _ => .nmos

/-- The state with the instruction of a table word (and zero bytes up to the longest instruction) where the next Step
fetches: at PC, with the core running, no abort region over the reads of the three bytes, and a profile that admits the
opcode (log 1). -/
def placeInstruction (s : State) (nbits w : Nat) : State :=
  let v := w % 2 ^ nbits
  { s with
    mem := placeBytes s.mem s.PC [BitVec.ofNat 8 v, BitVec.ofNat 8 (v / 256), BitVec.ofNat 8 (v / 65536)]
    halted := false
    params :=
      { s.params with
        undocProfile := admittingProfile (decodeOpcode (BitVec.ofNat 8 v)).rowProfile s.params.undocProfile }
    aborts := s.aborts.filter fun b => !(b.abortsRead s.PC || b.abortsRead (s.PC + 1) || b.abortsRead (s.PC + 2)) }

end Sys2Proof.Machine
end

