-- ==== Sys2Proof/Machine/Step.lean ====
section
/-! DEFINITION. One Step of the core (spec 30_encoding R110, R111). -/

namespace Sys2Proof.Machine

/-- `Step()`: a halted core stays halted; a running one fetches the instruction at PC and executes it. -/
def step (s : State) : Host.Outcome State Fault Refusal :=
  if s.halted then .next s.haltedStep else andThen (fetchInstr s.beginStep) exec

/-- For the host: the state whose next Step fetches and runs the instruction of a table word. -/
def State.withFetchWord (s : State) (nbits w : Nat) : State := placeInstruction s nbits w

end Sys2Proof.Machine
end

