-- ==== Sys2Proof/Machine/HostOps.lean ====
section
/-! DEFINITION. The host's operations other than Step (spec 60_exceptions R410 to R417, R450, R455; 70_reset R500 to
R503; 10_state R38). Each runs between Steps and to completion. -/

namespace Sys2Proof.Machine

/-- `Reset()` (R500): the two vector reads are its only bus accesses. A read that aborts is a fault (R503, D21). -/
def hostReset (s : State) : Host.Outcome State Fault Refusal :=
  andThen (busRead 0xFFFC { s with S := 0xFF, A := 0x00, X := 0x00, Y := 0x00, P := 0x00, trace := [] }) fun lo s1 =>
  andThen (busRead 0xFFFD s1) fun hi s2 =>
  .next { s2 with PC := wordOf hi lo, halted := false, cycles := 0 }

/-- `Create(bus)` (R502): a core bound to a bus, which is the memory and the regions that abort, then Reset. It fails if
the bus cannot service the vector reads. -/
def hostCreate (mem : Memory) (aborts : List BusAbort) (params : Params) : Host.Outcome State Fault Refusal :=
  hostReset { State.reset with mem := mem, aborts := aborts, params := params }

/-- The entry common to NMI and IRQ (R413): the status is pushed with U set and B clear (R31). -/
def takeInterrupt (vector : Word) (s : State) : Host.Outcome State Fault Refusal :=
  andThen (enterInterrupt (statusPushedInterrupt s.P) vector s) fun _ s1 => .next s1

/-- `NMI()` (R412): taken whatever I is, also while halted (R414). -/
def hostNmi (s : State) : Host.Outcome State Fault Refusal := takeInterrupt 0xFFFA s

/-- `IRQ()` (R411): ignored, and forgotten, when I is set. -/
def hostIrq (s : State) : Host.Outcome State Fault Refusal :=
  if s.flagI then .next s else takeInterrupt 0xFFFE s

/-- `SetPC(lo, hi)` (R38): PC and nothing else (D26). -/
def hostSetPC (lo hi : Byte) (s : State) : State := { s with PC := wordOf hi lo }

/-- `GetPCL()` (R38). -/
def hostGetPCL (s : State) : Byte := lowByte s.PC

/-- `GetPCH()` (R38). -/
def hostGetPCH (s : State) : Byte := highByte s.PC

/-- The host calls that act on the core (R455). -/
inductive HostCall where
  | reset
  | nmi
  | irq
  | setPC (lo hi : Byte)
  | step
deriving DecidableEq, Repr

/-- One host call (R455). -/
def hostCall (c : HostCall) (s : State) : Host.Outcome State Fault Refusal :=
  match c with
  | .reset => hostReset s
  | .nmi => hostNmi s
  | .irq => hostIrq s
  | .setPC lo hi => .next (hostSetPC lo hi s)
  | .step => step s

/-- One character of the flag string (R450, D34): the letter, or a dash when the flag is clear. -/
def flagChar (b : Bool) (c : Char) : Char := if b then c else '-'

/-- The flag string of the debug form: N, V, D, I, Z, C (R450). Separators and number format are not given (log 23). -/
def debugFlags (s : State) : List Char :=
  [flagChar s.flagN 'N', flagChar s.flagV 'V', flagChar s.flagD 'D', flagChar s.flagI 'I', flagChar s.flagZ 'Z',
    flagChar s.flagC 'C']

/-- The fields of the debug form, in its order (R450). -/
structure DebugView where
  PC : Word
  A : Byte
  X : Byte
  Y : Byte
  flags : List Char
  S : Byte
deriving DecidableEq, Repr

/-- The debug form (R450); it has no effect on state. -/
def debugView (s : State) : DebugView :=
  { PC := s.PC, A := s.A, X := s.X, Y := s.Y, flags := debugFlags s, S := s.S }

end Sys2Proof.Machine
end

