-- ==== Sys2Proof/Safety.lean ====
section
/-! DEFINITION. The terms claims use: the plain bus, the invariant, closed forms of the addressing modes, the bus accesses
of each instruction, and which state it may write (spec 10_state R21 to R27; an instruction a table does not name may not write it).
No meaning uses these. -/

namespace Sys2Proof.Machine

/-- The spec's default bus: plain memory, no aborts (R9, R52). -/
abbrev State.PlainBus (s : State) : Prop := s.aborts = []

/-- The invariant of the machine: memory is in its canonical form, and live U and B are 0 (R26). -/
abbrev State.Inv (s : State) : Prop := Memory.wf s.mem = true ∧ s.P &&& 0x30 = 0

/-! Addressing modes in closed form (R101's table, R74 to R81), against which the meanings' bus accesses are claimed. -/

/-- The word a zero-page pointer points to, its high byte at u8(p + 1). -/
def State.pointer (s : State) (p : Byte) : Word := wordOf (s.peek (zeroExtend16 (p + 1))) (s.peek (zeroExtend16 p))

/-- The effective address of a memory operand. -/
def AddrMode.address (m : AddrMode) (s : State) : Word :=
  match m with
  | .zp a => zeroExtend16 a
  | .zpx a => zeroExtend16 (a + s.X)
  | .zpy a => zeroExtend16 (a + s.Y)
  | .abs a => a
  | .absx a => a + zeroExtend16 s.X
  | .absy a => a + zeroExtend16 s.Y
  | .indx a => s.pointer (a + s.X)
  | .indy a => s.pointer a + zeroExtend16 s.Y

/-- The address before indexing, of the modes that can cross a page. -/
def AddrMode.baseAddress (m : AddrMode) (s : State) : Word :=
  match m with
  | .absx a => a
  | .absy a => a
  | .indy a => s.pointer a
  | .zp _ => AddrMode.address m s
  | .zpx _ => AddrMode.address m s
  | .zpy _ => AddrMode.address m s
  | .abs _ => AddrMode.address m s
  | .indx _ => AddrMode.address m s

/-- Crossing a page: the high byte of the effective address differs from that of the base (R13). -/
def AddrMode.crossesPage (m : AddrMode) (s : State) : Bool :=
  highByte (AddrMode.address m s) != highByte (AddrMode.baseAddress m s)

/-- The bus reads a mode performs (R80, R81). -/
def AddrMode.pointerReads (m : AddrMode) (s : State) : List BusAccess :=
  match m with
  | .indx a =>
    [.read (zeroExtend16 (a + s.X)) (s.peek (zeroExtend16 (a + s.X))),
     .read (zeroExtend16 (a + s.X + 1)) (s.peek (zeroExtend16 (a + s.X + 1)))]
  | .indy a =>
    [.read (zeroExtend16 a) (s.peek (zeroExtend16 a)), .read (zeroExtend16 (a + 1)) (s.peek (zeroExtend16 (a + 1)))]
  | .zp _ => []
  | .zpx _ => []
  | .zpy _ => []
  | .abs _ => []
  | .absx _ => []
  | .absy _ => []

/-- The byte of memory a mode names. -/
def AddrMode.byte (m : AddrMode) (s : State) : Byte := s.peek (AddrMode.address m s)

/-- The byte a read-class operand names (R85). -/
def ReadOperand.value (o : ReadOperand) (s : State) : Byte :=
  match o with
  | .imm v => v
  | .mem m => AddrMode.byte m s

/-- Base cycles by addressing mode: a column of R124's table. The statements write its numbers out. -/
structure ModeCycles where
  zp : Nat
  zpx : Nat
  zpy : Nat
  abs : Nat
  absx : Nat
  absy : Nat
  indx : Nat
  indy : Nat
deriving DecidableEq, Repr

/-- The entry of a column for a mode. -/
def ModeCycles.base (c : ModeCycles) : AddrMode → Nat
  | .zp _ => c.zp
  | .zpx _ => c.zpx
  | .zpy _ => c.zpy
  | .abs _ => c.abs
  | .absx _ => c.absx
  | .absy _ => c.absy
  | .indx _ => c.indx
  | .indy _ => c.indy

/-- The cycles of a read-class instruction on memory: the column's entry and the page-cross penalty (R120, R121). -/
def ModeCycles.read (c : ModeCycles) (m : AddrMode) (s : State) : Nat :=
  c.base m + (if AddrMode.crossesPage m s then 1 else 0)

/-- The cycles of a read-class instruction: 2 with an immediate operand. -/
def ReadOperand.cycles (c : ModeCycles) (o : ReadOperand) (s : State) : Nat :=
  match o with
  | .imm _ => 2
  | .mem m => c.read m s

/-! What an instruction leaves. -/

/-- A status register: the given flags, with U and B of `p` (R25's layout). -/
def statusWith (p : Byte) (n v d i z c : Bool) : Byte :=
  BitVec.ofBool n ++ BitVec.ofBool v ++ BitVec.ofBool (p.getLsbD 5) ++ BitVec.ofBool (p.getLsbD 4) ++
    BitVec.ofBool d ++ BitVec.ofBool i ++ BitVec.ofBool z ++ BitVec.ofBool c

/-- P after `setNZ(v)` (R28): N and Z follow the value, every other bit is as before. -/
def State.statusNZ (s : State) (v : Byte) : Byte :=
  statusWith s.P (v.getLsbD 7) s.flagV s.flagD s.flagI (decide (v = 0)) s.flagC

/-- P after `setNZ(v)` and `P.C <- c`. -/
def State.statusNZC (s : State) (v : Byte) (c : Bool) : Byte :=
  statusWith s.P (v.getLsbD 7) s.flagV s.flagD s.flagI (decide (v = 0)) c

/-- What an instruction leaves: the registers, and the bytes stored, the last one first. -/
structure After where
  A : Byte
  X : Byte
  Y : Byte
  S : Byte
  PC : Word
  P : Byte
  stored : List (Word × Byte)

/-- Nothing changed, nothing stored. -/
def State.unchanged (s : State) : After :=
  { A := s.A, X := s.X, Y := s.Y, S := s.S, PC := s.PC, P := s.P, stored := [] }

/-- The byte at an address after stores (the last one first): every address not stored to is as before. -/
def State.peekAfter (s : State) : List (Word × Byte) → Word → Byte
  | [], b => s.peek b
  | (a, v) :: rest, b => if b = a then v else State.peekAfter s rest b

/-- The state `t` is what `e` says, byte for byte of memory, with the latch, the abort regions and the parameters kept. -/
def State.Leaves (s t : State) (e : After) : Prop :=
  t.A = e.A ∧ t.X = e.X ∧ t.Y = e.Y ∧ t.S = e.S ∧ t.PC = e.PC ∧ t.P = e.P ∧
  (∀ b, t.peek b = s.peekAfter e.stored b) ∧ t.halted = s.halted ∧ t.aborts = s.aborts ∧ t.params = s.params

/-- The instruction answers a next state: `s` changed as `e` says, Ok returned with `n` cycles, the counter at `n`. -/
def Completes (i : Instr) (s : State) (n : Nat) (e : After) : Prop :=
  ∃ t, exec i s = .next t ∧ s.Leaves t e ∧ t.report = { cycles := n, outcome := .ok } ∧ t.cycles = n

/-- The instruction completes as an addition or subtraction (R214 to R216): the binary result, or with D = 1 the decimal
result and carry; N, V and Z are then the binary ones under `DECIMAL_NZV = binary`, and else some values. -/
def CompletesAddition (i : Instr) (s : State) (n : Nat) (bin : AluResult) (dec : Byte × Bool)
    (stored : List (Word × Byte)) : Prop :=
  (s.flagD = false → Completes i s n { s.unchanged with
    A := bin.r, P := statusWith s.P bin.N bin.V false s.flagI bin.Z bin.C, stored := stored }) ∧
  (s.flagD = true → s.params.decimalNzv = .binary → Completes i s n { s.unchanged with
    A := dec.1, P := statusWith s.P bin.N bin.V true s.flagI bin.Z dec.2, stored := stored }) ∧
  (s.flagD = true → ∃ fn fv fz, Completes i s n { s.unchanged with
    A := dec.1, P := statusWith s.P fn fv true s.flagI fz dec.2, stored := stored })

/-- On no bus and in no state is the instruction refused: it completes, or the bus aborts (R404). -/
def NeverRefused (i : Instr) : Prop := ∀ (s : State) (r : Refusal), exec i s ≠ .refused r

/-- The opcodes of an instruction with a read-class operand decode to it, whatever the operand bytes. -/
def DecodesRead (f : ReadOperand → Instr) (c : Codes) : Prop :=
  ∀ o bytes, c.encodeRead o = some bytes → decode bytes = .ok (f o, [])

/-- The opcodes of an instruction with a memory operand decode to it, whatever the operand bytes. -/
def DecodesMem (f : AddrMode → Instr) (c : Codes) : Prop :=
  ∀ m bytes, c.encodeMem m = some bytes → decode bytes = .ok (f m, [])

/-- The opcodes of a shift or rotate decode to it, whatever the operand bytes. -/
def DecodesShift (f : ShiftOperand → Instr) (c : Codes) : Prop :=
  ∀ o bytes, c.encodeShift o = some bytes → decode bytes = .ok (f o, [])

/-! Aborts. -/

/-- The region aborts the access. -/
def BusAbort.aborts (b : BusAbort) : BusAccess → Bool
  | .read a _ => b.abortsRead a
  | .write a v => b.abortsWrite a v

/-- The region that aborts the first access of a list that any region aborts; of several, the first region (log 5). -/
def State.firstAbort (s : State) (accesses : List BusAccess) : Option BusAbort :=
  accesses.findSome? fun a => s.aborts.find? fun b => b.aborts a

/-- The state on a bus that aborts nothing. -/
def State.withoutAborts (s : State) : State := { s with aborts := [] }

/-- What an operation does on the bus of `s`, told by what it does on a bus that aborts nothing, where `made` are the
accesses it makes: the same if none of them aborts, and else BusFault with the message of the first abort. -/
def EndsAtFirstAbort (f : State → Host.Outcome State Fault Refusal) (s : State) (made : State → List BusAccess) : Prop :=
  (∀ t, f s.withoutAborts = .next t →
    (s.firstAbort (made t) = none → f s = .next { t with aborts := s.aborts }) ∧
    ∀ b, s.firstAbort (made t) = some b → ∃ n, f s = .fault (.busFault b.msg n)) ∧
  (∀ r, f s.withoutAborts = .refused r →
    f s = .refused r ∨ ∃ b ∈ s.aborts, ∃ n, f s = .fault (.busFault b.msg n)) ∧
  ∀ e, f s.withoutAborts ≠ .fault e

/-- The accesses added to the record since `s`. -/
def State.accessesSince (s t : State) : List BusAccess := t.trace.drop s.trace.length

/-- The bytes at PC are those of an instruction, followed by `rest` within the three bytes read. -/
def State.Fetches (s : State) (i : Instr) (rest : List Byte) : Prop :=
  decode [s.peek s.PC, s.peek (s.PC + 1), s.peek (s.PC + 2)] = .ok (i, rest)

/-- The bus reads that fetch the first `n` bytes at PC (R63). -/
def State.fetchReads (s : State) (n : Nat) : List BusAccess :=
  [BusAccess.read s.PC (s.peek s.PC), .read (s.PC + 1) (s.peek (s.PC + 1)), .read (s.PC + 2) (s.peek (s.PC + 2))].take n

/-- The value of a byte of two decimal digits. -/
def bcdValue (b : Byte) : Nat := 10 * (b.toNat / 16) + b.toNat % 16

/-! The bus accesses of an instruction or entry under `BUS_TRACE = functional`, `s` before and `t` after it. -/

/-- Pointer reads, then the data read (R85, class read). -/
def AddrMode.readAccesses (m : AddrMode) (s : State) : List BusAccess :=
  AddrMode.pointerReads m s ++ [.read (AddrMode.address m s) (AddrMode.byte m s)]

/-- Pointer reads, then one write (R85, class write). -/
def AddrMode.writeAccesses (m : AddrMode) (s : State) (v : Byte) : List BusAccess :=
  AddrMode.pointerReads m s ++ [.write (AddrMode.address m s) v]

/-- Pointer reads, one read, and one write of the byte left there (R85, class rmw; D12). -/
def AddrMode.rmwAccesses (m : AddrMode) (s t : State) : List BusAccess :=
  AddrMode.readAccesses m s ++ [.write (AddrMode.address m s) (t.peek (AddrMode.address m s))]

/-- A read-class operand: no access for an immediate byte. -/
def ReadOperand.accesses (o : ReadOperand) (s : State) : List BusAccess :=
  match o with
  | .imm _ => []
  | .mem m => AddrMode.readAccesses m s

/-- A shift or rotate: no access on A. -/
def ShiftOperand.accesses (o : ShiftOperand) (s t : State) : List BusAccess :=
  match o with
  | .acc => []
  | .mem m => AddrMode.rmwAccesses m s t

/-- A NOP alias: the memory forms read the byte at EA (R311). -/
def NopForm.accesses (f : NopForm) (s : State) : List BusAccess :=
  match f with
  | .imp _ => []
  | .imm _ _ => []
  | .zp _ a => AddrMode.readAccesses (.zp a) s
  | .zpx _ a => AddrMode.readAccesses (.zpx a) s
  | .abs a => AddrMode.readAccesses (.abs a) s
  | .absx _ a => AddrMode.readAccesses (.absx a) s

/-- JMP: the two pointer reads of the indirect form (R83). -/
def JumpTarget.accesses (j : JumpTarget) (s : State) : List BusAccess :=
  match j with
  | .abs _ => []
  | .ind p => [.read p (s.peek p),
      .read (wordOf (highByte p) (lowByte p + 1)) (s.peek (wordOf (highByte p) (lowByte p + 1)))]

/-- The push of `v` when the stack pointer is `sp` (R84). -/
def pushAccess (sp v : Byte) : BusAccess := .write (stackAddress sp) v

/-- The pull that reads page $01 at `sp` (R84). -/
def State.pullAccess (s : State) (sp : Byte) : BusAccess := .read (stackAddress sp) (s.peek (stackAddress sp))

/-- An interrupt entry: three pushes and the two vector reads (R284, R412). -/
def State.entryAccesses (s t : State) (pc : Word) (status : Byte) (vector : Word) : List BusAccess :=
  [pushAccess s.S (highByte pc), pushAccess (s.S - 1) (lowByte pc), pushAccess (s.S - 2) status,
    .read vector (t.peek vector), .read (vector + 1) (t.peek (vector + 1))]

/-- Both nibbles are decimal digits. -/
def BcdValid (b : Byte) : Prop := b.toNat / 16 ≤ 9 ∧ b.toNat % 16 ≤ 9

end Sys2Proof.Machine

namespace Sys2Proof

open Machine

/-! Which state an instruction may write. -/

/-- The operand is A. -/
def ShiftOperand.isAcc : ShiftOperand → Bool
  | .acc => true
  | .mem _ => false

/-- The memory operand, if it is one. -/
def ShiftOperand.memory : ShiftOperand → Option AddrMode
  | .acc => none
  | .mem m => some m

/-- The instructions that write A (R21, and 49): a shift or rotate does when A is its operand. -/
def Instr.writesA : Instr → Bool
  | .ora _ | .and _ | .eor _ | .adc _ | .sbc _ | .lda _ | .txa | .tya | .pla | .slo _ | .rla _ | .sre _ |
    .rra _ | .lax _ | .isc _ | .anc _ _ | .alr _ | .arr _ | .ane _ | .lxa _ | .usbc _ | .las _ => true
  | .asl o | .lsr o | .rol o | .ror o => o.isAcc
  | .bit _ | .cmp _ | .cpx _ | .cpy _ | .ldx _ | .ldy _ | .sta _ | .stx _ | .sty _ | .tax | .tay | .tsx | .txs |
    .inc _ | .dec _ | .inx | .iny | .dex | .dey | .pha | .php | .plp | .jmp _ | .jsr _ | .rts | .rti | .brk |
    .bpl _ | .bmi _ | .bvc _ | .bvs _ | .bcc _ | .bcs _ | .bne _ | .beq _ | .clc | .sec | .cli | .sei | .clv |
    .cld | .sed | .nop | .nopAlias _ | .hlt _ | .invalid _ | .sax _ | .dcp _ | .sbx _ | .tas _ | .sha _ => false

/-- The instructions that write X (R22, and 49). -/
def Instr.writesX : Instr → Bool
  | .ldx _ | .tax | .tsx | .inx | .dex | .lax _ | .lxa _ | .sbx _ | .las _ => true
  | .ora _ | .and _ | .eor _ | .bit _ | .adc _ | .sbc _ | .cmp _ | .cpx _ | .cpy _ | .asl _ | .lsr _ | .rol _ |
    .ror _ | .lda _ | .ldy _ | .sta _ | .stx _ | .sty _ | .tay | .txa | .tya | .txs | .inc _ | .dec _ | .iny |
    .dey | .pha | .php | .pla | .plp | .jmp _ | .jsr _ | .rts | .rti | .brk | .bpl _ | .bmi _ | .bvc _ |
    .bvs _ | .bcc _ | .bcs _ | .bne _ | .beq _ | .clc | .sec | .cli | .sei | .clv | .cld | .sed | .nop |
    .nopAlias _ | .hlt _ | .invalid _ | .slo _ | .rla _ | .sre _ | .rra _ | .sax _ | .dcp _ | .isc _ |
    .anc _ _ | .alr _ | .arr _ | .ane _ | .usbc _ | .tas _ | .sha _ => false

/-- The instructions that write Y (R22). -/
def Instr.writesY : Instr → Bool
  | .ldy _ | .tay | .iny | .dey => true
  | .ora _ | .and _ | .eor _ | .bit _ | .adc _ | .sbc _ | .cmp _ | .cpx _ | .cpy _ | .asl _ | .lsr _ | .rol _ |
    .ror _ | .lda _ | .ldx _ | .sta _ | .stx _ | .sty _ | .tax | .txa | .tya | .tsx | .txs | .inc _ | .dec _ |
    .inx | .dex | .pha | .php | .pla | .plp | .jmp _ | .jsr _ | .rts | .rti | .brk | .bpl _ | .bmi _ | .bvc _ |
    .bvs _ | .bcc _ | .bcs _ | .bne _ | .beq _ | .clc | .sec | .cli | .sei | .clv | .cld | .sed | .nop |
    .nopAlias _ | .hlt _ | .invalid _ | .slo _ | .rla _ | .sre _ | .rra _ | .sax _ | .lax _ | .dcp _ | .isc _ |
    .anc _ _ | .alr _ | .arr _ | .ane _ | .lxa _ | .sbx _ | .usbc _ | .las _ | .tas _ | .sha _ => false

/-- The instructions that write S: TXS, every push and pull (R23), and LAS and TAS (R346, R347). -/
def Instr.writesS : Instr → Bool
  | .txs | .pha | .php | .pla | .plp | .jsr _ | .rts | .rti | .brk | .las _ | .tas _ => true
  | .ora _ | .and _ | .eor _ | .bit _ | .adc _ | .sbc _ | .cmp _ | .cpx _ | .cpy _ | .asl _ | .lsr _ | .rol _ |
    .ror _ | .lda _ | .ldx _ | .ldy _ | .sta _ | .stx _ | .sty _ | .tax | .tay | .txa | .tya | .tsx | .inc _ |
    .dec _ | .inx | .iny | .dex | .dey | .jmp _ | .bpl _ | .bmi _ | .bvc _ | .bvs _ | .bcc _ | .bcs _ | .bne _ |
    .beq _ | .clc | .sec | .cli | .sei | .clv | .cld | .sed | .nop | .nopAlias _ | .hlt _ | .invalid _ |
    .slo _ | .rla _ | .sre _ | .rra _ | .sax _ | .lax _ | .dcp _ | .isc _ | .anc _ _ | .alr _ | .arr _ |
    .ane _ | .lxa _ | .sbx _ | .usbc _ | .sha _ => false

/-- The instructions that load a target into PC (R24, R531); BRK also fetches the byte after its opcode. -/
def Instr.writesPC : Instr → Bool
  | .jmp _ | .jsr _ | .rts | .rti | .brk | .bpl _ | .bmi _ | .bvc _ | .bvs _ | .bcc _ | .bcs _ | .bne _ | .beq _ => true
  | .ora _ | .and _ | .eor _ | .bit _ | .adc _ | .sbc _ | .cmp _ | .cpx _ | .cpy _ | .asl _ | .lsr _ | .rol _ |
    .ror _ | .lda _ | .ldx _ | .ldy _ | .sta _ | .stx _ | .sty _ | .tax | .tay | .txa | .tya | .tsx | .txs |
    .inc _ | .dec _ | .inx | .iny | .dex | .dey | .pha | .php | .pla | .plp | .clc | .sec | .cli | .sei | .clv |
    .cld | .sed | .nop | .nopAlias _ | .hlt _ | .invalid _ | .slo _ | .rla _ | .sre _ | .rra _ | .sax _ |
    .lax _ | .dcp _ | .isc _ | .anc _ _ | .alr _ | .arr _ | .ane _ | .lxa _ | .sbx _ | .usbc _ | .las _ |
    .tas _ | .sha _ => false

/-- The bits of P an instruction may change (R27, and 49): N 7, V 6, U 5, B 4, D 3, I 2, Z 1, C 0. -/
def Instr.flagsWritten : Instr → List Nat
  | .ora _ | .and _ | .eor _ | .lda _ | .ldx _ | .ldy _ | .tax | .tay | .txa | .tya | .tsx | .inc _ | .dec _ |
    .inx | .iny | .dex | .dey | .pla | .lax _ | .ane _ | .lxa _ | .las _ => [7, 1]
  | .bit _ => [7, 6, 1]
  | .adc _ | .sbc _ | .rra _ | .isc _ | .usbc _ | .arr _ => [7, 6, 1, 0]
  | .cmp _ | .cpx _ | .cpy _ | .asl _ | .lsr _ | .rol _ | .ror _ | .slo _ | .rla _ | .sre _ | .dcp _ |
    .anc _ _ | .alr _ | .sbx _ => [7, 1, 0]
  | .clc | .sec => [0]
  | .cli | .sei | .brk => [2]
  | .clv => [6]
  | .cld | .sed => [3]
  | .plp | .rti => [7, 6, 5, 4, 3, 2, 1, 0]
  | .sta _ | .stx _ | .sty _ | .txs | .pha | .php | .jmp _ | .jsr _ | .rts | .bpl _ | .bmi _ | .bvc _ | .bvs _ |
    .bcc _ | .bcs _ | .bne _ | .beq _ | .nop | .nopAlias _ | .hlt _ | .invalid _ | .sax _ | .tas _ | .sha _ => []

/-- The memory operand that an instruction of class write or rmw stores to (R85). -/
def Instr.storesByMode : Instr → Option AddrMode
  | .sta m | .stx m | .sty m | .inc m | .dec m | .slo m | .rla m | .sre m | .rra m | .sax m | .dcp m | .isc m |
    .sha m => some m
  | .asl o | .lsr o | .rol o | .ror o => o.memory
  | .tas a => some (.absy a)
  | .ora _ | .and _ | .eor _ | .bit _ | .adc _ | .sbc _ | .cmp _ | .cpx _ | .cpy _ | .lda _ | .ldx _ | .ldy _ |
    .tax | .tay | .txa | .tya | .tsx | .txs | .inx | .iny | .dex | .dey | .pha | .php | .pla | .plp | .jmp _ |
    .jsr _ | .rts | .rti | .brk | .bpl _ | .bmi _ | .bvc _ | .bvs _ | .bcc _ | .bcs _ | .bne _ | .beq _ | .clc |
    .sec | .cli | .sei | .clv | .cld | .sed | .nop | .nopAlias _ | .hlt _ | .invalid _ | .lax _ | .anc _ _ |
    .alr _ | .arr _ | .ane _ | .lxa _ | .sbx _ | .usbc _ | .las _ => none

/-- How many bytes an instruction pushes (R270, R271, R281, R284). -/
def Instr.pushes : Instr → Nat
  | .pha | .php => 1
  | .jsr _ => 2
  | .brk => 3
  | .ora _ | .and _ | .eor _ | .bit _ | .adc _ | .sbc _ | .cmp _ | .cpx _ | .cpy _ | .asl _ | .lsr _ | .rol _ |
    .ror _ | .lda _ | .ldx _ | .ldy _ | .sta _ | .stx _ | .sty _ | .tax | .tay | .txa | .tya | .tsx | .txs |
    .inc _ | .dec _ | .inx | .iny | .dex | .dey | .pla | .plp | .jmp _ | .rts | .rti | .bpl _ | .bmi _ |
    .bvc _ | .bvs _ | .bcc _ | .bcs _ | .bne _ | .beq _ | .clc | .sec | .cli | .sei | .clv | .cld | .sed |
    .nop | .nopAlias _ | .hlt _ | .invalid _ | .slo _ | .rla _ | .sre _ | .rra _ | .sax _ | .lax _ | .dcp _ |
    .isc _ | .anc _ _ | .alr _ | .arr _ | .ane _ | .lxa _ | .sbx _ | .usbc _ | .las _ | .tas _ | .sha _ => 0

/-- The bus accesses of an instruction after its own bytes are fetched (R58, R61, R85, and each instruction's rule),
`s` before and `t` after it. -/
def Instr.accesses (i : Instr) (s t : State) : List BusAccess :=
  match i with
  | .ora o | .and o | .eor o | .adc o | .sbc o | .cmp o | .cpx o | .cpy o | .lda o | .ldx o | .ldy o =>
    ReadOperand.accesses o s
  | .bit m | .lax m => AddrMode.readAccesses m s
  | .las a => AddrMode.readAccesses (.absy a) s
  | .nopAlias f => NopForm.accesses f s
  | .sta m => AddrMode.writeAccesses m s s.A
  | .stx m => AddrMode.writeAccesses m s s.X
  | .sty m => AddrMode.writeAccesses m s s.Y
  | .sax m => AddrMode.writeAccesses m s (s.A &&& s.X)
  | .tas a => AddrMode.writeAccesses (.absy a) s (s.A &&& s.X &&& (highByte a + 1))
  | .sha m => AddrMode.writeAccesses m s (s.A &&& s.X &&& (highByte (AddrMode.baseAddress m s) + 1))
  | .asl o | .lsr o | .rol o | .ror o => ShiftOperand.accesses o s t
  | .inc m | .dec m | .slo m | .rla m | .sre m | .rra m | .dcp m | .isc m => AddrMode.rmwAccesses m s t
  | .pha => [pushAccess s.S s.A]
  | .php => [pushAccess s.S (s.P ||| 0x30)]
  | .pla | .plp => [s.pullAccess (s.S + 1)]
  | .jmp j => JumpTarget.accesses j s
  | .jsr _ => [pushAccess s.S (highByte (s.PC - 1)), pushAccess (s.S - 1) (lowByte (s.PC - 1))]
  | .rts => [s.pullAccess (s.S + 1), s.pullAccess (s.S + 2)]
  | .rti => [s.pullAccess (s.S + 1), s.pullAccess (s.S + 2), s.pullAccess (s.S + 3)]
  | .brk => .read s.PC (s.peek s.PC) :: s.entryAccesses t (s.PC + 1) (s.P ||| 0x30) 0xFFFE
  | .tax | .tay | .txa | .tya | .tsx | .txs | .inx | .iny | .dex | .dey => []
  | .bpl _ | .bmi _ | .bvc _ | .bvs _ | .bcc _ | .bcs _ | .bne _ | .beq _ => []
  | .clc | .sec | .cli | .sei | .clv | .cld | .sed | .nop | .hlt _ | .invalid _ => []
  | .anc _ _ | .alr _ | .arr _ | .ane _ | .lxa _ | .sbx _ | .usbc _ => []

end Sys2Proof
end

