-- ==== Sys2Proof/WellFormed.lean ====
section
/-! DEFINITION. Which operand forms each instruction has: the "Encoding" line of each instruction rule (spec 40 to 49).
An instruction in a form its rule does not list has no opcode. -/

namespace Sys2Proof

/-- The format of a memory operand (R101). -/
def AddrMode.format : AddrMode → Format
  | .zp _ => .zp
  | .zpx _ => .zpx
  | .zpy _ => .zpy
  | .abs _ => .abs
  | .absx _ => .absx
  | .absy _ => .absy
  | .indx _ => .indx
  | .indy _ => .indy

/-- The format of a read-class operand (R101). -/
def ReadOperand.format : ReadOperand → Format
  | .imm _ => .imm
  | .mem m => m.format

/-- The format of a shift operand (R101). -/
def ShiftOperand.format : ShiftOperand → Format
  | .acc => .acc
  | .mem m => m.format

/-- The eight forms of ORA, AND, EOR, ADC, SBC, CMP and LDA. -/
def Format.accumulatorRead : List Format := [.imm, .zp, .zpx, .abs, .absx, .absy, .indx, .indy]

/-- The forms of the undocumented read-modify-write combinations (R331 to R334, R337, R338). -/
def Format.combinedRmw : List Format := [.zp, .zpx, .abs, .absx, .absy, .indx, .indy]

/-- The instruction's operand form is one its rule lists. -/
def Instr.wellFormed : Instr → Bool
  | .ora o | .and o | .eor o | .adc o | .sbc o | .cmp o | .lda o => o.format ∈ Format.accumulatorRead
  | .bit m => m.format ∈ [.zp, .abs]
  | .cpx o | .cpy o => o.format ∈ [.imm, .zp, .abs]
  | .asl o | .lsr o | .rol o | .ror o => o.format ∈ [.acc, .zp, .zpx, .abs, .absx]
  | .ldx o => o.format ∈ [.imm, .zp, .zpy, .abs, .absy]
  | .ldy o => o.format ∈ [.imm, .zp, .zpx, .abs, .absx]
  | .sta m => m.format ∈ [.zp, .zpx, .abs, .absx, .absy, .indx, .indy]
  | .stx m => m.format ∈ [.zp, .zpy, .abs]
  | .sty m => m.format ∈ [.zp, .zpx, .abs]
  | .inc m | .dec m => m.format ∈ [.zp, .zpx, .abs, .absx]
  | .slo m | .rla m | .sre m | .rra m | .dcp m | .isc m => m.format ∈ Format.combinedRmw
  | .sax m => m.format ∈ [.zp, .zpy, .abs, .indx]
  | .lax m => m.format ∈ [.zp, .zpy, .abs, .absy, .indx, .indy]
  | .sha m => m.format ∈ [.absy, .indy]
  | .tax | .tay | .txa | .tya | .tsx | .txs | .inx | .iny | .dex | .dey => true
  | .pha | .php | .pla | .plp => true
  | .jmp _ | .jsr _ | .rts | .rti | .brk => true
  | .bpl _ | .bmi _ | .bvc _ | .bvs _ | .bcc _ | .bcs _ | .bne _ | .beq _ => true
  | .clc | .sec | .cli | .sei | .clv | .cld | .sed => true
  | .nop | .nopAlias _ | .hlt _ | .invalid _ => true
  | .anc _ _ | .alr _ | .arr _ | .ane _ | .lxa _ | .sbx _ | .usbc _ => true
  | .las _ | .tas _ => true

end Sys2Proof
end

