-- ==== Sys2Proof/Certificates/Slice0/Obligations.lean ====
section
/-! DEFINITION. The statements for the provers. OBLIGATIONS.json gives each its id, its tier and the rules it rests on.
A meaning runs after the operand bytes are fetched, so the PC of a statement about `exec` is the address after them. -/

open Sys2Proof Sys2Proof.Machine

/-! Encoding (30_encoding). -/

/-- R100 to R103: every well-formed instruction has bytes, and decoding them gives it back, whatever follows. -/
def Obligations.DecodeOfEncode : Prop :=
  ∀ i : Instr, i.wellFormed = true →
    ∃ bytes, encode i = some bytes ∧ ∀ rest, decode (bytes ++ rest) = .ok (i, rest)

/-- R100 to R105: what the decoder reads is well formed and its bytes are the bytes read, so no two instructions share
bytes and no bit is dropped. -/
def Obligations.EncodeOfDecode : Prop :=
  ∀ (bytes rest : List Byte) (i : Instr), decode bytes = .ok (i, rest) →
    i.wellFormed = true ∧ ∃ own, encode i = some own ∧ bytes = own ++ rest

/-- R100, R103: the first byte alone fixes the length; enough bytes always decode, too few never do. -/
def Obligations.LengthFixedByOpcode : Prop :=
  ∀ op : Byte, ∃ n, n ≤ 2 ∧
    (∀ operands rest : List Byte, operands.length = n → ∃ i, decode (op :: (operands ++ rest)) = .ok (i, rest)) ∧
    (∀ bytes : List Byte, bytes.length < n → decode (op :: bytes) = .error (.truncated op))

/-- Words written out in the spec decode to the instructions they stand for (95_test_vectors, 48, 49). -/
def Obligations.SpecWordsDecode : Prop :=
  decode [0xA9, 0x80] = .ok (.lda (.imm 0x80), []) ∧
  decode [0x69, 0x01] = .ok (.adc (.imm 0x01), []) ∧
  decode [0x6C, 0xFF, 0x80] = .ok (.jmp (.ind 0x80FF), []) ∧
  decode [0xD0, 0xFE] = .ok (.bne 0xFE, []) ∧
  decode [0xB5, 0xFF] = .ok (.lda (.mem (.zpx 0xFF)), []) ∧
  decode [0xB1, 0x20] = .ok (.lda (.mem (.indy 0x20)), []) ∧
  decode [0x9D, 0xFF, 0x20] = .ok (.sta (.absx 0x20FF), []) ∧
  decode [0x7E, 0xFF, 0x10] = .ok (.ror (.mem (.absx 0x10FF)), []) ∧
  decode [0x20, 0x10, 0x04] = .ok (.jsr 0x0410, []) ∧
  decode [0x02] = .ok (.hlt 0, []) ∧
  decode [0x9E] = .ok (.invalid 1, []) ∧
  decode [0x1C, 0xFF, 0x12] = .ok (.nopAlias (.absx 0 0x12FF), []) ∧
  decode [0x07, 0x10] = .ok (.slo (.zp 0x10), [])

/-! The Step (30_encoding R110 to R123, 60_exceptions R400 to R405). -/

/-- R110, R24: a running core's Step on a plain bus is the meaning of the instruction at PC, with PC past its bytes; with
the functional bus trace the fetch has made exactly one read for each byte. -/
def Obligations.StepRunsDecodedInstruction : Prop :=
  ∀ (s : State) (i : Instr) (rest : List Byte), s.halted = false → s.PlainBus → s.Fetches i rest →
    (∃ c tr d, step s =
      exec i { s with PC := s.PC + BitVec.ofNat 16 (3 - rest.length), cycles := c, trace := tr, draws := d }) ∧
    (s.params.busTrace = .functional → step s =
      exec i { s with PC := s.PC + BitVec.ofNat 16 (3 - rest.length), cycles := 3 - rest.length,
                      trace := s.fetchReads (3 - rest.length) })

/-- R111: a Step of a halted core makes no bus access (D8, the spec's own choice), changes no state and returns
(0, Halted). -/
def Obligations.HaltedStepDoesNothing : Prop :=
  ∀ s : State, s.halted = true → step s = .next { s with report := { cycles := 0, outcome := .halted } }

/-- R33, R112, R320: of the Steps of a running core, only one at a halt opcode sets the latch, and it always does. -/
def Obligations.OnlyHaltOpcodesHalt : Prop :=
  ∀ s t : State, s.halted = false → step s = .next t →
    (t.halted = true ↔
      s.peek s.PC ∈ ([0x02, 0x12, 0x22, 0x32, 0x42, 0x52, 0x62, 0x72, 0x92, 0xB2, 0xD2, 0xF2] : List Byte))

/-- R34, R120 to R123: a Step that ends with Ok returns the counter's value, from 2 to 8, and at most 7 unless the
combined opcodes are admitted. -/
def Obligations.CycleCountBounds : Prop :=
  ∀ s t : State, s.halted = false → step s = .next t → t.report.outcome = .ok →
    t.cycles = t.report.cycles ∧ 2 ≤ t.report.cycles ∧ t.report.cycles ≤ 8 ∧
    (s.params.undocProfile ≠ .nmos → t.report.cycles ≤ 7)

/-- R24, R531: a completed Step advances PC by the instruction's length, unless the instruction loads a target. -/
def Obligations.PcAdvancesByLength : Prop :=
  ∀ (s t : State) (i : Instr) (rest : List Byte), s.halted = false → s.Fetches i rest → i.writesPC = false →
    step s = .next t → t.PC = s.PC + BitVec.ofNat 16 (3 - rest.length)

/-- R322, R330: on a plain bus, a Step at an opcode that UNDOC_PROFILE does not admit is refused (D3, D32, the spec's own
choices). -/
def Obligations.ProfileRefusesOpcodes : Prop :=
  ∀ (s : State) (i : Instr) (rest : List Byte), s.halted = false → s.PlainBus → s.Fetches i rest →
    (i.rowProfile = .undocNmos → s.params.undocProfile ≠ .nmos → step s = .refused .undocNmosNotAdmitted) ∧
    (i.rowProfile = .undocNop → s.params.undocProfile = .refuse → step s = .refused .undocNopNotAdmitted)

/-- R403, R405, R413, R503: the accesses being those that the same Step, instruction, interrupt entry or Reset makes on a
bus that aborts nothing, it does the same if none of them aborts, and the first that aborts, of whatever kind it is, ends it
with BusFault and the bus's message. That the first abort ends it is the spec's own choice (D10), that a message is that of
the first region over the access the model's (log 5), and faults out of the entries and Reset are D13 and D21 (log 24). -/
def Obligations.FirstAbortEndsTheStep : Prop :=
  ∀ s : State,
    (s.halted = false → EndsAtFirstAbort step s fun t => t.trace) ∧
    (∀ i : Instr, EndsAtFirstAbort (exec i) s s.accessesSince) ∧
    EndsAtFirstAbort hostNmi s s.accessesSince ∧
    EndsAtFirstAbort hostIrq s s.accessesSince ∧
    EndsAtFirstAbort hostReset s fun t => t.trace

/-! Invariants. -/

/-- R26, R50: every Step keeps memory canonical and live U and B at 0. -/
def Obligations.StepKeepsInvariant : Prop :=
  ∀ s t : State, s.Inv → step s = .next t → t.Inv

/-- R26, R50: Reset, NMI, IRQ and SetPC keep memory canonical and live U and B at 0. -/
def Obligations.HostCallsKeepInvariant : Prop :=
  ∀ (c : HostCall) (s t : State), c ≠ .step → s.Inv → hostCall c s = .next t → t.Inv

/-- The state after reset meets the invariant and is what Create gives on empty memory and the spec's default parameters
(R36, R502, R9; logs 4, 7, 8, 9 name the values that are the model's choice). -/
def Obligations.ResetStateIsCreated : Prop :=
  State.reset.Inv ∧ hostCreate [] [] Config.resetParams = .next State.reset

/-! Reset and interrupts (60_exceptions, 70_reset_and_hazards). -/

/-- R500: what Reset leaves, and its two bus accesses. -/
def Obligations.ResetOperation : Prop :=
  ∀ s : State, s.PlainBus → hostReset s = .next { s with
    S := 0xFF, A := 0x00, X := 0x00, Y := 0x00, P := 0x00
    PC := wordOf (s.peek 0xFFFD) (s.peek 0xFFFC)
    halted := false, cycles := 0
    trace := [.read 0xFFFC (s.peek 0xFFFC), .read 0xFFFD (s.peek 0xFFFD)] }

/-- R501: a Reset answers in every state whose bus does not abort it; two Resets give the same state as one; a Reset leaves
the core running; no other host call takes a halted core out of Halted. -/
def Obligations.ResetIdempotentAndOnlyWayOut : Prop :=
  (∀ s : State, s.PlainBus → ∃ t, hostReset s = .next t) ∧
  (∀ s t : State, hostReset s = .next t → hostReset t = .next t ∧ t.halted = false) ∧
  (∀ (c : HostCall) (s t : State), c ≠ .reset → s.halted = true → hostCall c s = .next t → t.halted = true)

/-- R412, R413, R414: NMI pushes PCH, PCL and P with U set and B clear, sets I, and loads PC from $FFFA/$FFFB; it
ignores I and the halt latch (D14), and nothing else changes (D15; both the spec's own choices). -/
def Obligations.NmiEntry : Prop :=
  ∀ s : State, s.PlainBus → ∃ t, hostNmi s = .next t ∧ s.Leaves t { s.unchanged with
    S := s.S - 3
    P := statusWith s.P s.flagN s.flagV s.flagD true s.flagZ s.flagC
    PC := wordOf (t.peek 0xFFFB) (t.peek 0xFFFA)
    stored := [(stackAddress (s.S - 2), (s.P ||| 0x20) &&& 0xEF), (stackAddress (s.S - 1), lowByte s.PC),
      (stackAddress s.S, highByte s.PC)] }

/-- R411: IRQ is ignored when I is set, and else proceeds as NMI with the vector $FFFE/$FFFF (D14, D15 as there). -/
def Obligations.IrqEntry : Prop :=
  (∀ s : State, s.flagI = true → hostIrq s = .next s) ∧
  (∀ s : State, s.flagI = false → s.PlainBus → ∃ t, hostIrq s = .next t ∧ s.Leaves t { s.unchanged with
    S := s.S - 3
    P := statusWith s.P s.flagN s.flagV s.flagD true s.flagZ s.flagC
    PC := wordOf (t.peek 0xFFFF) (t.peek 0xFFFE)
    stored := [(stackAddress (s.S - 2), (s.P ||| 0x20) &&& 0xEF), (stackAddress (s.S - 1), lowByte s.PC),
      (stackAddress s.S, highByte s.PC)] })

/-- R420, R283, R284: after an NMI, an IRQ that is taken, or a BRK, RTI in any state whose S and whose three stack bytes
are those the entry left resumes at the interrupted address (after BRK: past its ignored byte) with P and S restored. -/
def Obligations.RtiResumesAfterEntry : Prop :=
  ∀ s t u v : State, s.P &&& 0x30 = 0 → u.S = t.S →
    (∀ k : Byte, k ∈ ([0, 1, 2] : List Byte) → u.peek (stackAddress (s.S - k)) = t.peek (stackAddress (s.S - k))) →
    exec .rti u = .next v →
    (hostNmi s = .next t → v.PC = s.PC ∧ v.P = s.P ∧ v.S = s.S) ∧
    (s.flagI = false → hostIrq s = .next t → v.PC = s.PC ∧ v.P = s.P ∧ v.S = s.S) ∧
    (exec .brk s = .next t → v.PC = s.PC + 1 ∧ v.P = s.P ∧ v.S = s.S)

/-- R29, R30, and the law of R272: PHP then PLP leaves `P | U | B` on the stack and live P with U and B cleared, PHA then
PLA leaves A, with N and Z reflecting it. R281, R282: RTS in any state whose S and whose two stack bytes are those JSR
left returns to the instruction after the JSR. -/
def Obligations.StackRoundTrips : Prop :=
  (∀ s t u : State, exec .php s = .next t → exec .plp t = .next u →
    t.P = s.P ∧ t.peek (stackAddress s.S) = s.P ||| 0x30 ∧ u.P = s.P &&& 0xCF ∧ u.S = s.S) ∧
  (∀ s t u : State, exec .pha s = .next t → exec .pla t = .next u →
    u.A = s.A ∧ u.S = s.S ∧ u.P = s.statusNZ s.A) ∧
  (∀ (a : Word) (s t u v : State), exec (.jsr a) s = .next t → u.S = t.S →
    u.peek (stackAddress s.S) = t.peek (stackAddress s.S) →
    u.peek (stackAddress (s.S - 1)) = t.peek (stackAddress (s.S - 1)) →
    exec .rts u = .next v → v.PC = s.PC ∧ v.S = s.S)

/-! The ALU (41_arithmetic). -/

/-- R210: the sum modulo 256, C its carry, V signed overflow, N and Z of the result. -/
def Obligations.BinaryAddition : Prop :=
  ∀ (a m : Byte) (cin : Bool),
    (adcBin a m cin).r.toNat = (a.toNat + m.toNat + cin.toNat) % 256 ∧
    (adcBin a m cin).C = decide (255 < a.toNat + m.toNat + cin.toNat) ∧
    (adcBin a m cin).V = decide (a.toInt + m.toInt + cin.toNat < -128 ∨ 127 < a.toInt + m.toInt + cin.toNat) ∧
    (adcBin a m cin).N = (adcBin a m cin).r.getLsbD 7 ∧
    (adcBin a m cin).Z = decide ((adcBin a m cin).r = 0)

/-- R211: `r = u8(a - m - (1 - cin))`, C = 1 exactly when there is no borrow, V the signed overflow of the subtraction. -/
def Obligations.BinarySubtraction : Prop :=
  ∀ (a m : Byte) (cin : Bool),
    sbcBin a m cin = adcBin a (~~~m) cin ∧
    (sbcBin a m cin).r = a - m - (if cin then 0 else 1) ∧
    (sbcBin a m cin).C = decide (m.toNat + (if cin then 0 else 1) ≤ a.toNat) ∧
    (sbcBin a m cin).V = decide (a.toInt - m.toInt - (if cin then 0 else 1) < -128 ∨
      127 < a.toInt - m.toInt - (if cin then 0 else 1))

/-- R212: decimal addition in integers, digit by digit, for every byte, nibbles above 9 included (D6, the spec's own choice;
log 16); on decimal digits it adds two-digit numbers, with the carry as the hundred. -/
def Obligations.DecimalAddition : Prop :=
  (∀ (a m : Byte) (cin : Bool) (lo lo' hi hi' : Nat),
    lo = a.toNat % 16 + m.toNat % 16 + cin.toNat → lo' = (if 9 < lo then lo + 6 else lo) →
    hi = a.toNat / 16 + m.toNat / 16 + (if 15 < lo' then 1 else 0) → hi' = (if 9 < hi then hi + 6 else hi) →
    (bcdAdd a m cin).1.toNat = hi' % 16 * 16 + lo' % 16 ∧ (bcdAdd a m cin).2 = decide (15 < hi')) ∧
  ∀ (a m : Byte) (cin : Bool), BcdValid a → BcdValid m →
    BcdValid (bcdAdd a m cin).1 ∧
    bcdValue (bcdAdd a m cin).1 + 100 * (bcdAdd a m cin).2.toNat = bcdValue a + bcdValue m + cin.toNat

/-- R213: decimal subtraction in integers, digit by digit, for every byte, the borrow read before the low digit's adjustment
and C the literal test below 15 (D6, the spec's own choices; log 16); on decimal digits it subtracts two-digit numbers, C = 0
being a borrow of a hundred. -/
def Obligations.DecimalSubtraction : Prop :=
  (∀ (a m : Byte) (cin : Bool) (lo lo' hi hi' : Int),
    lo = ((a.toNat % 16 : Nat) : Int) - (m.toNat % 16 : Nat) - (if cin then 0 else 1) →
    lo' = (if lo < 0 then lo - 6 else lo) →
    hi = ((a.toNat / 16 : Nat) : Int) - (m.toNat / 16 : Nat) - (if lo < 0 then 1 else 0) →
    hi' = (if hi < 0 then hi - 6 else hi) →
    ((bcdSub a m cin).1.toNat : Int) = hi' % 16 * 16 + lo' % 16 ∧ (bcdSub a m cin).2 = decide (hi' % 256 < 15)) ∧
  ∀ (a m : Byte) (cin : Bool), BcdValid a → BcdValid m →
    BcdValid (bcdSub a m cin).1 ∧
    bcdValue (bcdSub a m cin).1 + bcdValue m + (!cin).toNat = bcdValue a + 100 * (!(bcdSub a m cin).2).toNat

/-! Addressing modes (20_memory R74 to R85). -/

/-- R74 to R81, R101: on a plain bus each mode gives the address of R101's table, and the page-cross flag says whether
its high byte differs from the base's; registers and memory are as before. -/
def Obligations.EffectiveAddressClosedForm : Prop :=
  ∀ (m : AddrMode) (s : State), s.PlainBus → ∃ ea t, effectiveAddress m s = .next (ea, t) ∧
    ea.addr = AddrMode.address m s ∧ ea.base = AddrMode.baseAddress m s ∧ ea.cross = AddrMode.crossesPage m s ∧
    s.Leaves t s.unchanged

/-- R58, R61, R85, R311, R57, R413: with the functional bus trace on a plain bus, every instruction that is not refused
completes with exactly the accesses of its rule in program order: pointer reads, data read or write, the NOP aliases' read,
JMP's pointer, stack and vector accesses, BRK's dummy fetch; so does an interrupt entry. The accesses and the single write of
a read-modify-write instruction are the spec's own choices (D11, D12). -/
def Obligations.AccessesInProgramOrder : Prop :=
  ∀ s : State, s.PlainBus → s.params.busTrace = .functional →
    (∀ i : Instr, (∀ r, exec i s ≠ .refused r) →
      ∃ t, exec i s = .next t ∧ t.trace = s.trace ++ i.accesses s t) ∧
    (∃ t, hostNmi s = .next t ∧ t.trace = s.trace ++ s.entryAccesses t s.PC ((s.P ||| 0x20) &&& 0xEF) 0xFFFA) ∧
    (s.flagI = false →
      ∃ t, hostIrq s = .next t ∧ t.trace = s.trace ++ s.entryAccesses t s.PC ((s.P ||| 0x20) &&& 0xEF) 0xFFFE)

/-! Results, instruction by instruction. Each says that the instruction completes, what it leaves, and its cycles, a column
of R124 written out where they depend on the mode. -/

/-- R200, R201, R202: ORA, AND and EOR. -/
def Obligations.LogicalResults : Prop :=
  (DecodesRead .ora { imm := some 0x09, zp := some 0x05, zpx := some 0x15, abs := some 0x0D, absx := some 0x1D, absy := some 0x19, indx := some 0x01, indy := some 0x11 } ∧
    ∀ o, NeverRefused (.ora o)) ∧
  (DecodesRead .and { imm := some 0x29, zp := some 0x25, zpx := some 0x35, abs := some 0x2D, absx := some 0x3D, absy := some 0x39, indx := some 0x21, indy := some 0x31 } ∧
    ∀ o, NeverRefused (.and o)) ∧
  (DecodesRead .eor { imm := some 0x49, zp := some 0x45, zpx := some 0x55, abs := some 0x4D, absx := some 0x5D, absy := some 0x59, indx := some 0x41, indy := some 0x51 } ∧
    ∀ o, NeverRefused (.eor o)) ∧
  ∀ (c : ModeCycles) (o : ReadOperand) (s : State), s.PlainBus →
    c = { zp := 3, zpx := 4, zpy := 4, abs := 4, absx := 4, absy := 4, indx := 6, indy := 5 } →
    Completes (.ora o) s (ReadOperand.cycles c o s)
      { s.unchanged with A := s.A ||| ReadOperand.value o s, P := s.statusNZ (s.A ||| ReadOperand.value o s) } ∧
    Completes (.and o) s (ReadOperand.cycles c o s)
      { s.unchanged with A := s.A &&& ReadOperand.value o s, P := s.statusNZ (s.A &&& ReadOperand.value o s) } ∧
    Completes (.eor o) s (ReadOperand.cycles c o s)
      { s.unchanged with A := s.A ^^^ ReadOperand.value o s, P := s.statusNZ (s.A ^^^ ReadOperand.value o s) }

/-- R203: BIT takes N and V from bits 7 and 6 of M and Z from `M & A`; A stays. 0x89 is no BIT but a NOP alias. -/
def Obligations.BitTestResult : Prop :=
  (DecodesMem .bit { zp := some 0x24, abs := some 0x2C } ∧
    (∀ v, decode [0x89, v] = .ok (.nopAlias (.imm 2 v), [])) ∧ ∀ m, NeverRefused (.bit m)) ∧
  ∀ (c : ModeCycles) (m : AddrMode) (s : State), s.PlainBus →
    c = { zp := 3, zpx := 4, zpy := 4, abs := 4, absx := 4, absy := 4, indx := 6, indy := 5 } →
    Completes (.bit m) s (c.read m s) { s.unchanged with
      P := statusWith s.P ((AddrMode.byte m s).getLsbD 7) ((AddrMode.byte m s).getLsbD 6) s.flagD s.flagI
        (decide (AddrMode.byte m s &&& s.A = 0)) s.flagC }

/-- R214, R215, R216: ADC and SBC, binary and decimal. -/
def Obligations.AddSubtractResults : Prop :=
  (DecodesRead .adc { imm := some 0x69, zp := some 0x65, zpx := some 0x75, abs := some 0x6D, absx := some 0x7D, absy := some 0x79, indx := some 0x61, indy := some 0x71 } ∧
    ∀ o, NeverRefused (.adc o)) ∧
  (DecodesRead .sbc { imm := some 0xE9, zp := some 0xE5, zpx := some 0xF5, abs := some 0xED, absx := some 0xFD, absy := some 0xF9, indx := some 0xE1, indy := some 0xF1 } ∧
    ∀ o, NeverRefused (.sbc o)) ∧
  ∀ (c : ModeCycles) (o : ReadOperand) (s : State), s.PlainBus →
    c = { zp := 3, zpx := 4, zpy := 4, abs := 4, absx := 4, absy := 4, indx := 6, indy := 5 } →
    CompletesAddition (.adc o) s (ReadOperand.cycles c o s)
      (adcBin s.A (ReadOperand.value o s) s.flagC) (bcdAdd s.A (ReadOperand.value o s) s.flagC) [] ∧
    CompletesAddition (.sbc o) s (ReadOperand.cycles c o s)
      (sbcBin s.A (ReadOperand.value o s) s.flagC) (bcdSub s.A (ReadOperand.value o s) s.flagC) []

/-- R217 to R220: the compares; C is the unsigned comparison, V and D stay, and D has no effect (D33, the spec's own choice;
log 19). -/
def Obligations.CompareResults : Prop :=
  (DecodesRead .cmp { imm := some 0xC9, zp := some 0xC5, zpx := some 0xD5, abs := some 0xCD, absx := some 0xDD, absy := some 0xD9, indx := some 0xC1, indy := some 0xD1 } ∧
    ∀ o, NeverRefused (.cmp o)) ∧
  (DecodesRead .cpx { imm := some 0xE0, zp := some 0xE4, abs := some 0xEC } ∧
    ∀ o, NeverRefused (.cpx o)) ∧
  (DecodesRead .cpy { imm := some 0xC0, zp := some 0xC4, abs := some 0xCC } ∧
    ∀ o, NeverRefused (.cpy o)) ∧
  ∀ (c : ModeCycles) (o : ReadOperand) (s : State), s.PlainBus →
    c = { zp := 3, zpx := 4, zpy := 4, abs := 4, absx := 4, absy := 4, indx := 6, indy := 5 } →
    ∀ p ∈ [(Instr.cmp o, s.A), (.cpx o, s.X), (.cpy o, s.Y)],
      Completes p.1 s (ReadOperand.cycles c o s) { s.unchanged with
        P := s.statusNZC (p.2 - ReadOperand.value o s) (decide (ReadOperand.value o s ≤ p.2)) }

/-- R230 to R233: the shifts and rotates of A, in 2 cycles and with no bus access, and of a byte of memory. -/
def Obligations.ShiftResults : Prop :=
  (DecodesShift .asl { acc := some 0x0A, zp := some 0x06, zpx := some 0x16, abs := some 0x0E, absx := some 0x1E } ∧
    ∀ o, NeverRefused (.asl o)) ∧
  (DecodesShift .lsr { acc := some 0x4A, zp := some 0x46, zpx := some 0x56, abs := some 0x4E, absx := some 0x5E } ∧
    ∀ o, NeverRefused (.lsr o)) ∧
  (DecodesShift .rol { acc := some 0x2A, zp := some 0x26, zpx := some 0x36, abs := some 0x2E, absx := some 0x3E } ∧
    ∀ o, NeverRefused (.rol o)) ∧
  (DecodesShift .ror { acc := some 0x6A, zp := some 0x66, zpx := some 0x76, abs := some 0x6E, absx := some 0x7E } ∧
    ∀ o, NeverRefused (.ror o)) ∧
  (∀ s : State,
    ∀ p ∈ [(Instr.asl .acc, s.A <<< 1, s.A.getLsbD 7),
        (.lsr .acc, s.A >>> 1, s.A.getLsbD 0),
        (.rol .acc, s.A <<< 1 ||| (if s.flagC then 0x01 else 0x00), s.A.getLsbD 7),
        (.ror .acc, s.A >>> 1 ||| (if s.flagC then 0x80 else 0x00), s.A.getLsbD 0)],
      Completes p.1 s 2 { s.unchanged with A := p.2.1, P := s.statusNZC p.2.1 p.2.2 }) ∧
  (∀ (c : ModeCycles) (m : AddrMode) (s : State), s.PlainBus →
    c = { zp := 5, zpx := 6, zpy := 6, abs := 6, absx := 7, absy := 7, indx := 8, indy := 8 } →
    ∀ p ∈ [(Instr.asl (.mem m), AddrMode.byte m s <<< 1, (AddrMode.byte m s).getLsbD 7),
        (.lsr (.mem m), AddrMode.byte m s >>> 1, (AddrMode.byte m s).getLsbD 0),
        (.rol (.mem m), AddrMode.byte m s <<< 1 ||| (if s.flagC then 0x01 else 0x00), (AddrMode.byte m s).getLsbD 7),
        (.ror (.mem m), AddrMode.byte m s >>> 1 ||| (if s.flagC then 0x80 else 0x00), (AddrMode.byte m s).getLsbD 0)],
      Completes p.1 s (c.base m) { s.unchanged with
        P := s.statusNZC p.2.1 p.2.2, stored := [(AddrMode.address m s, p.2.1)] })

/-- R256, R257: INC and DEC wrap and set N and Z. -/
def Obligations.MemoryIncDecResults : Prop :=
  (DecodesMem .inc { zp := some 0xE6, zpx := some 0xF6, abs := some 0xEE, absx := some 0xFE } ∧
    ∀ m, NeverRefused (.inc m)) ∧
  (DecodesMem .dec { zp := some 0xC6, zpx := some 0xD6, abs := some 0xCE, absx := some 0xDE } ∧
    ∀ m, NeverRefused (.dec m)) ∧
  ∀ (c : ModeCycles) (m : AddrMode) (s : State), s.PlainBus →
    c = { zp := 5, zpx := 6, zpy := 6, abs := 6, absx := 7, absy := 7, indx := 8, indy := 8 } →
    ∀ p ∈ [(Instr.inc m, AddrMode.byte m s + 1), (.dec m, AddrMode.byte m s - 1)],
      Completes p.1 s (c.base m) { s.unchanged with
        P := s.statusNZ p.2, stored := [(AddrMode.address m s, p.2)] }

/-- R240, R241, R242: the loads. -/
def Obligations.LoadResults : Prop :=
  (DecodesRead .lda { imm := some 0xA9, zp := some 0xA5, zpx := some 0xB5, abs := some 0xAD, absx := some 0xBD, absy := some 0xB9, indx := some 0xA1, indy := some 0xB1 } ∧
    ∀ o, NeverRefused (.lda o)) ∧
  (DecodesRead .ldx { imm := some 0xA2, zp := some 0xA6, zpy := some 0xB6, abs := some 0xAE, absy := some 0xBE } ∧
    ∀ o, NeverRefused (.ldx o)) ∧
  (DecodesRead .ldy { imm := some 0xA0, zp := some 0xA4, zpx := some 0xB4, abs := some 0xAC, absx := some 0xBC } ∧
    ∀ o, NeverRefused (.ldy o)) ∧
  ∀ (c : ModeCycles) (o : ReadOperand) (s : State), s.PlainBus →
    c = { zp := 3, zpx := 4, zpy := 4, abs := 4, absx := 4, absy := 4, indx := 6, indy := 5 } →
    Completes (.lda o) s (ReadOperand.cycles c o s)
      { s.unchanged with A := ReadOperand.value o s, P := s.statusNZ (ReadOperand.value o s) } ∧
    Completes (.ldx o) s (ReadOperand.cycles c o s)
      { s.unchanged with X := ReadOperand.value o s, P := s.statusNZ (ReadOperand.value o s) } ∧
    Completes (.ldy o) s (ReadOperand.cycles c o s)
      { s.unchanged with Y := ReadOperand.value o s, P := s.statusNZ (ReadOperand.value o s) }

/-- R243, R244, R245: the stores; no flag changes and the cost does not depend on a page crossing. 0x89 is no store. -/
def Obligations.StoreResults : Prop :=
  (DecodesMem .sta { zp := some 0x85, zpx := some 0x95, abs := some 0x8D, absx := some 0x9D, absy := some 0x99, indx := some 0x81, indy := some 0x91 } ∧
    (∀ v, decode [0x89, v] = .ok (.nopAlias (.imm 2 v), [])) ∧ ∀ m, NeverRefused (.sta m)) ∧
  (DecodesMem .stx { zp := some 0x86, zpy := some 0x96, abs := some 0x8E } ∧
    ∀ m, NeverRefused (.stx m)) ∧
  (DecodesMem .sty { zp := some 0x84, zpx := some 0x94, abs := some 0x8C } ∧
    ∀ m, NeverRefused (.sty m)) ∧
  ∀ (c : ModeCycles) (m : AddrMode) (s : State), s.PlainBus →
    c = { zp := 3, zpx := 4, zpy := 4, abs := 4, absx := 5, absy := 5, indx := 6, indy := 6 } →
    ∀ p ∈ [(Instr.sta m, s.A), (.stx m, s.X), (.sty m, s.Y)],
      Completes p.1 s (c.base m) { s.unchanged with stored := [(AddrMode.address m s, p.2)] }

/-- R250 to R255: the opcodes of the transfers and their effect; TXS alone sets no flag. -/
def Obligations.TransferResults : Prop :=
  (decode [0xAA] = .ok (.tax, []) ∧ decode [0xA8] = .ok (.tay, []) ∧ decode [0x8A] = .ok (.txa, []) ∧
    decode [0x98] = .ok (.tya, []) ∧ decode [0xBA] = .ok (.tsx, []) ∧ decode [0x9A] = .ok (.txs, [])) ∧
  ∀ s : State,
    Completes .tax s 2 { s.unchanged with X := s.A, P := s.statusNZ s.A } ∧
    Completes .tay s 2 { s.unchanged with Y := s.A, P := s.statusNZ s.A } ∧
    Completes .txa s 2 { s.unchanged with A := s.X, P := s.statusNZ s.X } ∧
    Completes .tya s 2 { s.unchanged with A := s.Y, P := s.statusNZ s.Y } ∧
    Completes .tsx s 2 { s.unchanged with X := s.S, P := s.statusNZ s.S } ∧
    Completes .txs s 2 { s.unchanged with S := s.X }

/-- R258 to R261: the opcodes of the register increments and decrements and their effect. -/
def Obligations.RegisterIncDecResults : Prop :=
  (decode [0xE8] = .ok (.inx, []) ∧ decode [0xC8] = .ok (.iny, []) ∧ decode [0xCA] = .ok (.dex, []) ∧
    decode [0x88] = .ok (.dey, [])) ∧
  ∀ s : State,
    Completes .inx s 2 { s.unchanged with X := s.X + 1, P := s.statusNZ (s.X + 1) } ∧
    Completes .iny s 2 { s.unchanged with Y := s.Y + 1, P := s.statusNZ (s.Y + 1) } ∧
    Completes .dex s 2 { s.unchanged with X := s.X - 1, P := s.statusNZ (s.X - 1) } ∧
    Completes .dey s 2 { s.unchanged with Y := s.Y - 1, P := s.statusNZ (s.Y - 1) }

/-- R270 to R273: the opcodes of the stack instructions and their effect; the stack stays in page $01 and S wraps. -/
def Obligations.StackResults : Prop :=
  (decode [0x48] = .ok (.pha, []) ∧ decode [0x08] = .ok (.php, []) ∧ decode [0x68] = .ok (.pla, []) ∧
    decode [0x28] = .ok (.plp, [])) ∧
  (∀ i ∈ [Instr.pha, .php, .pla, .plp], NeverRefused i) ∧
  ∀ s : State, s.PlainBus →
    Completes .pha s 3 { s.unchanged with S := s.S - 1, stored := [(0x0100 ||| s.S.setWidth 16, s.A)] } ∧
    Completes .php s 3 { s.unchanged with S := s.S - 1, stored := [(0x0100 ||| s.S.setWidth 16, s.P ||| 0x30)] } ∧
    Completes .pla s 4 { s.unchanged with
      S := s.S + 1
      A := s.peek (0x0100 ||| (s.S + 1).setWidth 16)
      P := s.statusNZ (s.peek (0x0100 ||| (s.S + 1).setWidth 16)) } ∧
    Completes .plp s 4 { s.unchanged with
      S := s.S + 1, P := s.peek (0x0100 ||| (s.S + 1).setWidth 16) &&& 0xCF }

/-- R280, R83: JMP absolute, and JMP indirect with the pointer's high byte from the page of its low byte. -/
def Obligations.JumpResults : Prop :=
  (∀ a : Word, decode (0x4C :: wordBytes a) = .ok (.jmp (.abs a), []) ∧
    decode (0x6C :: wordBytes a) = .ok (.jmp (.ind a), [])) ∧
  (∀ j, NeverRefused (.jmp j)) ∧
  ∀ (a : Word) (s : State),
    Completes (.jmp (.abs a)) s 3 { s.unchanged with PC := a } ∧
    (s.PlainBus → Completes (.jmp (.ind a)) s 5 { s.unchanged with
      PC := wordOf (s.peek (wordOf (highByte a) (lowByte a + 1))) (s.peek a) })

/-- R281, R282: JSR pushes the address of its last byte, high byte first (D20, the spec's own choice); RTS pulls it and
adds one. -/
def Obligations.SubroutineResults : Prop :=
  (∀ a : Word, decode (0x20 :: wordBytes a) = .ok (.jsr a, [])) ∧ decode [0x60] = .ok (.rts, []) ∧
  ∀ (a : Word) (s : State), s.PlainBus →
    Completes (.jsr a) s 6 { s.unchanged with
      PC := a, S := s.S - 2
      stored := [(stackAddress (s.S - 1), lowByte (s.PC - 1)), (stackAddress s.S, highByte (s.PC - 1))] } ∧
    Completes .rts s 6 { s.unchanged with
      PC := wordOf (s.peek (stackAddress (s.S + 2))) (s.peek (stackAddress (s.S + 1))) + 1, S := s.S + 2 }

/-- R283: RTI pulls P with U and B cleared, then PC, with no +1. -/
def Obligations.ReturnFromInterruptResult : Prop :=
  decode [0x40] = .ok (.rti, []) ∧ NeverRefused .rti ∧
  ∀ s : State, s.PlainBus → Completes .rti s 6 { s.unchanged with
    P := s.peek (stackAddress (s.S + 1)) &&& 0xCF
    PC := wordOf (s.peek (stackAddress (s.S + 3))) (s.peek (stackAddress (s.S + 2)))
    S := s.S + 3 }

/-- R284: BRK skips a byte, pushes PC and P with U and B set, sets I, and loads PC from $FFFE/$FFFF, whatever I was. The
push order (D28) and that D stays (D15) are the spec's own choices. -/
def Obligations.BreakResult : Prop :=
  decode [0x00] = .ok (.brk, []) ∧
  ∀ s : State, s.PlainBus → ∃ t, exec .brk s = .next t ∧
    t.report = { cycles := 7, outcome := .ok } ∧ t.cycles = 7 ∧ s.Leaves t { s.unchanged with
      S := s.S - 3
      P := statusWith s.P s.flagN s.flagV s.flagD true s.flagZ s.flagC
      PC := wordOf (t.peek 0xFFFF) (t.peek 0xFFFE)
      stored := [(stackAddress (s.S - 2), s.P ||| 0x30), (stackAddress (s.S - 1), lowByte (s.PC + 1)),
        (stackAddress s.S, highByte (s.PC + 1))] }

/-- R285 to R293: each branch's opcode and condition; a taken branch adds the signed displacement and costs 3 cycles on
the page of the next instruction, 4 on another, a branch not taken 2. -/
def Obligations.BranchResults : Prop :=
  (∀ d : Byte, decode [0x10, d] = .ok (.bpl d, []) ∧ decode [0x30, d] = .ok (.bmi d, []) ∧
    decode [0x50, d] = .ok (.bvc d, []) ∧ decode [0x70, d] = .ok (.bvs d, []) ∧
    decode [0x90, d] = .ok (.bcc d, []) ∧ decode [0xB0, d] = .ok (.bcs d, []) ∧
    decode [0xD0, d] = .ok (.bne d, []) ∧ decode [0xF0, d] = .ok (.beq d, [])) ∧
  ∀ (d : Byte) (s : State),
    ∀ p ∈ [(Instr.bpl d, !s.flagN), (.bmi d, s.flagN), (.bvc d, !s.flagV), (.bvs d, s.flagV),
        (.bcc d, !s.flagC), (.bcs d, s.flagC), (.bne d, !s.flagZ), (.beq d, s.flagZ)],
      (p.2 = false → Completes p.1 s 2 s.unchanged) ∧
      (p.2 = true → ∀ target : Word, (target.toNat : Int) = (s.PC.toNat + d.toInt) % 65536 →
        Completes p.1 s (if target.toNat / 256 = s.PC.toNat / 256 then 3 else 4) { s.unchanged with PC := target })

/-- R300 to R306: each flag instruction's opcode, and the one flag it writes. -/
def Obligations.FlagResults : Prop :=
  (decode [0x18] = .ok (.clc, []) ∧ decode [0x38] = .ok (.sec, []) ∧ decode [0x58] = .ok (.cli, []) ∧
    decode [0x78] = .ok (.sei, []) ∧ decode [0xB8] = .ok (.clv, []) ∧ decode [0xD8] = .ok (.cld, []) ∧
    decode [0xF8] = .ok (.sed, [])) ∧
  ∀ s : State,
    Completes .clc s 2 { s.unchanged with P := statusWith s.P s.flagN s.flagV s.flagD s.flagI s.flagZ false } ∧
    Completes .sec s 2 { s.unchanged with P := statusWith s.P s.flagN s.flagV s.flagD s.flagI s.flagZ true } ∧
    Completes .cli s 2 { s.unchanged with P := statusWith s.P s.flagN s.flagV s.flagD false s.flagZ s.flagC } ∧
    Completes .sei s 2 { s.unchanged with P := statusWith s.P s.flagN s.flagV s.flagD true s.flagZ s.flagC } ∧
    Completes .clv s 2 { s.unchanged with P := statusWith s.P s.flagN false s.flagD s.flagI s.flagZ s.flagC } ∧
    Completes .cld s 2 { s.unchanged with P := statusWith s.P s.flagN s.flagV false s.flagI s.flagZ s.flagC } ∧
    Completes .sed s 2 { s.unchanged with P := statusWith s.P s.flagN s.flagV true s.flagI s.flagZ s.flagC }

/-- R310, R311: NOP, and the NOP aliases where the profile admits them: nothing but the cycles changes. The table of
R311, row by row: the opcodes of a form, and their cost. -/
def Obligations.NopResults : Prop :=
  decode [0xEA] = .ok (.nop, []) ∧ (∀ s : State, Completes .nop s 2 s.unchanged) ∧
  (∀ op ∈ ([0x1A, 0x3A, 0x5A, 0x7A, 0xDA, 0xFA] : List Byte), ∃ k, decode [op] = .ok (.nopAlias (.imp k), [])) ∧
  (∀ op ∈ ([0x80, 0x82, 0x89, 0xC2, 0xE2] : List Byte), ∃ k, ∀ v,
    decode [op, v] = .ok (.nopAlias (.imm k v), [])) ∧
  (∀ op ∈ ([0x04, 0x44, 0x64] : List Byte), ∃ k, ∀ a, decode [op, a] = .ok (.nopAlias (.zp k a), [])) ∧
  (∀ op ∈ ([0x14, 0x34, 0x54, 0x74, 0xD4, 0xF4] : List Byte), ∃ k, ∀ a,
    decode [op, a] = .ok (.nopAlias (.zpx k a), [])) ∧
  (∀ a, decode (0x0C :: wordBytes a) = .ok (.nopAlias (.abs a), [])) ∧
  (∀ op ∈ ([0x1C, 0x3C, 0x5C, 0x7C, 0xDC, 0xFC] : List Byte), ∃ k, ∀ a,
    decode (op :: wordBytes a) = .ok (.nopAlias (.absx k a), [])) ∧
  ∀ s : State, s.params.undocProfile ≠ .refuse →
    (∀ k, Completes (.nopAlias (.imp k)) s 2 s.unchanged) ∧
    (∀ k v, Completes (.nopAlias (.imm k v)) s 2 s.unchanged) ∧
    (s.PlainBus →
      (∀ k a, Completes (.nopAlias (.zp k a)) s 3 s.unchanged) ∧
      (∀ k a, Completes (.nopAlias (.zpx k a)) s 4 s.unchanged) ∧
      (∀ a, Completes (.nopAlias (.abs a)) s 4 s.unchanged) ∧
      (∀ k a, Completes (.nopAlias (.absx k a)) s
        (if AddrMode.crossesPage (.absx a) s then 5 else 4) s.unchanged))

/-- R320, R123: a halt opcode sets the latch and the Step returns (0, Halted); no other register and no byte of memory
changes, which is the spec's own choice (D7). -/
def Obligations.HaltResult : Prop :=
  (∀ op ∈ ([0x02, 0x12, 0x22, 0x32, 0x42, 0x52, 0x62, 0x72, 0x92, 0xB2, 0xD2, 0xF2] : List Byte),
    ∃ k, decode [op] = .ok (.hlt k, [])) ∧
  ∀ (k : Fin 12) (s : State), ∃ t, exec (.hlt k) s = .next t ∧ t.halted = true ∧
    t.report = { cycles := 0, outcome := .halted } ∧ s.Leaves { t with halted := s.halted } s.unchanged

/-- R321, R402: a Step at an invalid opcode, whose fetch did not abort, answers a next state in every profile: it returns
InvalidOpcode with the address and the opcode and some cycle count, PC is past the opcode, the core stays running, and no
other register and no byte of memory changes (D9, the spec's own choice). -/
def Obligations.InvalidOpcodeResult : Prop :=
  (∀ (s : State) (op : Byte), op = 0x9C ∨ op = 0x9E → s.halted = false → s.PlainBus → s.peek s.PC = op →
    ∃ t n, step s = .next t ∧ t.report = { cycles := n, outcome := .invalidOpcode s.PC op } ∧
      s.Leaves t { s.unchanged with PC := s.PC + 1 }) ∧
  ∀ (k : Fin 2) (s : State), ∃ t n, exec (.invalid k) s = .next t ∧
    t.report = { cycles := n, outcome := .invalidOpcode (s.PC - 1) (if k = 0 then 0x9C else 0x9E) } ∧
    s.Leaves t s.unchanged

/-! Undocumented combined opcodes (49), admitted by `UNDOC_PROFILE = nmos`. -/

/-- R331, R332, R333, R337: SLO, RLA, SRE and DCP. -/
def Obligations.CombinedModifyResults : Prop :=
  DecodesMem .slo { zp := some 0x07, zpx := some 0x17, abs := some 0x0F, absx := some 0x1F, absy := some 0x1B, indx := some 0x03, indy := some 0x13 } ∧
  DecodesMem .rla { zp := some 0x27, zpx := some 0x37, abs := some 0x2F, absx := some 0x3F, absy := some 0x3B, indx := some 0x23, indy := some 0x33 } ∧
  DecodesMem .sre { zp := some 0x47, zpx := some 0x57, abs := some 0x4F, absx := some 0x5F, absy := some 0x5B, indx := some 0x43, indy := some 0x53 } ∧
  DecodesMem .dcp { zp := some 0xC7, zpx := some 0xD7, abs := some 0xCF, absx := some 0xDF, absy := some 0xDB, indx := some 0xC3, indy := some 0xD3 } ∧
  ∀ (c : ModeCycles) (m : AddrMode) (s : State), s.params.undocProfile = .nmos → s.PlainBus →
    c = { zp := 5, zpx := 6, zpy := 6, abs := 6, absx := 7, absy := 7, indx := 8, indy := 8 } →
    ∀ v r : Byte, v = AddrMode.byte m s →
      (r = v <<< 1 → Completes (.slo m) s (c.base m) { s.unchanged with
        A := s.A ||| r, P := s.statusNZC (s.A ||| r) (v.getLsbD 7), stored := [(AddrMode.address m s, r)] }) ∧
      (r = v <<< 1 ||| (if s.flagC then 0x01 else 0x00) → Completes (.rla m) s (c.base m) { s.unchanged with
        A := s.A &&& r, P := s.statusNZC (s.A &&& r) (v.getLsbD 7), stored := [(AddrMode.address m s, r)] }) ∧
      (r = v >>> 1 → Completes (.sre m) s (c.base m) { s.unchanged with
        A := s.A ^^^ r, P := s.statusNZC (s.A ^^^ r) (v.getLsbD 0), stored := [(AddrMode.address m s, r)] }) ∧
      (r = v - 1 → Completes (.dcp m) s (c.base m) { s.unchanged with
        P := s.statusNZC (s.A - r) (decide (r ≤ s.A)), stored := [(AddrMode.address m s, r)] })

/-- R334, R338: RRA adds the rotated byte with the carry the rotate produced, ISC subtracts the incremented byte; decimal
mode included. -/
def Obligations.CombinedAddResults : Prop :=
  DecodesMem .rra { zp := some 0x67, zpx := some 0x77, abs := some 0x6F, absx := some 0x7F, absy := some 0x7B, indx := some 0x63, indy := some 0x73 } ∧
  DecodesMem .isc { zp := some 0xE7, zpx := some 0xF7, abs := some 0xEF, absx := some 0xFF, absy := some 0xFB, indx := some 0xE3, indy := some 0xF3 } ∧
  ∀ (c : ModeCycles) (m : AddrMode) (s : State), s.params.undocProfile = .nmos → s.PlainBus →
    c = { zp := 5, zpx := 6, zpy := 6, abs := 6, absx := 7, absy := 7, indx := 8, indy := 8 } →
    ∀ v r : Byte, v = AddrMode.byte m s →
      (r = v >>> 1 ||| (if s.flagC then 0x80 else 0x00) →
        CompletesAddition (.rra m) s (c.base m) (adcBin s.A r (v.getLsbD 0)) (bcdAdd s.A r (v.getLsbD 0))
          [(AddrMode.address m s, r)]) ∧
      (r = v + 1 →
        CompletesAddition (.isc m) s (c.base m) (sbcBin s.A r s.flagC) (bcdSub s.A r s.flagC)
          [(AddrMode.address m s, r)])

/-- R335, R336, R346: SAX, LAX and LAS. -/
def Obligations.CombinedLoadStoreResults : Prop :=
  DecodesMem .sax { zp := some 0x87, zpy := some 0x97, abs := some 0x8F, indx := some 0x83 } ∧
  DecodesMem .lax { zp := some 0xA7, zpy := some 0xB7, abs := some 0xAF, absy := some 0xBF, indx := some 0xA3, indy := some 0xB3 } ∧
  (∀ a : Word, decode (0xBB :: wordBytes a) = .ok (.las a, [])) ∧
  ∀ (r w : ModeCycles) (m : AddrMode) (a : Word) (s : State), s.params.undocProfile = .nmos → s.PlainBus →
    r = { zp := 3, zpx := 4, zpy := 4, abs := 4, absx := 4, absy := 4, indx := 6, indy := 5 } →
    w = { zp := 3, zpx := 4, zpy := 4, abs := 4, absx := 5, absy := 5, indx := 6, indy := 6 } →
    Completes (.sax m) s (w.base m)
      { s.unchanged with stored := [(AddrMode.address m s, s.A &&& s.X)] } ∧
    Completes (.lax m) s (r.read m s)
      { s.unchanged with A := AddrMode.byte m s, X := AddrMode.byte m s, P := s.statusNZ (AddrMode.byte m s) } ∧
    ∀ v : Byte, v = AddrMode.byte (.absy a) s &&& s.S →
      Completes (.las a) s (if AddrMode.crossesPage (.absy a) s then 5 else 4)
        { s.unchanged with A := v, X := v, S := v, P := s.statusNZ v }

/-- R339, R340, R341, R344, R345: ANC, ALR, ARR, SBX and USBC, in 2 cycles and with no bus access. ARR with D = 1 is
refused (D30). -/
def Obligations.CombinedImmediateResults : Prop :=
  (∀ v : Byte, decode [0x0B, v] = .ok (.anc 0 v, []) ∧ decode [0x2B, v] = .ok (.anc 1 v, []) ∧
    decode [0x4B, v] = .ok (.alr v, []) ∧ decode [0x6B, v] = .ok (.arr v, []) ∧
    decode [0xCB, v] = .ok (.sbx v, []) ∧ decode [0xEB, v] = .ok (.usbc v, [])) ∧
  ∀ (v : Byte) (s : State), s.params.undocProfile = .nmos →
    (∀ k, Completes (.anc k v) s 2 { s.unchanged with
      A := s.A &&& v, P := s.statusNZC (s.A &&& v) ((s.A &&& v).getLsbD 7) }) ∧
    Completes (.alr v) s 2 { s.unchanged with
      A := (s.A &&& v) >>> 1, P := s.statusNZC ((s.A &&& v) >>> 1) ((s.A &&& v).getLsbD 0) } ∧
    (s.flagD = false → ∀ r : Byte, r = (s.A &&& v) >>> 1 ||| (if s.flagC then 0x80 else 0x00) →
      Completes (.arr v) s 2 { s.unchanged with
        A := r
        P := statusWith s.P (r.getLsbD 7) (r.getLsbD 6 != r.getLsbD 5) false s.flagI (decide (r = 0)) (r.getLsbD 6) }) ∧
    (s.flagD = true → exec (.arr v) s = .refused .arrDecimal) ∧
    Completes (.sbx v) s 2 { s.unchanged with
      X := (s.A &&& s.X) - v, P := s.statusNZC ((s.A &&& s.X) - v) (decide (v ≤ s.A &&& s.X)) } ∧
    CompletesAddition (.usbc v) s 2 (sbcBin s.A v s.flagC) (bcdSub s.A v s.flagC) []

/-- R342, R343: ANE and LXA, with a constant that is a draw; nothing is said of its value, and the next draw is another. -/
def Obligations.MagicConstantResults : Prop :=
  (∀ v : Byte, decode [0x8B, v] = .ok (.ane v, []) ∧ decode [0xAB, v] = .ok (.lxa v, [])) ∧
  ∀ (v : Byte) (s : State), s.params.undocProfile = .nmos →
    (∃ magic : Byte, ∀ r, r = (s.A ||| magic) &&& s.X &&& v →
      Completes (.ane v) s 2 { s.unchanged with A := r, P := s.statusNZ r }) ∧
    (∃ magic : Byte, ∀ r, r = (s.A ||| magic) &&& v →
      Completes (.lxa v) s 2 { s.unchanged with A := r, X := r, P := s.statusNZ r }) ∧
    (∀ t, exec (.ane v) s = .next t ∨ exec (.lxa v) s = .next t → t.draws = s.draws + 1)

/-- R347, R348: TAS and SHA store `A & X & (H + 1)` when the indexed address stays in the page of the base address, and
are refused when it does not (D31). -/
def Obligations.HighByteStoreResults : Prop :=
  (∀ a : Word, decode (0x9B :: wordBytes a) = .ok (.tas a, [])) ∧
  DecodesMem .sha { absy := some 0x9F, indy := some 0x93 } ∧
  ∀ (c : ModeCycles) (s : State), s.params.undocProfile = .nmos → s.PlainBus →
    c = { zp := 3, zpx := 4, zpy := 4, abs := 4, absx := 5, absy := 5, indx := 6, indy := 6 } →
    (∀ (a : Word) (v : Byte), v = s.A &&& s.X &&& (highByte a + 1) →
      (AddrMode.crossesPage (.absy a) s = false → Completes (.tas a) s 5 { s.unchanged with
        S := s.A &&& s.X, stored := [(a + zeroExtend16 s.Y, v)] }) ∧
      (AddrMode.crossesPage (.absy a) s = true → exec (.tas a) s = .refused .tasPageCross)) ∧
    (∀ (m : AddrMode) (v : Byte), v = s.A &&& s.X &&& (highByte (AddrMode.baseAddress m s) + 1) →
      (AddrMode.crossesPage m s = false → Completes (.sha m) s (c.base m) { s.unchanged with
        stored := [(AddrMode.address m s, v)] }) ∧
      (AddrMode.crossesPage m s = true → exec (.sha m) s = .refused .shaPageCross))

/-! Frames: what an instruction leaves unchanged whenever it answers a next state, on any bus. -/

/-- R21 to R24, R26, R531: a register changes only if the instruction is among those that write it; PC stays at the next
instruction unless the instruction loads a target. -/
def Obligations.RegisterFrame : Prop :=
  ∀ (i : Instr) (s t : State), exec i s = .next t →
    (i.writesA = false → t.A = s.A) ∧ (i.writesX = false → t.X = s.X) ∧ (i.writesY = false → t.Y = s.Y) ∧
    (i.writesS = false → t.S = s.S) ∧ (i.writesPC = false → t.PC = s.PC)

/-- R27: every bit of P stays as it is, but for the flags the instruction's rule names. -/
def Obligations.FlagFrame : Prop :=
  ∀ (i : Instr) (s t : State), exec i s = .next t →
    ∀ k, k ∉ i.flagsWritten → t.P.getLsbD k = s.P.getLsbD k

/-- R33, R52, R9: no instruction changes the bus's abort regions or the parameters, and only HLT writes the halt latch. -/
def Obligations.PlatformFrame : Prop :=
  ∀ (i : Instr) (s t : State), exec i s = .next t →
    t.aborts = s.aborts ∧ t.params = s.params ∧ ((∀ k, i ≠ .hlt k) → t.halted = s.halted)

/-- R85: an instruction that neither stores by its mode nor pushes leaves every byte of memory as it was. -/
def Obligations.NoStoreFrame : Prop :=
  ∀ (i : Instr) (s t : State), i.storesByMode = none → i.pushes = 0 → exec i s = .next t →
    ∀ a, t.peek a = s.peek a

/-- R85: an instruction of class write or rmw stores to its effective address and nowhere else. -/
def Obligations.StoreFrame : Prop :=
  ∀ (i : Instr) (m : AddrMode) (s s1 t : State) (ea : EffectiveAddress), i.storesByMode = some m →
    effectiveAddress m s = .next (ea, s1) → exec i s = .next t →
    ∀ a, a ≠ ea.addr → t.peek a = s.peek a

/-- R84: a push stores to the bytes of page $01 under the stack pointer and nowhere else. -/
def Obligations.StackFrame : Prop :=
  ∀ (i : Instr) (s t : State), exec i s = .next t →
    ∀ a, (i.pushes ≥ 1 → a ≠ stackAddress s.S) → (i.pushes ≥ 2 → a ≠ stackAddress (s.S - 1)) →
      (i.pushes ≥ 3 → a ≠ stackAddress (s.S - 2)) → i.pushes ≠ 0 → t.peek a = s.peek a

/-- R38: SetPC changes PC alone (D26, the spec's own choice), and GetPCL and GetPCH give its halves back. -/
def Obligations.SetPcThenGetPc : Prop :=
  ∀ (lo hi : Byte) (s : State),
    hostSetPC lo hi s = { s with PC := (hostSetPC lo hi s).PC } ∧
    (hostSetPC lo hi s).PC.toNat = hi.toNat * 256 + lo.toNat ∧
    hostGetPCL (hostSetPC lo hi s) = lo ∧ hostGetPCH (hostSetPC lo hi s) = hi

/-- R404, R440: no documented instruction, HLT or invalid opcode is ever refused, in any state, since nothing is privileged
(D17, the spec's own choice); the only fault is the bus's. -/
def Obligations.OnlyTheBusStopsDocumented : Prop :=
  ∀ (i : Instr) (s : State), i.rowProfile ≠ .undocNop → i.rowProfile ≠ .undocNmos →
    NeverRefused i ∧ (s.PlainBus → ∃ t, exec i s = .next t)
end

