-- ==== Sys2Proof/Laws/State.lean ====
section
/-! SUPPORT. One lemma for each field and each update of the state, so that no proof unfolds a record update. -/

namespace Sys2Proof.Machine

/-- A state after bus accesses that wrote nothing: the counter, the record of accesses and the draws have moved. -/
def State.quiet (s : State) (c : Nat) (tr : List BusAccess) (d : Nat) : State :=
  { s with cycles := c, trace := tr, draws := d }

@[simp] theorem State.setN_A (s : State) (b : Bool) : (s.setN b).A = s.A := rfl
@[simp] theorem State.setN_X (s : State) (b : Bool) : (s.setN b).X = s.X := rfl
@[simp] theorem State.setN_Y (s : State) (b : Bool) : (s.setN b).Y = s.Y := rfl
@[simp] theorem State.setN_S (s : State) (b : Bool) : (s.setN b).S = s.S := rfl
@[simp] theorem State.setN_PC (s : State) (b : Bool) : (s.setN b).PC = s.PC := rfl
@[simp] theorem State.setN_P (s : State) (b : Bool) : (s.setN b).P = setBit s.P 7 b := rfl
@[simp] theorem State.setN_halted (s : State) (b : Bool) : (s.setN b).halted = s.halted := rfl
@[simp] theorem State.setN_cycles (s : State) (b : Bool) : (s.setN b).cycles = s.cycles := rfl
@[simp] theorem State.setN_mem (s : State) (b : Bool) : (s.setN b).mem = s.mem := rfl
@[simp] theorem State.setN_aborts (s : State) (b : Bool) : (s.setN b).aborts = s.aborts := rfl
@[simp] theorem State.setN_params (s : State) (b : Bool) : (s.setN b).params = s.params := rfl
@[simp] theorem State.setN_report (s : State) (b : Bool) : (s.setN b).report = s.report := rfl
@[simp] theorem State.setN_trace (s : State) (b : Bool) : (s.setN b).trace = s.trace := rfl
@[simp] theorem State.setN_draws (s : State) (b : Bool) : (s.setN b).draws = s.draws := rfl

@[simp] theorem State.setV_A (s : State) (b : Bool) : (s.setV b).A = s.A := rfl
@[simp] theorem State.setV_X (s : State) (b : Bool) : (s.setV b).X = s.X := rfl
@[simp] theorem State.setV_Y (s : State) (b : Bool) : (s.setV b).Y = s.Y := rfl
@[simp] theorem State.setV_S (s : State) (b : Bool) : (s.setV b).S = s.S := rfl
@[simp] theorem State.setV_PC (s : State) (b : Bool) : (s.setV b).PC = s.PC := rfl
@[simp] theorem State.setV_P (s : State) (b : Bool) : (s.setV b).P = setBit s.P 6 b := rfl
@[simp] theorem State.setV_halted (s : State) (b : Bool) : (s.setV b).halted = s.halted := rfl
@[simp] theorem State.setV_cycles (s : State) (b : Bool) : (s.setV b).cycles = s.cycles := rfl
@[simp] theorem State.setV_mem (s : State) (b : Bool) : (s.setV b).mem = s.mem := rfl
@[simp] theorem State.setV_aborts (s : State) (b : Bool) : (s.setV b).aborts = s.aborts := rfl
@[simp] theorem State.setV_params (s : State) (b : Bool) : (s.setV b).params = s.params := rfl
@[simp] theorem State.setV_report (s : State) (b : Bool) : (s.setV b).report = s.report := rfl
@[simp] theorem State.setV_trace (s : State) (b : Bool) : (s.setV b).trace = s.trace := rfl
@[simp] theorem State.setV_draws (s : State) (b : Bool) : (s.setV b).draws = s.draws := rfl

@[simp] theorem State.setD_A (s : State) (b : Bool) : (s.setD b).A = s.A := rfl
@[simp] theorem State.setD_X (s : State) (b : Bool) : (s.setD b).X = s.X := rfl
@[simp] theorem State.setD_Y (s : State) (b : Bool) : (s.setD b).Y = s.Y := rfl
@[simp] theorem State.setD_S (s : State) (b : Bool) : (s.setD b).S = s.S := rfl
@[simp] theorem State.setD_PC (s : State) (b : Bool) : (s.setD b).PC = s.PC := rfl
@[simp] theorem State.setD_P (s : State) (b : Bool) : (s.setD b).P = setBit s.P 3 b := rfl
@[simp] theorem State.setD_halted (s : State) (b : Bool) : (s.setD b).halted = s.halted := rfl
@[simp] theorem State.setD_cycles (s : State) (b : Bool) : (s.setD b).cycles = s.cycles := rfl
@[simp] theorem State.setD_mem (s : State) (b : Bool) : (s.setD b).mem = s.mem := rfl
@[simp] theorem State.setD_aborts (s : State) (b : Bool) : (s.setD b).aborts = s.aborts := rfl
@[simp] theorem State.setD_params (s : State) (b : Bool) : (s.setD b).params = s.params := rfl
@[simp] theorem State.setD_report (s : State) (b : Bool) : (s.setD b).report = s.report := rfl
@[simp] theorem State.setD_trace (s : State) (b : Bool) : (s.setD b).trace = s.trace := rfl
@[simp] theorem State.setD_draws (s : State) (b : Bool) : (s.setD b).draws = s.draws := rfl

@[simp] theorem State.setI_A (s : State) (b : Bool) : (s.setI b).A = s.A := rfl
@[simp] theorem State.setI_X (s : State) (b : Bool) : (s.setI b).X = s.X := rfl
@[simp] theorem State.setI_Y (s : State) (b : Bool) : (s.setI b).Y = s.Y := rfl
@[simp] theorem State.setI_S (s : State) (b : Bool) : (s.setI b).S = s.S := rfl
@[simp] theorem State.setI_PC (s : State) (b : Bool) : (s.setI b).PC = s.PC := rfl
@[simp] theorem State.setI_P (s : State) (b : Bool) : (s.setI b).P = setBit s.P 2 b := rfl
@[simp] theorem State.setI_halted (s : State) (b : Bool) : (s.setI b).halted = s.halted := rfl
@[simp] theorem State.setI_cycles (s : State) (b : Bool) : (s.setI b).cycles = s.cycles := rfl
@[simp] theorem State.setI_mem (s : State) (b : Bool) : (s.setI b).mem = s.mem := rfl
@[simp] theorem State.setI_aborts (s : State) (b : Bool) : (s.setI b).aborts = s.aborts := rfl
@[simp] theorem State.setI_params (s : State) (b : Bool) : (s.setI b).params = s.params := rfl
@[simp] theorem State.setI_report (s : State) (b : Bool) : (s.setI b).report = s.report := rfl
@[simp] theorem State.setI_trace (s : State) (b : Bool) : (s.setI b).trace = s.trace := rfl
@[simp] theorem State.setI_draws (s : State) (b : Bool) : (s.setI b).draws = s.draws := rfl

@[simp] theorem State.setZ_A (s : State) (b : Bool) : (s.setZ b).A = s.A := rfl
@[simp] theorem State.setZ_X (s : State) (b : Bool) : (s.setZ b).X = s.X := rfl
@[simp] theorem State.setZ_Y (s : State) (b : Bool) : (s.setZ b).Y = s.Y := rfl
@[simp] theorem State.setZ_S (s : State) (b : Bool) : (s.setZ b).S = s.S := rfl
@[simp] theorem State.setZ_PC (s : State) (b : Bool) : (s.setZ b).PC = s.PC := rfl
@[simp] theorem State.setZ_P (s : State) (b : Bool) : (s.setZ b).P = setBit s.P 1 b := rfl
@[simp] theorem State.setZ_halted (s : State) (b : Bool) : (s.setZ b).halted = s.halted := rfl
@[simp] theorem State.setZ_cycles (s : State) (b : Bool) : (s.setZ b).cycles = s.cycles := rfl
@[simp] theorem State.setZ_mem (s : State) (b : Bool) : (s.setZ b).mem = s.mem := rfl
@[simp] theorem State.setZ_aborts (s : State) (b : Bool) : (s.setZ b).aborts = s.aborts := rfl
@[simp] theorem State.setZ_params (s : State) (b : Bool) : (s.setZ b).params = s.params := rfl
@[simp] theorem State.setZ_report (s : State) (b : Bool) : (s.setZ b).report = s.report := rfl
@[simp] theorem State.setZ_trace (s : State) (b : Bool) : (s.setZ b).trace = s.trace := rfl
@[simp] theorem State.setZ_draws (s : State) (b : Bool) : (s.setZ b).draws = s.draws := rfl

@[simp] theorem State.setC_A (s : State) (b : Bool) : (s.setC b).A = s.A := rfl
@[simp] theorem State.setC_X (s : State) (b : Bool) : (s.setC b).X = s.X := rfl
@[simp] theorem State.setC_Y (s : State) (b : Bool) : (s.setC b).Y = s.Y := rfl
@[simp] theorem State.setC_S (s : State) (b : Bool) : (s.setC b).S = s.S := rfl
@[simp] theorem State.setC_PC (s : State) (b : Bool) : (s.setC b).PC = s.PC := rfl
@[simp] theorem State.setC_P (s : State) (b : Bool) : (s.setC b).P = setBit s.P 0 b := rfl
@[simp] theorem State.setC_halted (s : State) (b : Bool) : (s.setC b).halted = s.halted := rfl
@[simp] theorem State.setC_cycles (s : State) (b : Bool) : (s.setC b).cycles = s.cycles := rfl
@[simp] theorem State.setC_mem (s : State) (b : Bool) : (s.setC b).mem = s.mem := rfl
@[simp] theorem State.setC_aborts (s : State) (b : Bool) : (s.setC b).aborts = s.aborts := rfl
@[simp] theorem State.setC_params (s : State) (b : Bool) : (s.setC b).params = s.params := rfl
@[simp] theorem State.setC_report (s : State) (b : Bool) : (s.setC b).report = s.report := rfl
@[simp] theorem State.setC_trace (s : State) (b : Bool) : (s.setC b).trace = s.trace := rfl
@[simp] theorem State.setC_draws (s : State) (b : Bool) : (s.setC b).draws = s.draws := rfl

@[simp] theorem State.setNZ_A (s : State) (v : Byte) : (s.setNZ v).A = s.A := rfl
@[simp] theorem State.setNZ_X (s : State) (v : Byte) : (s.setNZ v).X = s.X := rfl
@[simp] theorem State.setNZ_Y (s : State) (v : Byte) : (s.setNZ v).Y = s.Y := rfl
@[simp] theorem State.setNZ_S (s : State) (v : Byte) : (s.setNZ v).S = s.S := rfl
@[simp] theorem State.setNZ_PC (s : State) (v : Byte) : (s.setNZ v).PC = s.PC := rfl
@[simp] theorem State.setNZ_P (s : State) (v : Byte) : (s.setNZ v).P = setBit (setBit s.P 7 (v.getLsbD 7)) 1 (v == 0) := rfl
@[simp] theorem State.setNZ_halted (s : State) (v : Byte) : (s.setNZ v).halted = s.halted := rfl
@[simp] theorem State.setNZ_cycles (s : State) (v : Byte) : (s.setNZ v).cycles = s.cycles := rfl
@[simp] theorem State.setNZ_mem (s : State) (v : Byte) : (s.setNZ v).mem = s.mem := rfl
@[simp] theorem State.setNZ_aborts (s : State) (v : Byte) : (s.setNZ v).aborts = s.aborts := rfl
@[simp] theorem State.setNZ_params (s : State) (v : Byte) : (s.setNZ v).params = s.params := rfl
@[simp] theorem State.setNZ_report (s : State) (v : Byte) : (s.setNZ v).report = s.report := rfl
@[simp] theorem State.setNZ_trace (s : State) (v : Byte) : (s.setNZ v).trace = s.trace := rfl
@[simp] theorem State.setNZ_draws (s : State) (v : Byte) : (s.setNZ v).draws = s.draws := rfl

@[simp] theorem State.setNVZ_A (s : State) (n v z : Bool) : (s.setNVZ n v z).A = s.A := rfl
@[simp] theorem State.setNVZ_X (s : State) (n v z : Bool) : (s.setNVZ n v z).X = s.X := rfl
@[simp] theorem State.setNVZ_Y (s : State) (n v z : Bool) : (s.setNVZ n v z).Y = s.Y := rfl
@[simp] theorem State.setNVZ_S (s : State) (n v z : Bool) : (s.setNVZ n v z).S = s.S := rfl
@[simp] theorem State.setNVZ_PC (s : State) (n v z : Bool) : (s.setNVZ n v z).PC = s.PC := rfl
@[simp] theorem State.setNVZ_P (s : State) (n v z : Bool) : (s.setNVZ n v z).P = setBit (setBit (setBit s.P 7 n) 6 v) 1 z := rfl
@[simp] theorem State.setNVZ_halted (s : State) (n v z : Bool) : (s.setNVZ n v z).halted = s.halted := rfl
@[simp] theorem State.setNVZ_cycles (s : State) (n v z : Bool) : (s.setNVZ n v z).cycles = s.cycles := rfl
@[simp] theorem State.setNVZ_mem (s : State) (n v z : Bool) : (s.setNVZ n v z).mem = s.mem := rfl
@[simp] theorem State.setNVZ_aborts (s : State) (n v z : Bool) : (s.setNVZ n v z).aborts = s.aborts := rfl
@[simp] theorem State.setNVZ_params (s : State) (n v z : Bool) : (s.setNVZ n v z).params = s.params := rfl
@[simp] theorem State.setNVZ_report (s : State) (n v z : Bool) : (s.setNVZ n v z).report = s.report := rfl
@[simp] theorem State.setNVZ_trace (s : State) (n v z : Bool) : (s.setNVZ n v z).trace = s.trace := rfl
@[simp] theorem State.setNVZ_draws (s : State) (n v z : Bool) : (s.setNVZ n v z).draws = s.draws := rfl

@[simp] theorem State.finish_A (s : State) (n : Nat) : (s.finish n).A = s.A := rfl
@[simp] theorem State.finish_X (s : State) (n : Nat) : (s.finish n).X = s.X := rfl
@[simp] theorem State.finish_Y (s : State) (n : Nat) : (s.finish n).Y = s.Y := rfl
@[simp] theorem State.finish_S (s : State) (n : Nat) : (s.finish n).S = s.S := rfl
@[simp] theorem State.finish_PC (s : State) (n : Nat) : (s.finish n).PC = s.PC := rfl
@[simp] theorem State.finish_P (s : State) (n : Nat) : (s.finish n).P = s.P := rfl
@[simp] theorem State.finish_halted (s : State) (n : Nat) : (s.finish n).halted = s.halted := rfl
@[simp] theorem State.finish_cycles (s : State) (n : Nat) : (s.finish n).cycles = n := rfl
@[simp] theorem State.finish_mem (s : State) (n : Nat) : (s.finish n).mem = s.mem := rfl
@[simp] theorem State.finish_aborts (s : State) (n : Nat) : (s.finish n).aborts = s.aborts := rfl
@[simp] theorem State.finish_params (s : State) (n : Nat) : (s.finish n).params = s.params := rfl
@[simp] theorem State.finish_report (s : State) (n : Nat) : (s.finish n).report = { cycles := n, outcome := .ok } := rfl
@[simp] theorem State.finish_trace (s : State) (n : Nat) : (s.finish n).trace = s.trace := rfl
@[simp] theorem State.finish_draws (s : State) (n : Nat) : (s.finish n).draws = s.draws := rfl

@[simp] theorem State.quiet_A (s : State) (c : Nat) (tr : List BusAccess) (d : Nat) : (s.quiet c tr d).A = s.A := rfl
@[simp] theorem State.quiet_X (s : State) (c : Nat) (tr : List BusAccess) (d : Nat) : (s.quiet c tr d).X = s.X := rfl
@[simp] theorem State.quiet_Y (s : State) (c : Nat) (tr : List BusAccess) (d : Nat) : (s.quiet c tr d).Y = s.Y := rfl
@[simp] theorem State.quiet_S (s : State) (c : Nat) (tr : List BusAccess) (d : Nat) : (s.quiet c tr d).S = s.S := rfl
@[simp] theorem State.quiet_PC (s : State) (c : Nat) (tr : List BusAccess) (d : Nat) : (s.quiet c tr d).PC = s.PC := rfl
@[simp] theorem State.quiet_P (s : State) (c : Nat) (tr : List BusAccess) (d : Nat) : (s.quiet c tr d).P = s.P := rfl
@[simp] theorem State.quiet_halted (s : State) (c : Nat) (tr : List BusAccess) (d : Nat) : (s.quiet c tr d).halted = s.halted := rfl
@[simp] theorem State.quiet_cycles (s : State) (c : Nat) (tr : List BusAccess) (d : Nat) : (s.quiet c tr d).cycles = c := rfl
@[simp] theorem State.quiet_mem (s : State) (c : Nat) (tr : List BusAccess) (d : Nat) : (s.quiet c tr d).mem = s.mem := rfl
@[simp] theorem State.quiet_aborts (s : State) (c : Nat) (tr : List BusAccess) (d : Nat) : (s.quiet c tr d).aborts = s.aborts := rfl
@[simp] theorem State.quiet_params (s : State) (c : Nat) (tr : List BusAccess) (d : Nat) : (s.quiet c tr d).params = s.params := rfl
@[simp] theorem State.quiet_report (s : State) (c : Nat) (tr : List BusAccess) (d : Nat) : (s.quiet c tr d).report = s.report := rfl
@[simp] theorem State.quiet_trace (s : State) (c : Nat) (tr : List BusAccess) (d : Nat) : (s.quiet c tr d).trace = tr := rfl
@[simp] theorem State.quiet_draws (s : State) (c : Nat) (tr : List BusAccess) (d : Nat) : (s.quiet c tr d).draws = d := rfl

@[simp] theorem State.beginStep_A (s : State) : s.beginStep.A = s.A := rfl
@[simp] theorem State.beginStep_X (s : State) : s.beginStep.X = s.X := rfl
@[simp] theorem State.beginStep_Y (s : State) : s.beginStep.Y = s.Y := rfl
@[simp] theorem State.beginStep_S (s : State) : s.beginStep.S = s.S := rfl
@[simp] theorem State.beginStep_PC (s : State) : s.beginStep.PC = s.PC := rfl
@[simp] theorem State.beginStep_P (s : State) : s.beginStep.P = s.P := rfl
@[simp] theorem State.beginStep_halted (s : State) : s.beginStep.halted = s.halted := rfl
@[simp] theorem State.beginStep_cycles (s : State) : s.beginStep.cycles = 0 := rfl
@[simp] theorem State.beginStep_mem (s : State) : s.beginStep.mem = s.mem := rfl
@[simp] theorem State.beginStep_aborts (s : State) : s.beginStep.aborts = s.aborts := rfl
@[simp] theorem State.beginStep_params (s : State) : s.beginStep.params = s.params := rfl
@[simp] theorem State.beginStep_report (s : State) : s.beginStep.report = s.report := rfl
@[simp] theorem State.beginStep_trace (s : State) : s.beginStep.trace = [] := rfl
@[simp] theorem State.beginStep_draws (s : State) : s.beginStep.draws = s.draws := rfl

/-- A state with one byte stored. -/
def State.store (s : State) (a : Word) (v : Byte) : State := { s with mem := Memory.write s.mem a.toNat v }

@[simp] theorem State.store_A (s : State) (a : Word) (v : Byte) : (s.store a v).A = s.A := rfl
@[simp] theorem State.store_X (s : State) (a : Word) (v : Byte) : (s.store a v).X = s.X := rfl
@[simp] theorem State.store_Y (s : State) (a : Word) (v : Byte) : (s.store a v).Y = s.Y := rfl
@[simp] theorem State.store_S (s : State) (a : Word) (v : Byte) : (s.store a v).S = s.S := rfl
@[simp] theorem State.store_PC (s : State) (a : Word) (v : Byte) : (s.store a v).PC = s.PC := rfl
@[simp] theorem State.store_P (s : State) (a : Word) (v : Byte) : (s.store a v).P = s.P := rfl
@[simp] theorem State.store_halted (s : State) (a : Word) (v : Byte) : (s.store a v).halted = s.halted := rfl
@[simp] theorem State.store_cycles (s : State) (a : Word) (v : Byte) : (s.store a v).cycles = s.cycles := rfl
@[simp] theorem State.store_mem (s : State) (a : Word) (v : Byte) : (s.store a v).mem = Memory.write s.mem a.toNat v := rfl
@[simp] theorem State.store_aborts (s : State) (a : Word) (v : Byte) : (s.store a v).aborts = s.aborts := rfl
@[simp] theorem State.store_params (s : State) (a : Word) (v : Byte) : (s.store a v).params = s.params := rfl
@[simp] theorem State.store_report (s : State) (a : Word) (v : Byte) : (s.store a v).report = s.report := rfl
@[simp] theorem State.store_trace (s : State) (a : Word) (v : Byte) : (s.store a v).trace = s.trace := rfl
@[simp] theorem State.store_draws (s : State) (a : Word) (v : Byte) : (s.store a v).draws = s.draws := rfl

@[simp] theorem State.quiet_quiet (s : State) (c c' : Nat) (tr tr' : List BusAccess) (d d' : Nat) :
    (s.quiet c tr d).quiet c' tr' d' = s.quiet c' tr' d' := rfl

@[simp] theorem State.quiet_peek (s : State) (c : Nat) (tr : List BusAccess) (d : Nat) (a : Word) :
    (s.quiet c tr d).peek a = s.peek a := rfl

@[simp] theorem State.finish_peek (s : State) (n : Nat) (a : Word) : (s.finish n).peek a = s.peek a := rfl

theorem State.quiet_self (s : State) : s.quiet s.cycles s.trace s.draws = s := rfl

end Sys2Proof.Machine
end

