-- ==== Sys2Proof/Laws/Memory.lean ====
section
/-! SUPPORT. Memory: a read after a write, and the canonical form, which every memory operation keeps. -/

namespace Sys2Proof.Machine

theorem Memory.read_insert (m : Memory) (a : Nat) (v : Byte) (h : ∀ c ∈ m, c.1 ≠ a) (b : Nat) :
    Memory.read (Memory.insert m a v) b = if b = a then v else Memory.read m b := by
  induction m with
  | nil => simp [Memory.insert, Memory.read, eq_comm]
  | cons c rest ih =>
    obtain ⟨k, w⟩ := c
    have hk : k ≠ a := h (k, w) (by simp)
    have ih := ih fun c hc => h c (by simp [hc])
    by_cases hak : a < k
    · simp only [Memory.insert, hak, if_true, Memory.read]
      by_cases hba : b = a
      · simp [hba]
      · simp [hba, Ne.symm hba]
    · simp only [Memory.insert, hak, if_false, Memory.read, ih]
      by_cases hkb : k = b
      · subst hkb; simp [hk]
      · simp [hkb]

theorem Memory.read_filter (m : Memory) (a b : Nat) :
    Memory.read (m.filter fun c => c.1 != a) b = if b = a then Config.unlistedByte else Memory.read m b := by
  induction m with
  | nil => simp [Memory.read]
  | cons c rest ih =>
    obtain ⟨k, w⟩ := c
    by_cases hk : k = a
    · subst hk
      simp only [List.filter_cons, bne_self_eq_false, Bool.false_eq_true, if_false, ih, Memory.read]
      by_cases hb : b = k
      · simp [hb]
      · simp [hb, Ne.symm hb]
    · simp only [List.filter_cons, bne_iff_ne, ne_eq, hk, not_false_eq_true, if_true, Memory.read, ih]
      by_cases hkb : k = b
      · subst hkb; simp [hk]
      · simp [hkb]

/-- A read after a write gives the byte written there, and every other byte as before. -/
theorem Memory.read_write (m : Memory) (a b : Nat) (v : Byte) :
    Memory.read (Memory.write m a v) b = if b = a then v else Memory.read m b := by
  unfold Memory.write
  by_cases hv : v = Config.unlistedByte
  · subst hv; simp only [if_true, Memory.read_filter]
  · simp only [hv, if_false]
    rw [Memory.read_insert _ _ _ (by simp), Memory.read_filter]
    by_cases hb : b = a <;> simp [hb]

theorem Memory.above_filter {k : Nat} {m : Memory} (p : Host.Cell → Bool) (h : Memory.above k m = true) :
    Memory.above k (m.filter p) = true := by
  simp only [Memory.above, List.all_eq_true] at *
  exact fun c hc => h c (List.mem_of_mem_filter hc)

theorem Memory.wf_filter {m : Memory} (p : Host.Cell → Bool) (h : Memory.wf m = true) :
    Memory.wf (m.filter p) = true := by
  induction m with
  | nil => rfl
  | cons c rest ih =>
    obtain ⟨k, w⟩ := c
    simp only [Memory.wf, Bool.and_eq_true, decide_eq_true_eq] at h
    obtain ⟨⟨⟨hk, hw⟩, habove⟩, hrest⟩ := h
    by_cases hp : p (k, w)
    · simp [hp, Memory.wf, hk, hw, Memory.above_filter p habove, ih hrest]
    · simp [hp, ih hrest]

theorem Memory.above_insert {k : Nat} {m : Memory} {a : Nat} {v : Byte} (h : Memory.above k m = true) (ha : k < a) :
    Memory.above k (Memory.insert m a v) = true := by
  induction m with
  | nil => simpa [Memory.insert, Memory.above] using ha
  | cons c rest ih =>
    obtain ⟨j, w⟩ := c
    simp only [Memory.above, List.all_cons, Bool.and_eq_true, decide_eq_true_eq] at h ih ⊢
    by_cases haj : a < j
    · simp [Memory.insert, haj, ha, h.1, h.2]
    · simp only [Memory.insert, haj, if_false, List.all_cons, Bool.and_eq_true, decide_eq_true_eq]
      exact ⟨h.1, ih h.2⟩

theorem Memory.wf_insert {m : Memory} {a : Nat} {v : Byte} (h : Memory.wf m = true) (ha : a < 65536)
    (hv : v ≠ Config.unlistedByte) (hm : ∀ c ∈ m, c.1 ≠ a) : Memory.wf (Memory.insert m a v) = true := by
  induction m with
  | nil => simp [Memory.insert, Memory.wf, Memory.above, ha, hv]
  | cons c rest ih =>
    obtain ⟨k, w⟩ := c
    have hka : k ≠ a := hm (k, w) (by simp)
    simp only [Memory.wf, Bool.and_eq_true, decide_eq_true_eq] at h
    obtain ⟨⟨⟨hk, hw⟩, habove⟩, hrest⟩ := h
    by_cases hak : a < k
    · have hab : Memory.above a rest = true := by
        simp only [Memory.above, List.all_eq_true, decide_eq_true_eq] at habove ⊢
        exact fun c hc => Nat.lt_trans hak (habove c hc)
      have hab' : Memory.above a ((k, w) :: rest) = true := by
        simpa [Memory.above, hak] using hab
      simp [Memory.insert, hak, Memory.wf, ha, hv, hk, hw, habove, hrest, hab']
    · have hlt : k < a := by omega
      simp [Memory.insert, hak, Memory.wf, hk, hw, Memory.above_insert habove hlt,
        ih hrest fun c hc => hm c (by simp [hc])]

/-- A write keeps the canonical form. -/
theorem Memory.wf_write {m : Memory} {a : Nat} {v : Byte} (h : Memory.wf m = true) (ha : a < 65536) :
    Memory.wf (Memory.write m a v) = true := by
  unfold Memory.write
  by_cases hv : v = Config.unlistedByte
  · simpa [hv] using Memory.wf_filter _ h
  · simpa [hv] using Memory.wf_insert (Memory.wf_filter _ h) ha hv (by simp)

/-- A write at a 16-bit address keeps the canonical form. -/
theorem Memory.wf_write_word {m : Memory} (a : Word) (v : Byte) (h : Memory.wf m = true) :
    Memory.wf (Memory.write m a.toNat v) = true := Memory.wf_write h a.isLt

/-- Reading one byte after storing one, over 16-bit addresses. -/
theorem State.peek_store (s : State) (a b : Word) (v : Byte) :
    (s.store a v).peek b = if b = a then v else s.peek b := by
  simp [State.peek, Memory.read_write, BitVec.toNat_inj]

end Sys2Proof.Machine
end

