-- ==== Sys2Proof/Laws/Flags.lean ====
section
/-! SUPPORT. Bits of P after the flag writes, and the bytes pushed and pulled as P. -/

namespace Sys2Proof.Machine

/-- A bit after one bit is set. -/
@[simp] theorem getLsbD_setBit (p : Byte) (k j : Nat) (b : Bool) (hk : k < 8) :
    (setBit p k b).getLsbD j = if j = k then b else p.getLsbD j := by
  by_cases hj : j < 8
  · interval_cases k <;> interval_cases j <;> cases b <;> simp [setBit]
  · have h1 : (setBit p k b).getLsbD j = false := BitVec.getLsbD_of_ge _ _ (by omega)
    have h2 : p.getLsbD j = false := BitVec.getLsbD_of_ge _ _ (by omega)
    simp [h1, h2, show j ≠ k by omega]

/-- A bit after one bit is set, in simp's spelling of a bit at a literal place. -/
@[simp] theorem getElem_setBit (p : Byte) (k j : Nat) (b : Bool) (hj : j < 8) (hk : k < 8) :
    (setBit p k b)[j] = if j = k then b else p[j] := by
  have h := getLsbD_setBit p k j b hk
  rwa [BitVec.getLsbD_eq_getElem hj, BitVec.getLsbD_eq_getElem hj] at h

/-- Two status registers are equal when their bits are. -/
theorem status_ext {p q : Byte} (h : ∀ k, p.getLsbD k = q.getLsbD k) : p = q :=
  BitVec.eq_of_getLsbD_eq fun k _ => h k

/-- Live U and B are 0 (R26), as bits. -/
theorem status_live_iff (p : Byte) : p &&& 0x30 = 0 ↔ p.getLsbD 4 = false ∧ p.getLsbD 5 = false := by
  constructor
  · intro h
    have h4 := congrArg (fun q : Byte => q.getLsbD 4) h
    have h5 := congrArg (fun q : Byte => q.getLsbD 5) h
    simpa using And.intro h4 h5
  · rintro ⟨h4, h5⟩
    simp only [BitVec.getLsbD_eq_getElem (show (4 : Nat) < 8 by omega), BitVec.getLsbD_eq_getElem (show (5 : Nat) < 8 by omega)] at h4 h5
    refine status_ext fun k => ?_
    by_cases hk : k < 8
    · interval_cases k <;> simp [h4, h5]
    · simp [BitVec.getLsbD_of_ge _ k (show 8 ≤ k by omega)]

/-- Setting a bit other than U and B keeps them 0. -/
theorem status_live_setBit {p : Byte} (h : p &&& 0x30 = 0) (k : Nat) (b : Bool) (hk : k < 8) (h4 : k ≠ 4) (h5 : k ≠ 5) :
    setBit p k b &&& 0x30 = 0 := by
  rw [status_live_iff] at h ⊢
  rw [getLsbD_setBit p k 4 b hk, getLsbD_setBit p k 5 b hk, if_neg (Ne.symm h4), if_neg (Ne.symm h5)]
  exact h

/-- The bits of a pulled status: U and B read 0 (R30). -/
@[simp] theorem getLsbD_statusPulled (v : Byte) (k : Nat) :
    (statusPulled v).getLsbD k = (v.getLsbD k && decide (k ≠ 4 ∧ k ≠ 5)) := by
  by_cases hk : k < 8
  · interval_cases k <;> simp [statusPulled]
  · simp [BitVec.getLsbD_of_ge _ k (show 8 ≤ k by omega)]

/-- The bits that `pushStatus()` pushes: U and B read 1 (R29). -/
@[simp] theorem getLsbD_statusPushed (p : Byte) (k : Nat) :
    (statusPushed p).getLsbD k = (p.getLsbD k || decide (k = 4 ∨ k = 5)) := by
  by_cases hk : k < 8
  · interval_cases k <;> simp [statusPushed]
  · simp [BitVec.getLsbD_of_ge _ k (show 8 ≤ k by omega)]; omega

/-- The bits that `pushStatusInterrupt()` pushes: U reads 1 and B reads 0 (R31). -/
@[simp] theorem getLsbD_statusPushedInterrupt (p : Byte) (k : Nat) :
    (statusPushedInterrupt p).getLsbD k = ((p.getLsbD k || decide (k = 5)) && decide (k ≠ 4)) := by
  by_cases hk : k < 8
  · interval_cases k <;> simp [statusPushedInterrupt]
  · simp [BitVec.getLsbD_of_ge _ k (show 8 ≤ k by omega)]; omega

/-- A pulled status has U and B clear. -/
theorem statusPulled_live (v : Byte) : statusPulled v &&& 0x30 = 0 := by
  rw [status_live_iff, getLsbD_statusPulled, getLsbD_statusPulled]; simp

/-- Pulling what `pushStatus()` pushed gives P with U and B clear (R30). -/
theorem statusPulled_statusPushed (p : Byte) : statusPulled (statusPushed p) = p &&& 0xCF := by
  refine status_ext fun k => ?_
  rw [getLsbD_statusPulled]
  by_cases hk : k < 8
  · interval_cases k <;> simp [statusPushed]
  · simp [BitVec.getLsbD_of_ge _ k (show 8 ≤ k by omega)]

/-- Pulling what `pushStatusInterrupt()` pushed gives P with U and B clear. -/
theorem statusPulled_statusPushedInterrupt (p : Byte) : statusPulled (statusPushedInterrupt p) = p &&& 0xCF := by
  refine status_ext fun k => ?_
  rw [getLsbD_statusPulled]
  by_cases hk : k < 8
  · interval_cases k <;> simp [statusPushedInterrupt]
  · simp [BitVec.getLsbD_of_ge _ k (show 8 ≤ k by omega)]

/-- With live U and B at 0, masking them changes nothing. -/
theorem status_live_mask {p : Byte} (h : p &&& 0x30 = 0) : p &&& 0xCF = p := by
  obtain ⟨h4, h5⟩ := (status_live_iff p).1 h
  simp only [BitVec.getLsbD_eq_getElem (show (4 : Nat) < 8 by omega), BitVec.getLsbD_eq_getElem (show (5 : Nat) < 8 by omega)] at h4 h5
  refine status_ext fun k => ?_
  by_cases hk : k < 8
  · interval_cases k <;> simp [h4, h5]
  · simp [BitVec.getLsbD_of_ge _ k (show 8 ≤ k by omega)]

end Sys2Proof.Machine
end

