-- ==== Sys2Proof/Laws/Ops.lean ====
section
/-! SUPPORT. The shared operations: for each, what it answers if it answers a next state (`_next`), and that it does
answer one on a bus without aborts (`_plain`). `State.quiet` says that a state differs from another in the cycle counter,
the record of accesses and the draws alone. -/

namespace Sys2Proof.Machine

/-! Sequencing. -/

@[simp] theorem andThen_next {α τ : Type} (v : α) (s : State) (k : α → State → Host.Outcome τ Fault Refusal) :
    andThen (.next (v, s)) k = k v s := rfl

@[simp] theorem andThen_fault {α τ : Type} (f : Fault) (k : α → State → Host.Outcome τ Fault Refusal) :
    andThen (.fault f) k = .fault f := rfl

@[simp] theorem andThen_refused {α τ : Type} (r : Refusal) (k : α → State → Host.Outcome τ Fault Refusal) :
    andThen (.refused r) k = .refused r := rfl

theorem andThen_eq_next {α τ : Type} {x : Res α} {k : α → State → Host.Outcome τ Fault Refusal} {t : τ} :
    andThen x k = .next t ↔ ∃ v s, x = .next (v, s) ∧ k v s = .next t := by
  cases x with
  | next r => obtain ⟨v, s⟩ := r; simp
  | fault f => simp
  | refused r => simp

/-! The bus. -/

theorem busRead_next {a : Word} {s t : State} {v : Byte} (h : busRead a s = .next (v, t)) :
    v = s.peek a ∧ t = s.quiet (s.cycles + 1) (s.trace ++ [.read a (s.peek a)]) s.draws := by
  unfold busRead at h
  split at h
  · cases h
  · cases h; exact ⟨rfl, rfl⟩

theorem busRead_plain {s : State} (h : s.PlainBus) (a : Word) :
    busRead a s = .next (s.peek a, s.quiet (s.cycles + 1) (s.trace ++ [.read a (s.peek a)]) s.draws) := by
  have h : s.aborts = [] := h
  simp [busRead, h, State.quiet]

theorem busWrite_next {a : Word} {v : Byte} {s t : State} (h : busWrite a v s = .next ((), t)) :
    t = (s.store a v).quiet (s.cycles + 1) (s.trace ++ [.write a v]) s.draws := by
  unfold busWrite at h
  split at h
  · cases h
  · cases h; rfl

theorem busWrite_plain {s : State} (h : s.PlainBus) (a : Word) (v : Byte) :
    busWrite a v s = .next ((), (s.store a v).quiet (s.cycles + 1) (s.trace ++ [.write a v]) s.draws) := by
  have h : s.aborts = [] := h
  simp [busWrite, h, State.quiet, State.store]

theorem dummyReads_next {l : List Word} {s t : State} (h : dummyReads l s = .next ((), t)) :
    ∃ c tr d, t = s.quiet c tr d := by
  induction l generalizing s with
  | nil => cases h; exact ⟨_, _, _, rfl⟩
  | cons a rest ih =>
    obtain ⟨v, s1, h1, h2⟩ := andThen_eq_next.1 h
    obtain ⟨-, rfl⟩ := busRead_next h1
    obtain ⟨c, tr, d, rfl⟩ := ih h2
    exact ⟨c, tr, d, rfl⟩

theorem dummyReads_plain (l : List Word) {s : State} (h : s.PlainBus) :
    ∃ c tr d, dummyReads l s = .next ((), s.quiet c tr d) := by
  induction l generalizing s with
  | nil => exact ⟨_, _, _, rfl⟩
  | cons a rest ih =>
    obtain ⟨c, tr, d, e⟩ := ih (s := s.quiet (s.cycles + 1) (s.trace ++ [.read a (s.peek a)]) s.draws) h
    exact ⟨c, tr, d, by simp only [dummyReads, busRead_plain h, andThen_next, e, State.quiet_quiet]⟩

theorem extraAccesses_next {s t : State} (h : extraAccesses s = .next ((), t)) : ∃ c tr d, t = s.quiet c tr d := by
  unfold extraAccesses at h
  split at h
  · cases h; exact ⟨_, _, _, rfl⟩
  · obtain ⟨c, tr, d, rfl⟩ := dummyReads_next h; exact ⟨c, tr, d, rfl⟩

theorem extraAccesses_plain {s : State} (h : s.PlainBus) : ∃ c tr d, extraAccesses s = .next ((), s.quiet c tr d) := by
  unfold extraAccesses
  split
  · exact ⟨_, _, _, rfl⟩
  · obtain ⟨c, tr, d, e⟩ := dummyReads_plain (Config.extraReads s.draws) (s := { s with draws := s.draws + 1 }) h
    exact ⟨c, tr, d, e⟩

/-- Under `BUS_TRACE = functional` nothing is added (R58). -/
theorem extraAccesses_functional {s : State} (h : s.params.busTrace = .functional) :
    extraAccesses s = .next ((), s) := by simp [extraAccesses, h]

theorem memRead_functional {s : State} (h : s.params.busTrace = .functional) (a : Word) : memRead a s = busRead a s := by
  simp [memRead, extraAccesses_functional h]

theorem memWrite_functional {s : State} (h : s.params.busTrace = .functional) (a : Word) (v : Byte) :
    memWrite a v s = busWrite a v s := by simp [memWrite, extraAccesses_functional h]

theorem memRead_next {a : Word} {s t : State} {v : Byte} (h : memRead a s = .next (v, t)) :
    v = s.peek a ∧ ∃ c tr d, t = s.quiet c tr d := by
  obtain ⟨_, s1, h1, h2⟩ := andThen_eq_next.1 h
  obtain ⟨c, tr, d, rfl⟩ := extraAccesses_next h1
  obtain ⟨rfl, rfl⟩ := busRead_next h2
  exact ⟨rfl, _, _, _, rfl⟩

theorem memRead_plain {s : State} (h : s.PlainBus) (a : Word) :
    ∃ c tr d, memRead a s = .next (s.peek a, s.quiet c tr d) := by
  obtain ⟨c, tr, d, e⟩ := extraAccesses_plain h
  exact ⟨_, _, _, by simp only [memRead, e, andThen_next]; exact busRead_plain (s := s.quiet c tr d) h a⟩

theorem memWrite_next {a : Word} {v : Byte} {s t : State} (h : memWrite a v s = .next ((), t)) :
    ∃ c tr d, t = (s.store a v).quiet c tr d := by
  obtain ⟨_, s1, h1, h2⟩ := andThen_eq_next.1 h
  obtain ⟨c, tr, d, rfl⟩ := extraAccesses_next h1
  have e := busWrite_next h2
  exact ⟨_, _, _, e⟩

theorem memWrite_plain {s : State} (h : s.PlainBus) (a : Word) (v : Byte) :
    ∃ c tr d, memWrite a v s = .next ((), (s.store a v).quiet c tr d) := by
  obtain ⟨c, tr, d, e⟩ := extraAccesses_plain h
  exact ⟨_, _, _, by simp only [memWrite, e, andThen_next]; exact busWrite_plain (s := s.quiet c tr d) h a v⟩

/-! Fetching, vectors and the stack. -/

theorem fetch_next {s t : State} {v : Byte} (h : fetch s = .next (v, t)) :
    v = s.peek s.PC ∧ ∃ c tr d, t = { s with PC := s.PC + 1 }.quiet c tr d := by
  obtain ⟨w, s1, h1, h2⟩ := andThen_eq_next.1 h
  obtain ⟨rfl, c, tr, d, rfl⟩ := memRead_next h1
  cases h2
  exact ⟨rfl, c, tr, d, rfl⟩

theorem fetch_plain {s : State} (h : s.PlainBus) :
    ∃ c tr d, fetch s = .next (s.peek s.PC, { s with PC := s.PC + 1 }.quiet c tr d) := by
  obtain ⟨c, tr, d, e⟩ := memRead_plain h s.PC
  exact ⟨c, tr, d, by simp only [fetch, e, andThen_next]; rfl⟩

theorem readVector_next {v : Word} {s t : State} {w : Word} (h : readVector v s = .next (w, t)) :
    w = wordOf (s.peek (v + 1)) (s.peek v) ∧ ∃ c tr d, t = s.quiet c tr d := by
  obtain ⟨lo, s1, h1, h2⟩ := andThen_eq_next.1 h
  obtain ⟨rfl, c, tr, d, rfl⟩ := memRead_next h1
  obtain ⟨hi, s2, h3, h4⟩ := andThen_eq_next.1 h2
  obtain ⟨rfl, c', tr', d', rfl⟩ := memRead_next h3
  cases h4
  exact ⟨rfl, c', tr', d', rfl⟩

theorem readVector_plain {s : State} (h : s.PlainBus) (v : Word) :
    ∃ c tr d, readVector v s = .next (wordOf (s.peek (v + 1)) (s.peek v), s.quiet c tr d) := by
  obtain ⟨c, tr, d, e⟩ := memRead_plain h v
  obtain ⟨c', tr', d', e'⟩ := memRead_plain (s := s.quiet c tr d) h (v + 1)
  exact ⟨c', tr', d', by simp only [readVector, e, e', andThen_next, State.quiet_peek, State.quiet_quiet]⟩

theorem push_next {v : Byte} {s t : State} (h : push v s = .next ((), t)) :
    ∃ c tr d, t = ({ s with S := s.S - 1 }.store (stackAddress s.S) v).quiet c tr d := by
  obtain ⟨_, s1, h1, h2⟩ := andThen_eq_next.1 h
  obtain ⟨c, tr, d, rfl⟩ := memWrite_next h1
  cases h2
  exact ⟨c, tr, d, rfl⟩

theorem push_plain {s : State} (h : s.PlainBus) (v : Byte) :
    ∃ c tr d, push v s = .next ((), ({ s with S := s.S - 1 }.store (stackAddress s.S) v).quiet c tr d) := by
  obtain ⟨c, tr, d, e⟩ := memWrite_plain h (stackAddress s.S) v
  exact ⟨c, tr, d, by simp only [push, e, andThen_next]; rfl⟩

theorem pull_next {s t : State} {v : Byte} (h : pull s = .next (v, t)) :
    v = s.peek (stackAddress (s.S + 1)) ∧ ∃ c tr d, t = { s with S := s.S + 1 }.quiet c tr d :=
  memRead_next (s := { s with S := s.S + 1 }) h

theorem pull_plain {s : State} (h : s.PlainBus) :
    ∃ c tr d, pull s = .next (s.peek (stackAddress (s.S + 1)), { s with S := s.S + 1 }.quiet c tr d) :=
  memRead_plain (s := { s with S := s.S + 1 }) h _

theorem pushWord_next {w : Word} {s t : State} (h : pushWord w s = .next ((), t)) :
    ∃ c tr d, t = (({ s with S := s.S - 1 - 1 }.store (stackAddress s.S) (highByte w)).store
      (stackAddress (s.S - 1)) (lowByte w)).quiet c tr d := by
  obtain ⟨_, s1, h1, h2⟩ := andThen_eq_next.1 h
  obtain ⟨c, tr, d, rfl⟩ := push_next h1
  obtain ⟨c', tr', d', rfl⟩ := push_next h2
  exact ⟨c', tr', d', rfl⟩

theorem pushWord_plain {s : State} (h : s.PlainBus) (w : Word) :
    ∃ c tr d, pushWord w s = .next ((), (({ s with S := s.S - 1 - 1 }.store (stackAddress s.S) (highByte w)).store
      (stackAddress (s.S - 1)) (lowByte w)).quiet c tr d) := by
  obtain ⟨c, tr, d, e⟩ := push_plain h (highByte w)
  obtain ⟨c', tr', d', e'⟩ := push_plain
    (s := ({ s with S := s.S - 1 }.store (stackAddress s.S) (highByte w)).quiet c tr d) h (lowByte w)
  exact ⟨c', tr', d', by simp only [pushWord, e, andThen_next]; exact e'⟩

theorem pullWord_next {s t : State} {w : Word} (h : pullWord s = .next (w, t)) :
    w = wordOf (s.peek (stackAddress (s.S + 1 + 1))) (s.peek (stackAddress (s.S + 1))) ∧
      ∃ c tr d, t = { s with S := s.S + 1 + 1 }.quiet c tr d := by
  obtain ⟨lo, s1, h1, h2⟩ := andThen_eq_next.1 h
  obtain ⟨rfl, c, tr, d, rfl⟩ := pull_next h1
  obtain ⟨hi, s2, h3, h4⟩ := andThen_eq_next.1 h2
  obtain ⟨rfl, c', tr', d', rfl⟩ := pull_next h3
  cases h4
  exact ⟨rfl, c', tr', d', rfl⟩

theorem pullWord_plain {s : State} (h : s.PlainBus) :
    ∃ c tr d, pullWord s =
      .next (wordOf (s.peek (stackAddress (s.S + 1 + 1))) (s.peek (stackAddress (s.S + 1))),
        { s with S := s.S + 1 + 1 }.quiet c tr d) := by
  obtain ⟨c, tr, d, e⟩ := pull_plain h
  obtain ⟨c', tr', d', e'⟩ := pull_plain (s := { s with S := s.S + 1 }.quiet c tr d) h
  exact ⟨c', tr', d', by simp only [pullWord, e, e', andThen_next]; rfl⟩

theorem pullStatus_next {s t : State} (h : pullStatus s = .next ((), t)) :
    ∃ c tr d, t = { s with S := s.S + 1, P := statusPulled (s.peek (stackAddress (s.S + 1))) }.quiet c tr d := by
  obtain ⟨v, s1, h1, h2⟩ := andThen_eq_next.1 h
  obtain ⟨rfl, c, tr, d, rfl⟩ := pull_next h1
  cases h2
  exact ⟨c, tr, d, rfl⟩

theorem pullStatus_plain {s : State} (h : s.PlainBus) :
    ∃ c tr d, pullStatus s =
      .next ((), { s with S := s.S + 1, P := statusPulled (s.peek (stackAddress (s.S + 1))) }.quiet c tr d) := by
  obtain ⟨c, tr, d, e⟩ := pull_plain h
  exact ⟨c, tr, d, by simp only [pullStatus, e, andThen_next]; rfl⟩

/-! Taking an interrupt and returning from one. -/

/-- Memory and S after the three pushes of an interrupt entry. -/
def State.pushedThree (s : State) (w : Word) (status : Byte) : State :=
  (({ s with S := s.S - 1 - 1 - 1 }.store (stackAddress s.S) (highByte w)).store
    (stackAddress (s.S - 1)) (lowByte w)).store (stackAddress (s.S - 1 - 1)) status

theorem enterInterrupt_next {status : Byte} {vector : Word} {s t : State}
    (h : enterInterrupt status vector s = .next ((), t)) :
    ∃ c tr d, t =
      { (s.pushedThree s.PC status).setI true with
        PC := wordOf ((s.pushedThree s.PC status).peek (vector + 1)) ((s.pushedThree s.PC status).peek vector) }.quiet
      c tr d := by
  obtain ⟨_, s1, h1, h2⟩ := andThen_eq_next.1 h
  obtain ⟨c, tr, d, rfl⟩ := pushWord_next h1
  obtain ⟨_, s2, h3, h4⟩ := andThen_eq_next.1 h2
  obtain ⟨c', tr', d', rfl⟩ := push_next h3
  obtain ⟨w, s3, h5, h6⟩ := andThen_eq_next.1 h4
  obtain ⟨rfl, c'', tr'', d'', rfl⟩ := readVector_next h5
  cases h6
  exact ⟨c'', tr'', d'', rfl⟩

theorem enterInterrupt_plain {s : State} (h : s.PlainBus) (status : Byte) (vector : Word) :
    ∃ c tr d, enterInterrupt status vector s = .next ((),
      { (s.pushedThree s.PC status).setI true with
        PC := wordOf ((s.pushedThree s.PC status).peek (vector + 1)) ((s.pushedThree s.PC status).peek vector) }.quiet
      c tr d) := by
  obtain ⟨c, tr, d, e⟩ := pushWord_plain h s.PC
  obtain ⟨c', tr', d', e'⟩ := push_plain
    (s := (({ s with S := s.S - 1 - 1 }.store (stackAddress s.S) (highByte s.PC)).store
      (stackAddress (s.S - 1)) (lowByte s.PC)).quiet c tr d) h status
  obtain ⟨c'', tr'', d'', e''⟩ := readVector_plain
    (s := ((s.pushedThree s.PC status).quiet c' tr' d').setI true) h vector
  refine ⟨c'', tr'', d'', ?_⟩
  simp only [enterInterrupt, e, andThen_next]
  rw [e', andThen_next]
  exact congrArg (fun x => andThen x fun target s3 => .next ((), { s3 with PC := target })) e''

theorem returnFromInterrupt_next {s t : State} (h : returnFromInterrupt s = .next ((), t)) :
    ∃ c tr d, t = { s with
      P := statusPulled (s.peek (stackAddress (s.S + 1)))
      S := s.S + 1 + 1 + 1
      PC := wordOf (s.peek (stackAddress (s.S + 1 + 1 + 1))) (s.peek (stackAddress (s.S + 1 + 1))) }.quiet c tr d := by
  obtain ⟨_, s1, h1, h2⟩ := andThen_eq_next.1 h
  obtain ⟨c, tr, d, rfl⟩ := pullStatus_next h1
  obtain ⟨w, s2, h3, h4⟩ := andThen_eq_next.1 h2
  obtain ⟨rfl, c', tr', d', rfl⟩ := pullWord_next h3
  cases h4
  exact ⟨c', tr', d', rfl⟩

theorem returnFromInterrupt_plain {s : State} (h : s.PlainBus) :
    ∃ c tr d, returnFromInterrupt s = .next ((), { s with
      P := statusPulled (s.peek (stackAddress (s.S + 1)))
      S := s.S + 1 + 1 + 1
      PC := wordOf (s.peek (stackAddress (s.S + 1 + 1 + 1))) (s.peek (stackAddress (s.S + 1 + 1))) }.quiet c tr d) := by
  obtain ⟨c, tr, d, e⟩ := pullStatus_plain h
  obtain ⟨c', tr', d', e'⟩ := pullWord_plain
    (s := { s with S := s.S + 1, P := statusPulled (s.peek (stackAddress (s.S + 1))) }.quiet c tr d) h
  exact ⟨c', tr', d', by simp only [returnFromInterrupt, e, e', andThen_next]; rfl⟩

/-! Admission by UNDOC_PROFILE. -/

theorem whenNopAdmitted_next {τ : Type} {s : State} {x : Host.Outcome τ Fault Refusal} {t : τ}
    (h : whenNopAdmitted s x = .next t) : s.params.undocProfile ≠ .refuse ∧ x = .next t := by
  unfold whenNopAdmitted at h
  split at h
  · cases h
  · rename_i e; exact ⟨by simp [e], h⟩
  · rename_i e; exact ⟨by simp [e], h⟩

theorem whenNmosAdmitted_next {τ : Type} {s : State} {x : Host.Outcome τ Fault Refusal} {t : τ}
    (h : whenNmosAdmitted s x = .next t) : s.params.undocProfile = .nmos ∧ x = .next t := by
  unfold whenNmosAdmitted at h
  split at h
  · cases h
  · cases h
  · rename_i e; exact ⟨e, h⟩

theorem whenNopAdmitted_admits {τ : Type} {s : State} (h : s.params.undocProfile ≠ .refuse)
    (x : Host.Outcome τ Fault Refusal) : whenNopAdmitted s x = x := by
  unfold whenNopAdmitted
  split
  · rename_i e; exact absurd e h
  · rfl
  · rfl

theorem whenNmosAdmitted_admits {τ : Type} {s : State} (h : s.params.undocProfile = .nmos)
    (x : Host.Outcome τ Fault Refusal) : whenNmosAdmitted s x = x := by simp [whenNmosAdmitted, h]

end Sys2Proof.Machine
end

