-- ==== Sys2Proof/Laws/Operands.lean ====
section
/-! SUPPORT. The addressing modes and the instruction classes: what each answers. -/

namespace Sys2Proof.Machine

/-- What an addressing mode produces, without its bus accesses. -/
def addressed (m : AddrMode) (s : State) : EffectiveAddress :=
  match m with
  | .zp a => unindexed (zeroExtend16 a)
  | .zpx a => unindexed (zeroExtend16 (a + s.X))
  | .zpy a => unindexed (zeroExtend16 (a + s.Y))
  | .abs a => unindexed a
  | .absx a => indexed a s.X
  | .absy a => indexed a s.Y
  | .indx a => unindexed (s.pointer (a + s.X))
  | .indy a => indexed (s.pointer a) s.Y

theorem readPointer_next {p : Byte} {s t : State} {w : Word} (h : readPointer p s = .next (w, t)) :
    w = s.pointer p ∧ ∃ c tr d, t = s.quiet c tr d := by
  obtain ⟨lo, s1, h1, h2⟩ := andThen_eq_next.1 h
  obtain ⟨rfl, c, tr, d, rfl⟩ := memRead_next h1
  obtain ⟨hi, s2, h3, h4⟩ := andThen_eq_next.1 h2
  obtain ⟨rfl, c', tr', d', rfl⟩ := memRead_next h3
  cases h4
  exact ⟨rfl, c', tr', d', rfl⟩

theorem readPointer_plain {s : State} (h : s.PlainBus) (p : Byte) :
    ∃ c tr d, readPointer p s = .next (s.pointer p, s.quiet c tr d) := by
  obtain ⟨c, tr, d, e⟩ := memRead_plain h (zeroExtend16 p)
  obtain ⟨c', tr', d', e'⟩ := memRead_plain (s := s.quiet c tr d) h (zeroExtend16 (p + 1))
  exact ⟨c', tr', d', by simp only [readPointer, zread, e, e', andThen_next]; rfl⟩

theorem effectiveAddress_next {m : AddrMode} {s t : State} {ea : EffectiveAddress}
    (h : effectiveAddress m s = .next (ea, t)) : ea = addressed m s ∧ ∃ c tr d, t = s.quiet c tr d := by
  cases m with
  | indx a =>
    simp only [effectiveAddress] at h
    obtain ⟨w, s1, h1, h2⟩ := andThen_eq_next.1 h
    obtain ⟨rfl, c, tr, d, rfl⟩ := readPointer_next h1
    cases h2; exact ⟨rfl, c, tr, d, rfl⟩
  | indy a =>
    simp only [effectiveAddress] at h
    obtain ⟨w, s1, h1, h2⟩ := andThen_eq_next.1 h
    obtain ⟨rfl, c, tr, d, rfl⟩ := readPointer_next h1
    cases h2; exact ⟨rfl, c, tr, d, rfl⟩
  | zp a => cases h; exact ⟨rfl, _, _, _, rfl⟩
  | zpx a => cases h; exact ⟨rfl, _, _, _, rfl⟩
  | zpy a => cases h; exact ⟨rfl, _, _, _, rfl⟩
  | abs a => cases h; exact ⟨rfl, _, _, _, rfl⟩
  | absx a => cases h; exact ⟨rfl, _, _, _, rfl⟩
  | absy a => cases h; exact ⟨rfl, _, _, _, rfl⟩

theorem effectiveAddress_plain {s : State} (h : s.PlainBus) (m : AddrMode) :
    ∃ c tr d, effectiveAddress m s = .next (addressed m s, s.quiet c tr d) := by
  cases m with
  | indx a =>
    obtain ⟨c, tr, d, e⟩ := readPointer_plain h (a + s.X)
    exact ⟨c, tr, d, by simp only [effectiveAddress, e, andThen_next]; rfl⟩
  | indy a =>
    obtain ⟨c, tr, d, e⟩ := readPointer_plain h a
    exact ⟨c, tr, d, by simp only [effectiveAddress, e, andThen_next]; rfl⟩
  | zp a => exact ⟨_, _, _, rfl⟩
  | zpx a => exact ⟨_, _, _, rfl⟩
  | zpy a => exact ⟨_, _, _, rfl⟩
  | abs a => exact ⟨_, _, _, rfl⟩
  | absx a => exact ⟨_, _, _, rfl⟩
  | absy a => exact ⟨_, _, _, rfl⟩

/-- The byte and the page-cross flag of a read-class operand, without its bus accesses. -/
def operandRead (o : ReadOperand) (s : State) : Byte × Bool :=
  match o with
  | .imm v => (v, false)
  | .mem m => (s.peek (addressed m s).addr, (addressed m s).cross)

theorem readOperand_next {o : ReadOperand} {s t : State} {r : Byte × Bool} (h : readOperand o s = .next (r, t)) :
    r = operandRead o s ∧ ∃ c tr d, t = s.quiet c tr d := by
  cases o with
  | imm v => cases h; exact ⟨rfl, _, _, _, rfl⟩
  | mem m =>
    simp only [readOperand] at h
    obtain ⟨ea, s1, h1, h2⟩ := andThen_eq_next.1 h
    obtain ⟨rfl, c, tr, d, rfl⟩ := effectiveAddress_next h1
    obtain ⟨v, s2, h3, h4⟩ := andThen_eq_next.1 h2
    obtain ⟨rfl, c', tr', d', rfl⟩ := memRead_next h3
    cases h4; exact ⟨rfl, c', tr', d', rfl⟩

theorem readOperand_plain {s : State} (h : s.PlainBus) (o : ReadOperand) :
    ∃ c tr d, readOperand o s = .next (operandRead o s, s.quiet c tr d) := by
  cases o with
  | imm v => exact ⟨_, _, _, rfl⟩
  | mem m =>
    obtain ⟨c, tr, d, e⟩ := effectiveAddress_plain h m
    obtain ⟨c', tr', d', e'⟩ := memRead_plain (s := s.quiet c tr d) h (addressed m s).addr
    exact ⟨c', tr', d', by simp only [readOperand, e, e', andThen_next]; rfl⟩

/-! The classes. The state a class hands to the instruction differs from the first one in the counter, the record of
accesses and the draws alone. -/

theorem readClass_next {o : ReadOperand} {s t : State} {f : Byte → State → State} (h : readClass o s f = .next t) :
    ∃ c tr d, t = (f (operandRead o s).1 (s.quiet c tr d)).finish
      (ReadOperand.readCycles o + crossPenalty (operandRead o s).2) := by
  obtain ⟨r, s1, h1, h2⟩ := andThen_eq_next.1 h
  obtain ⟨rfl, c, tr, d, rfl⟩ := readOperand_next h1
  cases h2; exact ⟨c, tr, d, rfl⟩

theorem readClass_plain {s : State} (h : s.PlainBus) (o : ReadOperand) (f : Byte → State → State) :
    ∃ c tr d, readClass o s f = .next ((f (operandRead o s).1 (s.quiet c tr d)).finish
      (ReadOperand.readCycles o + crossPenalty (operandRead o s).2)) := by
  obtain ⟨c, tr, d, e⟩ := readOperand_plain h o
  exact ⟨c, tr, d, by simp only [readClass, e, andThen_next]⟩

/-- An immediate operand makes no access and draws nothing. -/
theorem readClass_imm (v : Byte) (s : State) (f : Byte → State → State) :
    readClass (.imm v) s f = .next ((f v s).finish 2) := rfl

theorem finishAfter_next {x : Res Unit} {n : Nat} {t : State} (h : finishAfter x n = .next t) :
    ∃ s, x = .next ((), s) ∧ t = s.finish n := by
  obtain ⟨_, s, h1, h2⟩ := andThen_eq_next.1 h
  cases h2; exact ⟨s, h1, rfl⟩

@[simp] theorem finishAfter_of_next (s : State) (n : Nat) : finishAfter (.next ((), s)) n = .next (s.finish n) := rfl

theorem writeClass_next {m : AddrMode} {s t : State} {v : Byte} (h : writeClass m s v = .next t) :
    ∃ c tr d, t = ((s.store (addressed m s).addr v).quiet c tr d).finish (AddrMode.writeCycles m) := by
  obtain ⟨ea, s1, h1, h2⟩ := andThen_eq_next.1 h
  obtain ⟨rfl, c, tr, d, rfl⟩ := effectiveAddress_next h1
  obtain ⟨s2, h3, rfl⟩ := finishAfter_next h2
  obtain ⟨c', tr', d', rfl⟩ := memWrite_next h3
  exact ⟨c', tr', d', rfl⟩

theorem writeClass_plain {s : State} (h : s.PlainBus) (m : AddrMode) (v : Byte) :
    ∃ c tr d, writeClass m s v =
      .next (((s.store (addressed m s).addr v).quiet c tr d).finish (AddrMode.writeCycles m)) := by
  obtain ⟨c, tr, d, e⟩ := effectiveAddress_plain h m
  obtain ⟨c', tr', d', e'⟩ := memWrite_plain (s := s.quiet c tr d) h (addressed m s).addr v
  exact ⟨c', tr', d', by simp only [writeClass, e, e', andThen_next, finishAfter_of_next]; rfl⟩

/-- Writing the unmodified byte changes no byte of memory (R58). -/
theorem unmodifiedWrite_next {a : Word} {v : Byte} {s t : State} (h : unmodifiedWrite a v s = .next ((), t)) :
    ∃ c tr d, t = s.quiet c tr d ∨ t = (s.store a v).quiet c tr d := by
  unfold unmodifiedWrite at h
  split at h
  · cases h; exact ⟨_, _, _, .inl rfl⟩
  · split at h
    · obtain ⟨c, tr, d, rfl⟩ := memWrite_next h
      exact ⟨c, tr, d, .inr rfl⟩
    · cases h; exact ⟨_, _, _, .inl rfl⟩

theorem unmodifiedWrite_plain {s : State} (h : s.PlainBus) (a : Word) (v : Byte) :
    ∃ c tr d, unmodifiedWrite a v s = .next ((), s.quiet c tr d) ∨
      unmodifiedWrite a v s = .next ((), (s.store a v).quiet c tr d) := by
  unfold unmodifiedWrite
  split
  · exact ⟨_, _, _, .inl rfl⟩
  · split
    · obtain ⟨c, tr, d, e⟩ := memWrite_plain (s := { s with draws := s.draws + 1 }) h a v
      exact ⟨c, tr, d, .inr e⟩
    · exact ⟨_, _, _, .inl rfl⟩

/-- Writing a byte twice is writing the second: memory is canonical data. -/
theorem Memory.write_write (m : Memory) (a : Nat) (v w : Byte) :
    Memory.write (Memory.write m a v) a w = Memory.write m a w := by
  have hf : ∀ (m : Memory), (Memory.insert (m.filter fun c => c.1 != a) a v).filter (fun c => c.1 != a) =
      m.filter fun c => c.1 != a := by
    intro m
    induction m with
    | nil => simp [Memory.insert]
    | cons c rest ih =>
      obtain ⟨k, x⟩ := c
      by_cases hk : k = a
      · simpa [hk] using ih
      · by_cases hak : a < k
        · simp [hk, Memory.insert, hak]
        · simp only [ne_eq, hk, not_false_eq_true, bne_iff_ne, List.filter_cons_of_pos, Memory.insert, hak, if_false, ih]
  by_cases hv : v = Config.unlistedByte
  · have e : Memory.write m a v = m.filter fun c => c.1 != a := by simp [Memory.write, hv]
    rw [e]; unfold Memory.write
    simp [List.filter_filter]
  · have e : Memory.write m a v = Memory.insert (m.filter fun c => c.1 != a) a v := by simp [Memory.write, hv]
    rw [e]; unfold Memory.write
    simp only [hf m]

@[simp] theorem State.store_store (s : State) (a : Word) (v w : Byte) : (s.store a v).store a w = s.store a w := by
  simp [State.store, Memory.write_write]

/-- A read-modify-write instruction: the byte read is `v`, the byte left is `f v` of a state that differs from the first
one in bookkeeping and at most in the write of the unmodified byte. -/
theorem rmwMemory_next {m : AddrMode} {s t : State} {f : Byte → State → Byte} {g : Byte → Byte → State → State}
    (hf : ∀ v (u w : State), u.P = w.P → f v u = f v w) (h : rmwMemory m s f g = .next t) :
    ∃ c tr d, t = (g (s.peek (addressed m s).addr) (f (s.peek (addressed m s).addr) s)
      ((s.store (addressed m s).addr (f (s.peek (addressed m s).addr) s)).quiet c tr d)).finish (AddrMode.rmwCycles m) := by
  obtain ⟨ea, s1, h1, h2⟩ := andThen_eq_next.1 h
  obtain ⟨rfl, c, tr, d, rfl⟩ := effectiveAddress_next h1
  obtain ⟨v, s2, h3, h4⟩ := andThen_eq_next.1 h2
  obtain ⟨rfl, c2, tr2, d2, rfl⟩ := memRead_next h3
  obtain ⟨_, s3, h5, h6⟩ := andThen_eq_next.1 h4
  obtain ⟨_, s4, h7, h8⟩ := andThen_eq_next.1 h6
  obtain ⟨c4, tr4, d4, rfl⟩ := memWrite_next h7
  obtain ⟨c3, tr3, d3, rfl | rfl⟩ := unmodifiedWrite_next h5
  · cases h8
    refine ⟨c4, tr4, d4, ?_⟩
    simp only [State.quiet_peek]
    rw [hf _ (((s.quiet c tr d).quiet c2 tr2 d2).quiet c3 tr3 d3) s rfl]; rfl
  · cases h8
    refine ⟨c4, tr4, d4, ?_⟩
    simp only [State.quiet_peek]
    rw [hf _ ((((s.quiet c tr d).quiet c2 tr2 d2).store (addressed m s).addr (s.peek (addressed m s).addr)).quiet c3 tr3 d3) s rfl]
    have e := State.store_store s (addressed m s).addr (s.peek (addressed m s).addr) (f (s.peek (addressed m s).addr) s)
    rw [← e]; rfl

theorem rmwMemory_plain {s : State} (h : s.PlainBus) (m : AddrMode) (f : Byte → State → Byte)
    (g : Byte → Byte → State → State) (hf : ∀ v (u w : State), u.P = w.P → f v u = f v w) :
    ∃ c tr d, rmwMemory m s f g = .next ((g (s.peek (addressed m s).addr) (f (s.peek (addressed m s).addr) s)
      ((s.store (addressed m s).addr (f (s.peek (addressed m s).addr) s)).quiet c tr d)).finish (AddrMode.rmwCycles m)) := by
  have hn : ∃ t, rmwMemory m s f g = .next t := by
    obtain ⟨c, tr, d, e1⟩ := effectiveAddress_plain h m
    obtain ⟨c2, tr2, d2, e2⟩ := memRead_plain (s := s.quiet c tr d) h (addressed m s).addr
    obtain ⟨c3, tr3, d3, e3 | e3⟩ := unmodifiedWrite_plain (s := (s.quiet c tr d).quiet c2 tr2 d2) h
      (addressed m s).addr ((s.quiet c tr d).peek (addressed m s).addr)
    · obtain ⟨c4, tr4, d4, e4⟩ := memWrite_plain (s := ((s.quiet c tr d).quiet c2 tr2 d2).quiet c3 tr3 d3) h
        (addressed m s).addr (f ((s.quiet c tr d).peek (addressed m s).addr) (((s.quiet c tr d).quiet c2 tr2 d2).quiet c3 tr3 d3))
      exact ⟨_, by simp only [rmwMemory, e1, e2, e3, e4, andThen_next]; rfl⟩
    · obtain ⟨c4, tr4, d4, e4⟩ := memWrite_plain (s := (((s.quiet c tr d).quiet c2 tr2 d2).store (addressed m s).addr
        ((s.quiet c tr d).peek (addressed m s).addr)).quiet c3 tr3 d3) h (addressed m s).addr
        (f ((s.quiet c tr d).peek (addressed m s).addr) ((((s.quiet c tr d).quiet c2 tr2 d2).store (addressed m s).addr
        ((s.quiet c tr d).peek (addressed m s).addr)).quiet c3 tr3 d3))
      exact ⟨_, by simp only [rmwMemory, e1, e2, e3, e4, andThen_next]; rfl⟩
  obtain ⟨t, ht⟩ := hn
  obtain ⟨c, tr, d, e⟩ := rmwMemory_next hf ht
  exact ⟨c, tr, d, by rw [ht, e]⟩

end Sys2Proof.Machine
end

