-- ==== Sys2Proof/Laws/Aborts.lean ====
section
/-! SUPPORT. A bus with abort regions: every shared operation does what it does without them, up to the first access that
aborts. -/

namespace Sys2Proof.Machine

/-- The region that aborts the first access of a list that any of the regions aborts. -/
def firstAbortIn (l : List BusAbort) (accesses : List BusAccess) : Option BusAbort :=
  accesses.findSome? fun a => l.find? fun b => b.aborts a

theorem State.firstAbort_eq (s : State) : s.firstAbort = firstAbortIn s.aborts := rfl

@[simp] theorem firstAbortIn_nil (l : List BusAbort) : firstAbortIn l [] = none := rfl

theorem firstAbortIn_append (l : List BusAbort) (p q : List BusAccess) :
    firstAbortIn l (p ++ q) = (firstAbortIn l p).or (firstAbortIn l q) := by
  simp [firstAbortIn, List.findSome?_append]

/-- What ends with a state: where the state is, and the outcome with other regions in it. -/
structure Carrier (τ : Type) where
  state : τ → State
  withAborts : τ → List BusAbort → τ

/-- An operation's value and state. -/
def Carrier.res (α : Type) : Carrier (α × State) where
  state := fun p => p.2
  withAborts := fun p l => (p.1, { p.2 with aborts := l })

/-- A state alone. -/
def Carrier.end : Carrier State where
  state := fun s => s
  withAborts := fun s l => { s with aborts := l }

/-- `x`, from `s` on a bus that aborts nothing, and `y`, from `s` with the regions `l`, agree up to the first abort. -/
def AgreesTo {τ : Type} (C : Carrier τ) (s : State) (l : List BusAbort) (x y : Host.Outcome τ Fault Refusal) : Prop :=
  match x with
  | .next t => ∃ accesses, (C.state t).trace = s.trace ++ accesses ∧ (C.state t).aborts = [] ∧
      (firstAbortIn l accesses = none → y = .next (C.withAborts t l)) ∧
      ∀ b, firstAbortIn l accesses = some b → ∃ n, y = .fault (.busFault b.msg n)
  | .fault _ => False
  | .refused r => y = .refused r ∨ ∃ b ∈ l, ∃ n, y = .fault (.busFault b.msg n)

/-- An operation agrees with itself under any regions. -/
def Agrees {τ : Type} (C : Carrier τ) (f : State → Host.Outcome τ Fault Refusal) : Prop :=
  ∀ (s : State) (l : List BusAbort), s.aborts = [] → AgreesTo C s l (f s) (f { s with aborts := l })

theorem firstAbortIn_mem {l : List BusAbort} {p : List BusAccess} {b : BusAbort} (h : firstAbortIn l p = some b) :
    b ∈ l := by
  obtain ⟨a, -, ha⟩ := List.exists_of_findSome?_eq_some h
  exact List.mem_of_find?_eq_some ha

/-- An operation that makes no access. -/
theorem AgreesTo.silent {τ : Type} {C : Carrier τ} {s : State} {l : List BusAbort} {t u : τ}
    (ht : (C.state t).trace = s.trace) (ha : (C.state t).aborts = []) (hu : u = C.withAborts t l) :
    AgreesTo C s l (.next t) (.next u) :=
  ⟨[], by simp [ht], ha, fun _ => by rw [hu], fun b h => by simp at h⟩

theorem AgreesTo.refused {τ : Type} {C : Carrier τ} {s : State} {l : List BusAbort} (r : Refusal) :
    AgreesTo C s l (.refused r) (.refused r) := .inl rfl

/-- Sequencing: accesses follow one another, and nothing follows an abort. -/
theorem AgreesTo.andThen {α τ : Type} {C : Carrier τ} {s : State} {l : List BusAbort} {x y : Res α}
    {k : α → State → Host.Outcome τ Fault Refusal} (hx : AgreesTo (.res α) s l x y)
    (hk : ∀ v, Agrees C (k v)) : AgreesTo C s l (andThen x k) (andThen y k) := by
  cases x with
  | fault f => exact hx.elim
  | refused r =>
    rcases hx with rfl | ⟨b, hb, n, rfl⟩
    · exact .inl rfl
    · exact .inr ⟨b, hb, n, rfl⟩
  | next p =>
    obtain ⟨v, s1⟩ := p
    obtain ⟨acc, htr, hab, hn, hs⟩ := hx
    have htr : s1.trace = s.trace ++ acc := htr
    have h2 := hk v s1 l hab
    simp only [andThen_next]
    cases hfa : firstAbortIn l acc with
    | none =>
      rw [hn hfa]
      show AgreesTo C s l (k v s1) (k v { s1 with aborts := l })
      revert h2
      cases k v s1 with
      | fault f => exact fun h => h.elim
      | refused r => exact fun h => h
      | next t =>
        rintro ⟨acc', htr', hab', hn', hs'⟩
        refine ⟨acc ++ acc', by rw [htr', htr, List.append_assoc], hab', ?_, ?_⟩
        · intro h; apply hn'; simpa [firstAbortIn_append, hfa] using h
        · intro b h; apply hs'; simpa [firstAbortIn_append, hfa] using h
    | some b =>
      obtain ⟨n, rfl⟩ := hs b hfa
      revert h2
      cases k v s1 with
      | fault f => exact fun h => h.elim
      | refused r => exact fun _ => .inr ⟨b, firstAbortIn_mem hfa, n, rfl⟩
      | next t =>
        rintro ⟨acc', htr', hab', -, -⟩
        refine ⟨acc ++ acc', by rw [htr', htr, List.append_assoc], hab', ?_, ?_⟩
        · intro h; simp [firstAbortIn_append, hfa] at h
        · intro b' h
          obtain rfl : b = b' := by simpa [firstAbortIn_append, hfa] using h
          exact ⟨n, rfl⟩

theorem Agrees.andThen {α τ : Type} {C : Carrier τ} {f : State → Res α} {k : α → State → Host.Outcome τ Fault Refusal}
    (hf : Agrees (.res α) f) (hk : ∀ v, Agrees C (k v)) : Agrees C fun s => Machine.andThen (f s) k :=
  fun s l h => (hf s l h).andThen hk

/-- An operation after a change of the state that keeps the record of accesses and the regions. -/
theorem Agrees.after {τ : Type} {C : Carrier τ} {f : State → Host.Outcome τ Fault Refusal} (hf : Agrees C f)
    (u : State → State) (ht : ∀ s, (u s).trace = s.trace)
    (hu : ∀ (s : State) l, u { s with aborts := l } = { u s with aborts := l }) : Agrees C fun s => f (u s) := by
  intro s l h
  have ha : (u s).aborts = [] := by
    have e := hu s []
    rw [show ({ s with aborts := [] } : State) = s by rw [← h]] at e
    rw [e]
  have := hf (u s) l ha
  rw [← hu] at this
  unfold AgreesTo at this ⊢
  rw [ht] at this
  exact this

/-- A value and a state that change the record of accesses and the regions in nothing. -/
theorem Agrees.next {α : Type} (v : State → α) (u : State → State) (ht : ∀ s, (u s).trace = s.trace)
    (hv : ∀ (s : State) l, v { s with aborts := l } = v s)
    (hu : ∀ (s : State) l, u { s with aborts := l } = { u s with aborts := l }) :
    Agrees (.res α) fun s => .next (v s, u s) := by
  intro s l h
  refine .silent (ht s) ?_ (by rw [hv, hu]; rfl)
  have e := hu s []
  rw [show ({ s with aborts := [] } : State) = s by rw [← h]] at e
  show (u s).aborts = []
  rw [e]

/-- The end of an instruction that makes no access. -/
theorem Agrees.stop (u : State → State) (ht : ∀ s, (u s).trace = s.trace)
    (hu : ∀ (s : State) l, u { s with aborts := l } = { u s with aborts := l }) : Agrees .end fun s => .next (u s) := by
  intro s l h
  refine .silent (ht s) ?_ (hu s l)
  have e := hu s []
  rw [show ({ s with aborts := [] } : State) = s by rw [← h]] at e
  show (u s).aborts = []
  rw [e]

/-! The bus. -/

theorem busRead_agrees (a : Word) : Agrees (.res Byte) (busRead a) := by
  intro s l h
  simp only [busRead, h, List.find?_nil]
  refine ⟨[.read a (s.peek a)], rfl, rfl, ?_, ?_⟩
  · intro hf
    have : l.find? (fun b => b.abortsRead a) = none := by simpa [firstAbortIn, BusAbort.aborts] using hf
    rw [this]; rfl
  · intro b hf
    have : l.find? (fun b => b.abortsRead a) = some b := by simpa [firstAbortIn, BusAbort.aborts] using hf
    rw [this]; exact ⟨_, rfl⟩

theorem busWrite_agrees (a : Word) (v : Byte) : Agrees (.res Unit) (busWrite a v) := by
  intro s l h
  simp only [busWrite, h, List.find?_nil]
  refine ⟨[.write a v], rfl, rfl, ?_, ?_⟩
  · intro hf
    have : l.find? (fun b => b.abortsWrite a v) = none := by simpa [firstAbortIn, BusAbort.aborts] using hf
    rw [this]; rfl
  · intro b hf
    have : l.find? (fun b => b.abortsWrite a v) = some b := by simpa [firstAbortIn, BusAbort.aborts] using hf
    rw [this]; exact ⟨_, rfl⟩

theorem dummyReads_agrees (l : List Word) : Agrees (.res Unit) (dummyReads l) := by
  induction l with
  | nil => exact .next _ _ (fun _ => rfl) (fun _ _ => rfl) fun _ _ => rfl
  | cons a rest ih => exact (busRead_agrees a).andThen fun _ => ih

theorem extraAccesses_agrees : Agrees (.res Unit) extraAccesses := by
  intro s l h
  unfold extraAccesses
  cases s.params.busTrace with
  | functional => exact .silent rfl h rfl
  | unspecified =>
    exact (dummyReads_agrees (Config.extraReads s.draws)) { s with draws := s.draws + 1 } l h

theorem memRead_agrees (a : Word) : Agrees (.res Byte) (memRead a) := extraAccesses_agrees.andThen fun _ => busRead_agrees a

theorem memWrite_agrees (a : Word) (v : Byte) : Agrees (.res Unit) (memWrite a v) :=
  extraAccesses_agrees.andThen fun _ => busWrite_agrees a v

/-! Fetching, vectors, the stack and interrupts. -/

theorem fetch_agrees : Agrees (.res Byte) fetch := by
  intro s l h
  exact (memRead_agrees s.PC s l h).andThen fun _ => .next _ _ (fun _ => rfl) (fun _ _ => rfl) fun _ _ => rfl

theorem readVector_agrees (v : Word) : Agrees (.res Word) (readVector v) :=
  (memRead_agrees v).andThen fun _ => (memRead_agrees (v + 1)).andThen fun _ =>
    .next _ _ (fun _ => rfl) (fun _ _ => rfl) fun _ _ => rfl

theorem push_agrees (v : Byte) : Agrees (.res Unit) (push v) := by
  intro s l h
  exact (memWrite_agrees (stackAddress s.S) v s l h).andThen fun _ =>
    .next _ (fun s1 => { s1 with S := s1.S - 1 }) (fun _ => rfl) (fun _ _ => rfl) fun _ _ => rfl

theorem pull_agrees : Agrees (.res Byte) pull := by
  intro s l h
  exact memRead_agrees (stackAddress (s.S + 1)) { s with S := s.S + 1 } l h

theorem pushWord_agrees (w : Word) : Agrees (.res Unit) (pushWord w) :=
  (push_agrees (highByte w)).andThen fun _ => push_agrees (lowByte w)

theorem pullWord_agrees : Agrees (.res Word) pullWord :=
  pull_agrees.andThen fun _ => pull_agrees.andThen fun _ => .next _ _ (fun _ => rfl) (fun _ _ => rfl) fun _ _ => rfl

theorem enterInterrupt_agrees (status : Byte) (vector : Word) : Agrees (.res Unit) (enterInterrupt status vector) := by
  intro s l h
  exact (pushWord_agrees s.PC s l h).andThen fun _ => (push_agrees status).andThen fun _ =>
    ((readVector_agrees vector).after (fun s => s.setI true) (fun _ => rfl) fun _ _ => rfl).andThen fun w =>
      .next _ (fun s3 => { s3 with PC := w }) (fun _ => rfl) (fun _ _ => rfl) fun _ _ => rfl

theorem pullStatus_agrees : Agrees (.res Unit) pullStatus :=
  pull_agrees.andThen fun v =>
    .next _ (fun s1 => { s1 with P := statusPulled v }) (fun _ => rfl) (fun _ _ => rfl) fun _ _ => rfl

theorem returnFromInterrupt_agrees : Agrees (.res Unit) returnFromInterrupt :=
  pullStatus_agrees.andThen fun _ => pullWord_agrees.andThen fun w =>
    .next _ (fun s2 => { s2 with PC := w }) (fun _ => rfl) (fun _ _ => rfl) fun _ _ => rfl

/-! The addressing modes and the classes. -/

theorem finishAfter_agrees {f : State → Res Unit} (hf : Agrees (.res Unit) f) (n : Nat) :
    Agrees .end fun s => finishAfter (f s) n :=
  hf.andThen fun _ => .stop (fun s => s.finish n) (fun _ => rfl) fun _ _ => rfl

theorem readPointer_agrees (p : Byte) : Agrees (.res Word) (readPointer p) :=
  (memRead_agrees (zeroExtend16 p)).andThen fun _ => (memRead_agrees (zeroExtend16 (p + 1))).andThen fun _ =>
    .next _ _ (fun _ => rfl) (fun _ _ => rfl) fun _ _ => rfl

theorem effectiveAddress_agrees (m : AddrMode) : Agrees (.res EffectiveAddress) (effectiveAddress m) := by
  cases m with
  | indx a =>
    intro s l h
    exact (readPointer_agrees (a + s.X) s l h).andThen fun w => .next (fun _ => unindexed w) _ (fun _ => rfl) (fun _ _ => rfl) fun _ _ => rfl
  | indy a =>
    exact (readPointer_agrees a).andThen fun w =>
      .next (fun s1 => indexed w s1.Y) _ (fun _ => rfl) (fun _ _ => rfl) fun _ _ => rfl
  | zp a => exact .next (fun _ => unindexed (zeroExtend16 a)) _ (fun _ => rfl) (fun _ _ => rfl) fun _ _ => rfl
  | zpx a => exact .next (fun s => unindexed (zeroExtend16 (a + s.X))) _ (fun _ => rfl) (fun _ _ => rfl) fun _ _ => rfl
  | zpy a => exact .next (fun s => unindexed (zeroExtend16 (a + s.Y))) _ (fun _ => rfl) (fun _ _ => rfl) fun _ _ => rfl
  | abs a => exact .next (fun _ => unindexed a) _ (fun _ => rfl) (fun _ _ => rfl) fun _ _ => rfl
  | absx a => exact .next (fun s => indexed a s.X) _ (fun _ => rfl) (fun _ _ => rfl) fun _ _ => rfl
  | absy a => exact .next (fun s => indexed a s.Y) _ (fun _ => rfl) (fun _ _ => rfl) fun _ _ => rfl

theorem readOperand_agrees (o : ReadOperand) : Agrees (.res (Byte × Bool)) (readOperand o) := by
  cases o with
  | imm v => exact .next (fun _ => (v, false)) _ (fun _ => rfl) (fun _ _ => rfl) fun _ _ => rfl
  | mem m =>
    exact (effectiveAddress_agrees m).andThen fun ea => (memRead_agrees ea.addr).andThen fun v =>
      .next (fun _ => (v, ea.cross)) _ (fun _ => rfl) (fun _ _ => rfl) fun _ _ => rfl

/-- A read-class instruction whose work touches neither the record of accesses nor the regions. -/
theorem readClass_agrees (o : ReadOperand) {f : Byte → State → State} (ht : ∀ v s, (f v s).trace = s.trace)
    (hu : ∀ v (s : State) l, f v { s with aborts := l } = { f v s with aborts := l }) :
    Agrees .end fun s => readClass o s f :=
  (readOperand_agrees o).andThen fun r =>
    .stop (fun s => (f r.1 s).finish (ReadOperand.readCycles o + crossPenalty r.2)) (ht r.1)
      fun s l => by rw [hu]; rfl

theorem writeClass_agrees (m : AddrMode) {v : State → Byte}
    (hv : ∀ (s : State) l, v { s with aborts := l } = v s) : Agrees .end fun s => writeClass m s (v s) := by
  intro s l h
  have hf : Agrees .end fun s' => writeClass m s' (v s) :=
    (effectiveAddress_agrees m).andThen fun ea => finishAfter_agrees (memWrite_agrees ea.addr (v s)) _
  simp only [hv]
  exact hf s l h

theorem unmodifiedWrite_agrees (a : Word) (v : Byte) : Agrees (.res Unit) (unmodifiedWrite a v) := by
  intro s l h
  unfold unmodifiedWrite
  cases s.params.busTrace with
  | functional => exact .silent rfl h rfl
  | unspecified =>
    show AgreesTo _ s l (if Config.rmwWritesTwice s.draws then _ else _) (if Config.rmwWritesTwice s.draws then _ else _)
    split
    · exact memWrite_agrees a v { s with draws := s.draws + 1 } l h
    · exact .silent rfl h rfl

theorem rmwMemory_agrees (m : AddrMode) {f : Byte → State → Byte} {g : Byte → Byte → State → State}
    (hf : ∀ v (s : State) l, f v { s with aborts := l } = f v s) (ht : ∀ v r s, (g v r s).trace = s.trace)
    (hg : ∀ v r (s : State) l, g v r { s with aborts := l } = { g v r s with aborts := l }) :
    Agrees .end fun s => rmwMemory m s f g := by
  refine (effectiveAddress_agrees m).andThen fun ea => (memRead_agrees ea.addr).andThen fun v =>
    (unmodifiedWrite_agrees ea.addr v).andThen fun _ => ?_
  intro s l h
  have hw := fun r => (memWrite_agrees ea.addr r).andThen (C := .end) fun _ =>
    .stop (fun s4 => (g v r s4).finish (AddrMode.rmwCycles m)) (ht v r) fun s l => by rw [hg]; rfl
  simp only [hf]
  exact hw (f v s) s l h

/-! Admission, and from agreement to the claim. -/

theorem whenNopAdmitted_agrees {τ : Type} {C : Carrier τ} {f : State → Host.Outcome τ Fault Refusal} (hf : Agrees C f) :
    Agrees C fun s => whenNopAdmitted s (f s) := by
  intro s l h
  have := hf s l h
  simp only [whenNopAdmitted]
  split
  · exact .refused _
  · exact this
  · exact this

theorem whenNmosAdmitted_agrees {τ : Type} {C : Carrier τ} {f : State → Host.Outcome τ Fault Refusal} (hf : Agrees C f) :
    Agrees C fun s => whenNmosAdmitted s (f s) := by
  intro s l h
  have := hf s l h
  simp only [whenNmosAdmitted]
  split
  · exact .refused _
  · exact .refused _
  · exact this

/-- An operation that agrees with itself under any regions ends at the first access that aborts. -/
theorem Agrees.endsAtFirstAbort {f : State → Host.Outcome State Fault Refusal} (hf : Agrees .end f) (s : State) :
    EndsAtFirstAbort f s s.accessesSince := by
  have h := hf s.withoutAborts s.aborts rfl
  change AgreesTo .end s.withoutAborts s.aborts (f s.withoutAborts) (f s) at h
  refine ⟨fun t ht => ?_, fun r hr => ?_, fun e he => ?_⟩
  · rw [ht] at h
    obtain ⟨acc, htr, -, hn, hs⟩ := h
    have e : s.accessesSince t = acc := by
      have htr : t.trace = s.trace ++ acc := htr
      simp [State.accessesSince, htr]
    rw [e, State.firstAbort_eq]
    exact ⟨hn, hs⟩
  · rw [hr] at h; exact h
  · rw [he] at h; exact h

end Sys2Proof.Machine
end

