-- ==== Sys2Proof/Laws/Results.lean ====
section
/-! SUPPORT. The terms of Safety met by the shared operations: closed forms of addresses, the status register after flag
writes, bytes after stores, and how an instruction of one class completes. -/

namespace Sys2Proof.Machine

/-! Bytes of words and addresses. -/

theorem highByte_toNat (w : Word) : (highByte w).toNat = w.toNat / 256 := by
  have hw := w.isLt
  simp only [highByte, BitVec.toNat_setWidth, BitVec.toNat_ushiftRight, Nat.shiftRight_eq_div_pow]; omega

theorem lowByte_toNat (w : Word) : (lowByte w).toNat = w.toNat % 256 := by simp [lowByte]

theorem wordOf_toNat (h l : Byte) : (wordOf h l).toNat = h.toNat * 256 + l.toNat := by
  have hh := h.isLt
  have hl := l.isLt
  have e1 : (h.toNat % 2 ^ 16) <<< 8 % 2 ^ 16 = h.toNat <<< 8 := by rw [Nat.shiftLeft_eq, Nat.shiftLeft_eq]; omega
  have e2 : l.toNat % 2 ^ 16 = l.toNat := by omega
  rw [wordOf, BitVec.toNat_or, BitVec.toNat_shiftLeft, BitVec.toNat_setWidth, BitVec.toNat_setWidth, e1, e2,
    ← Nat.shiftLeft_add_eq_or_of_lt (by omega), Nat.shiftLeft_eq]

@[simp] theorem wordOf_highByte_lowByte (w : Word) : wordOf (highByte w) (lowByte w) = w := by
  have hw := w.isLt
  apply BitVec.eq_of_toNat_eq
  rw [wordOf_toNat, highByte_toNat, lowByte_toNat]; omega

theorem indexed_addr (b : Word) (i : Byte) : (indexed b i).addr = b + zeroExtend16 i := by
  have hb := b.isLt
  have hi := i.isLt
  apply BitVec.eq_of_toNat_eq
  simp only [indexed, wordOf_toNat, highByte_toNat, lowByte_toNat, zeroExtend16, BitVec.toNat_ofNat, BitVec.toNat_add,
    BitVec.toNat_setWidth]
  omega

theorem indexed_cross (b : Word) (i : Byte) :
    (indexed b i).cross = (highByte (b + zeroExtend16 i) != highByte b) := by
  have hb := b.isLt
  have hi := i.isLt
  rw [Bool.eq_iff_iff]
  simp only [indexed, bne_iff_ne, ne_eq, ← BitVec.toNat_inj, highByte_toNat, lowByte_toNat, zeroExtend16,
    BitVec.toNat_add, BitVec.toNat_setWidth]
  omega

theorem addressed_addr (m : AddrMode) (s : State) : (addressed m s).addr = AddrMode.address m s := by
  cases m <;> simp [addressed, AddrMode.address, unindexed, indexed_addr]

theorem addressed_cross (m : AddrMode) (s : State) : (addressed m s).cross = AddrMode.crossesPage m s := by
  cases m <;>
    simp [addressed, AddrMode.crossesPage, AddrMode.address, AddrMode.baseAddress, unindexed, indexed_cross]

theorem addressed_base (m : AddrMode) (s : State) : (addressed m s).base = AddrMode.baseAddress m s := by
  cases m <;> rfl

theorem operandRead_value (o : ReadOperand) (s : State) : (operandRead o s).1 = ReadOperand.value o s := by
  cases o <;> simp [operandRead, ReadOperand.value, AddrMode.byte, addressed_addr]

/-! Cycles: the model's tables hold the columns of R124. -/

theorem readCycles_eq {c : ModeCycles}
    (hc : c = { zp := 3, zpx := 4, zpy := 4, abs := 4, absx := 4, absy := 4, indx := 6, indy := 5 }) (m : AddrMode) :
    AddrMode.readCycles m = c.base m := by subst hc; cases m <;> rfl

theorem writeCycles_eq {c : ModeCycles}
    (hc : c = { zp := 3, zpx := 4, zpy := 4, abs := 4, absx := 5, absy := 5, indx := 6, indy := 6 }) (m : AddrMode) :
    AddrMode.writeCycles m = c.base m := by subst hc; cases m <;> rfl

theorem rmwCycles_eq {c : ModeCycles}
    (hc : c = { zp := 5, zpx := 6, zpy := 6, abs := 6, absx := 7, absy := 7, indx := 8, indy := 8 }) (m : AddrMode) :
    AddrMode.rmwCycles m = c.base m := by subst hc; cases m <;> rfl

theorem operandRead_cycles {c : ModeCycles}
    (hc : c = { zp := 3, zpx := 4, zpy := 4, abs := 4, absx := 4, absy := 4, indx := 6, indy := 5 })
    (o : ReadOperand) (s : State) :
    ReadOperand.readCycles o + crossPenalty (operandRead o s).2 = ReadOperand.cycles c o s := by
  cases o <;>
    simp [operandRead, ReadOperand.cycles, ReadOperand.readCycles, ModeCycles.read, readCycles_eq hc, crossPenalty,
      addressed_cross]

/-! The status register. -/

theorem setNZ_status (s : State) (v : Byte) : (s.setNZ v).P = s.statusNZ v := by
  have h : ∀ (p : Byte) (n z : Bool), setBit (setBit p 7 n) 1 z =
      statusWith p n (p.getLsbD 6) (p.getLsbD 3) (p.getLsbD 2) z (p.getLsbD 0) := by decide
  exact h ..

theorem statusWith_setNZ_after_C : ∀ (p : Byte) (n z c : Bool), setBit (setBit (setBit p 0 c) 7 n) 1 z =
    statusWith p n (p.getLsbD 6) (p.getLsbD 3) (p.getLsbD 2) z c := by decide

theorem statusWith_setC_after_NZ : ∀ (p : Byte) (n z c : Bool), setBit (setBit (setBit p 7 n) 1 z) 0 c =
    statusWith p n (p.getLsbD 6) (p.getLsbD 3) (p.getLsbD 2) z c := by decide

theorem statusWith_setNVZ : ∀ (p : Byte) (n v z : Bool), setBit (setBit (setBit p 7 n) 6 v) 1 z =
    statusWith p n v (p.getLsbD 3) (p.getLsbD 2) z (p.getLsbD 0) := by decide

theorem statusWith_setC_after_NVZ : ∀ (p : Byte) (n v z c : Bool),
    setBit (setBit (setBit (setBit p 7 n) 6 v) 1 z) 0 c = statusWith p n v (p.getLsbD 3) (p.getLsbD 2) z c := by decide

theorem statusWith_setNVZ_after_C : ∀ (p : Byte) (n v z c : Bool),
    setBit (setBit (setBit (setBit p 0 c) 7 n) 6 v) 1 z = statusWith p n v (p.getLsbD 3) (p.getLsbD 2) z c := by decide

theorem statusWith_setI : ∀ (p : Byte) (b : Bool), setBit p 2 b =
    statusWith p (p.getLsbD 7) (p.getLsbD 6) (p.getLsbD 3) b (p.getLsbD 1) (p.getLsbD 0) := by decide

theorem rolByte_eq : ∀ (v : Byte) (c : Bool), rolByte v c = v <<< 1 ||| (if c then 0x01 else 0x00) := by decide

theorem rorByte_eq : ∀ (v : Byte) (c : Bool), rorByte v c = v >>> 1 ||| (if c then 0x80 else 0x00) := by decide

/-- Every bit other than N, V, Z and C stays through an addition or subtraction. -/
theorem addResult_getLsbD (s : State) (bin : AluResult) (dec : Byte × Bool) (k : Nat) (hk : k ∉ [7, 6, 1, 0]) :
    (s.addResult bin dec).P.getLsbD k = s.P.getLsbD k := by
  simp only [List.mem_cons, List.not_mem_nil, or_false, not_or] at hk
  unfold State.addResult State.setDecimalNVZ
  split
  · split <;> simp [hk]
  · simp [hk]

/-- An addition or subtraction writes A, P and (for its draws) the draw counter alone. -/
theorem addResult_frame (s : State) (bin : AluResult) (dec : Byte × Bool) :
    ∃ a p d, s.addResult bin dec = { s with A := a, P := p, draws := d } := by
  unfold State.addResult State.setDecimalNVZ
  split
  · split <;> exact ⟨_, _, _, rfl⟩
  · exact ⟨_, _, _, rfl⟩

/-! Bytes after stores. -/

theorem peek_store_one (s : State) (a : Word) (v : Byte) (b : Word) :
    (s.store a v).peek b = s.peekAfter [(a, v)] b := by rw [State.peek_store]; rfl

theorem peek_store_two (s : State) (a a' : Word) (v v' : Byte) (b : Word) :
    ((s.store a v).store a' v').peek b = s.peekAfter [(a', v'), (a, v)] b := by
  rw [State.peek_store, State.peek_store]; rfl

theorem peek_store_three (s : State) (a a' a'' : Word) (v v' v'' : Byte) (b : Word) :
    (((s.store a v).store a' v').store a'' v'').peek b = s.peekAfter [(a'', v''), (a', v'), (a, v)] b := by
  rw [State.peek_store, State.peek_store, State.peek_store]; rfl

/-! How an instruction completes, by its class. -/

theorem Completes.of_finish {i : Instr} {s : State} {n : Nat} {e : After} (t : State)
    (hx : exec i s = .next (t.finish n)) (hl : s.Leaves t e) : Completes i s n e := ⟨_, hx, hl, rfl, rfl⟩

theorem Completes.of_readClass {i : Instr} {o : ReadOperand} {s : State} {e : After} {c : ModeCycles}
    (hc : c = { zp := 3, zpx := 4, zpy := 4, abs := 4, absx := 4, absy := 4, indx := 6, indy := 5 }) (h : s.PlainBus)
    (f : Byte → State → State) (hx : exec i s = readClass o s f)
    (hl : ∀ c tr d, s.Leaves (f (ReadOperand.value o s) (s.quiet c tr d)) e) :
    Completes i s (ReadOperand.cycles c o s) e := by
  obtain ⟨n, tr, d, e1⟩ := readClass_plain h o f
  rw [operandRead_value, operandRead_cycles hc] at e1
  exact ⟨_, hx.trans e1, hl n tr d, rfl, rfl⟩

theorem Completes.of_writeClass {i : Instr} {m : AddrMode} {s : State} {v : Byte} {c : ModeCycles}
    (hc : c = { zp := 3, zpx := 4, zpy := 4, abs := 4, absx := 5, absy := 5, indx := 6, indy := 6 }) (h : s.PlainBus)
    (hx : exec i s = writeClass m s v) :
    Completes i s (c.base m) { s.unchanged with stored := [(AddrMode.address m s, v)] } := by
  obtain ⟨n, tr, d, e⟩ := writeClass_plain h m v
  rw [addressed_addr, writeCycles_eq hc] at e
  exact ⟨_, hx.trans e, ⟨rfl, rfl, rfl, rfl, rfl, rfl, fun b => peek_store_one .., rfl, rfl, rfl⟩, rfl, rfl⟩

/-- What a read-modify-write instruction answers on a plain bus, the byte read being `v` and the byte left `r`. -/
theorem rmwMemory_completes {m : AddrMode} {s : State} {f : Byte → State → Byte} {g : Byte → Byte → State → State}
    {v r : Byte} {c : ModeCycles}
    (hc : c = { zp := 5, zpx := 6, zpy := 6, abs := 6, absx := 7, absy := 7, indx := 8, indy := 8 }) (h : s.PlainBus)
    (hf : ∀ v (u w : State), u.P = w.P → f v u = f v w) (hv : v = AddrMode.byte m s) (hr : r = f v s) : ∃ n tr d, rmwMemory m s f g =
      .next ((g v r ((s.store (AddrMode.address m s) r).quiet n tr d)).finish (c.base m)) := by
  subst hv hr
  obtain ⟨n, tr, d, e⟩ := rmwMemory_plain h m f g hf
  rw [addressed_addr, rmwCycles_eq hc] at e
  exact ⟨n, tr, d, e⟩

end Sys2Proof.Machine
end

