-- ==== Sys2Proof/Laws/Fetch.lean ====
section
/-! SUPPORT. Decoding a word of operand bytes, placing and fetching an instruction, and what a completed Step was. -/

namespace Sys2Proof.Machine

/-- Decoding an opcode and the two bytes of a word. -/
theorem decode_wordBytes (op : Byte) (w : Word) (rest : List Byte) :
    decode (op :: (wordBytes w ++ rest)) = match decodeOpcode op with
      | .none i => .ok (i, wordBytes w ++ rest)
      | .byte f => .ok (f (lowByte w), highByte w :: rest)
      | .word f => .ok (f w, rest) := by
  cases h : decodeOpcode op <;> simp [decode, h, wordBytes]

/-- Placing bytes keeps the canonical form. -/
theorem wf_placeBytes {m : Memory} {a : Word} (l : List Byte) (h : Memory.wf m = true) :
    Memory.wf (placeBytes m a l) = true := by
  induction l generalizing m a with
  | nil => exact h
  | cons b rest ih => exact ih (Memory.wf_write_word a b h)

/-- The instruction that the opcode and the two bytes after it give. -/
def Shape.instr (sh : Shape) (b c : Byte) : Instr :=
  match sh with
  | .none i => i
  | .byte f => f b
  | .word f => f (wordOf c b)

theorem decode_three (op b c : Byte) :
    decode [op, b, c] = .ok (Shape.instr (decodeOpcode op) b c, [b, c].drop (decodeOpcode op).operandBytes) := by
  cases h : decodeOpcode op <;> simp [decode, h, Shape.instr, Shape.operandBytes]

theorem whenAdmitted_next {τ : Type} {row : RowProfile} {s : State} {x : Host.Outcome τ Fault Refusal} {t : τ}
    (h : whenAdmitted row s x = .next t) : x = .next t := by
  cases row <;> simp only [whenAdmitted] at h
  · exact h
  · exact h
  · exact h
  · exact (whenNopAdmitted_next h).2
  · exact (whenNmosAdmitted_next h).2

theorem fetchOperands_next {sh : Shape} {s t : State} {i : Instr} (h : fetchOperands sh s = .next (i, t)) :
    i = Shape.instr sh (s.peek s.PC) (s.peek (s.PC + 1)) ∧
      ∃ c tr d, t = { s with PC := s.PC + BitVec.ofNat 16 sh.operandBytes }.quiet c tr d := by
  cases sh with
  | none j => cases h; exact ⟨rfl, s.cycles, s.trace, s.draws, by simp [Shape.operandBytes, State.quiet]⟩
  | byte f =>
    simp only [fetchOperands] at h
    obtain ⟨b, s1, h1, h2⟩ := andThen_eq_next.1 h
    obtain ⟨rfl, c, tr, d, rfl⟩ := fetch_next h1
    cases h2; exact ⟨rfl, c, tr, d, rfl⟩
  | word f =>
    simp only [fetchOperands] at h
    obtain ⟨lo, s1, h1, h2⟩ := andThen_eq_next.1 h
    obtain ⟨rfl, c, tr, d, rfl⟩ := fetch_next h1
    obtain ⟨hi, s2, h3, h4⟩ := andThen_eq_next.1 h2
    obtain ⟨rfl, c', tr', d', rfl⟩ := fetch_next h3
    cases h4
    refine ⟨rfl, c', tr', d', ?_⟩
    rw [Shape.operandBytes, show s.PC + BitVec.ofNat 16 2 = s.PC + 1 + 1 by bv_omega]; rfl

theorem fetchInstr_next {s t : State} {i : Instr} (h : fetchInstr s = .next (i, t)) :
    i = Shape.instr (decodeOpcode (s.peek s.PC)) (s.peek (s.PC + 1)) (s.peek (s.PC + 2)) ∧
      ∃ c tr d, t =
        { s with PC := s.PC + BitVec.ofNat 16 ((decodeOpcode (s.peek s.PC)).operandBytes + 1) }.quiet c tr d := by
  obtain ⟨op, s1, h1, h2⟩ := andThen_eq_next.1 h
  obtain ⟨rfl, c, tr, d, rfl⟩ := fetch_next h1
  obtain ⟨rfl, c', tr', d', rfl⟩ := fetchOperands_next (whenAdmitted_next h2)
  have e : ∀ n, s.PC + BitVec.ofNat 16 (n + 1) = s.PC + 1 + BitVec.ofNat 16 n := by
    intro n; apply BitVec.eq_of_toNat_eq; simp; omega
  refine ⟨?_, c', tr', d', by rw [e]; rfl⟩
  rw [show s.PC + 2 = s.PC + 1 + 1 by bv_omega]; rfl

/-- A completed Step of a running core executed the instruction at PC, with PC past its bytes. -/
theorem step_next {s t : State} (hh : s.halted = false) (h : step s = .next t) :
    ∃ i rest c tr d, s.Fetches i rest ∧
      exec i ({ s with PC := s.PC + BitVec.ofNat 16 (3 - rest.length) }.quiet c tr d) = .next t := by
  rw [step, if_neg (by simp [hh])] at h
  obtain ⟨i, s1, h1, h2⟩ := andThen_eq_next.1 h
  obtain ⟨rfl, c, tr, d, rfl⟩ := fetchInstr_next h1
  refine ⟨_, _, c, tr, d, decode_three .., ?_⟩
  have hn : ∀ sh : Shape, ∀ b c : Byte, 3 - ([b, c].drop sh.operandBytes).length = sh.operandBytes + 1 := by
    intro sh b c; cases sh <;> rfl
  rw [hn]
  exact h2

end Sys2Proof.Machine
end

