-- ==== Sys2Proof/Laws/Functional.lean ====
section
/-! SUPPORT. The shared operations on the plain bus under `BUS_TRACE = functional`: exactly the accesses the rules list,
and no draw. -/

namespace Sys2Proof.Machine

/-- The plain bus with the functional trace. -/
structure State.Functional (s : State) : Prop where
  plain : s.PlainBus
  trace : s.params.busTrace = .functional

/-- The state after accesses that wrote nothing: each has ticked the counter and stands in the record. -/
def State.made (s : State) (l : List BusAccess) : State := s.quiet (s.cycles + l.length) (s.trace ++ l) s.draws

@[simp] theorem State.made_trace (s : State) (l : List BusAccess) : (s.made l).trace = s.trace ++ l := rfl
@[simp] theorem State.made_peek (s : State) (l : List BusAccess) (a : Word) : (s.made l).peek a = s.peek a := rfl
@[simp] theorem State.made_nil (s : State) : s.made [] = s := by simp [State.made, State.quiet]
@[simp] theorem State.made_made (s : State) (l l' : List BusAccess) : (s.made l).made l' = s.made (l ++ l') := by
  simp [State.made, State.quiet, Nat.add_assoc]

theorem State.Functional.made {s : State} (h : s.Functional) (l : List BusAccess) : (s.made l).Functional := ⟨h.1, h.2⟩

theorem memRead_made {s : State} (h : s.Functional) (a : Word) :
    memRead a s = .next (s.peek a, s.made [.read a (s.peek a)]) := by
  rw [memRead_functional h.2, busRead_plain h.1]; rfl

theorem memWrite_made {s : State} (h : s.Functional) (a : Word) (v : Byte) :
    memWrite a v s = .next ((), (s.store a v).made [.write a v]) := by
  rw [memWrite_functional h.2, busWrite_plain h.1]; rfl

theorem fetch_made {s : State} (h : s.Functional) :
    fetch s = .next (s.peek s.PC, { s with PC := s.PC + 1 }.made [.read s.PC (s.peek s.PC)]) := by
  rw [fetch, memRead_made h]; rfl

theorem readVector_made {s : State} (h : s.Functional) (v : Word) :
    readVector v s = .next (wordOf (s.peek (v + 1)) (s.peek v),
      s.made [.read v (s.peek v), .read (v + 1) (s.peek (v + 1))]) := by
  rw [readVector, memRead_made h, andThen_next, memRead_made (h.made _), andThen_next, State.made_made]; rfl

theorem push_made {s : State} (h : s.Functional) (v : Byte) :
    push v s = .next ((), ({ s with S := s.S - 1 }.store (stackAddress s.S) v).made [pushAccess s.S v]) := by
  rw [push, memWrite_made h]; rfl

theorem pull_made {s : State} (h : s.Functional) :
    pull s = .next (s.peek (stackAddress (s.S + 1)), { s with S := s.S + 1 }.made [s.pullAccess (s.S + 1)]) :=
  memRead_made (s := { s with S := s.S + 1 }) ⟨h.1, h.2⟩ _

theorem pushWord_made {s : State} (h : s.Functional) (w : Word) :
    pushWord w s = .next ((), (({ s with S := s.S - 1 - 1 }.store (stackAddress s.S) (highByte w)).store
      (stackAddress (s.S - 1)) (lowByte w)).made [pushAccess s.S (highByte w), pushAccess (s.S - 1) (lowByte w)]) := by
  rw [pushWord, push_made h, andThen_next, push_made]
  · simp [State.made, State.quiet, State.store, Nat.add_assoc]
  · exact ⟨h.1, h.2⟩

theorem pullWord_made {s : State} (h : s.Functional) :
    pullWord s = .next (wordOf (s.peek (stackAddress (s.S + 1 + 1))) (s.peek (stackAddress (s.S + 1))),
      { s with S := s.S + 1 + 1 }.made [s.pullAccess (s.S + 1), s.pullAccess (s.S + 1 + 1)]) := by
  rw [pullWord, pull_made h, andThen_next, pull_made, andThen_next]
  · simp [State.made, State.quiet, Nat.add_assoc, State.pullAccess, State.peek]
  · exact ⟨h.1, h.2⟩

theorem enterInterrupt_made {s : State} (h : s.Functional) (status : Byte) (vector : Word) :
    ∃ t, enterInterrupt status vector s = .next ((), t) ∧
      t.trace = s.trace ++ s.entryAccesses t s.PC status vector := by
  rw [enterInterrupt, pushWord_made h, andThen_next, push_made, andThen_next, readVector_made, andThen_next]
  · refine ⟨_, rfl, ?_⟩
    rw [State.entryAccesses, show s.S - 2 = s.S - 1 - 1 by bv_omega]
    simp [State.made, State.quiet, State.store, State.peek, State.setI]
  · exact ⟨h.1, h.2⟩
  · exact ⟨h.1, h.2⟩

theorem returnFromInterrupt_made {s : State} (h : s.Functional) :
    ∃ t, returnFromInterrupt s = .next ((), t) ∧
      t.trace = s.trace ++ [s.pullAccess (s.S + 1), s.pullAccess (s.S + 2), s.pullAccess (s.S + 3)] := by
  rw [returnFromInterrupt, pullStatus, pull_made h, andThen_next, andThen_next, pullWord_made, andThen_next]
  · refine ⟨_, rfl, ?_⟩
    rw [show s.S + 2 = s.S + 1 + 1 by bv_omega, show s.S + 3 = s.S + 1 + 1 + 1 by bv_omega]
    simp [State.made, State.quiet, State.pullAccess, State.peek]
  · exact ⟨h.1, h.2⟩

theorem effectiveAddress_made {s : State} (h : s.Functional) (m : AddrMode) :
    effectiveAddress m s = .next (addressed m s, s.made (AddrMode.pointerReads m s)) := by
  cases m with
  | indx a =>
    rw [effectiveAddress, readPointer, zread, memRead_made h, andThen_next, zread, memRead_made (h.made _), andThen_next,
      State.made_made]; rfl
  | indy a =>
    rw [effectiveAddress, readPointer, zread, memRead_made h, andThen_next, zread, memRead_made (h.made _), andThen_next,
      State.made_made]; rfl
  | zp a => rw [AddrMode.pointerReads, State.made_nil]; rfl
  | zpx a => rw [AddrMode.pointerReads, State.made_nil]; rfl
  | zpy a => rw [AddrMode.pointerReads, State.made_nil]; rfl
  | abs a => rw [AddrMode.pointerReads, State.made_nil]; rfl
  | absx a => rw [AddrMode.pointerReads, State.made_nil]; rfl
  | absy a => rw [AddrMode.pointerReads, State.made_nil]; rfl

theorem readOperand_made {s : State} (h : s.Functional) (o : ReadOperand) :
    readOperand o s = .next (operandRead o s, s.made (ReadOperand.accesses o s)) := by
  cases o with
  | imm v => rw [ReadOperand.accesses, State.made_nil]; rfl
  | mem m =>
    rw [readOperand, effectiveAddress_made h, andThen_next, memRead_made (h.made _), andThen_next, State.made_made,
      addressed_addr]
    simp only [operandRead, addressed_addr]; rfl

theorem readClass_made {s : State} (h : s.Functional) (o : ReadOperand) (f : Byte → State → State) :
    readClass o s f = .next ((f (ReadOperand.value o s) (s.made (ReadOperand.accesses o s))).finish
      (ReadOperand.readCycles o + crossPenalty (operandRead o s).2)) := by
  rw [readClass, readOperand_made h, andThen_next, operandRead_value]

theorem writeClass_made {s : State} (h : s.Functional) (m : AddrMode) (v : Byte) :
    writeClass m s v = .next (((s.store (AddrMode.address m s) v).made (AddrMode.writeAccesses m s v)).finish
      (AddrMode.writeCycles m)) := by
  rw [writeClass, effectiveAddress_made h, andThen_next, memWrite_made (h.made _), finishAfter_of_next, addressed_addr]
  simp [State.made, State.quiet, State.store, State.finish, AddrMode.writeAccesses]

/-- A read-modify-write instruction reads once and writes once (D12). -/
theorem rmwMemory_made {s : State} (h : s.Functional) (m : AddrMode) (f : Byte → State → Byte)
    (g : Byte → Byte → State → State) (hf : ∀ v (u w : State), u.P = w.P → f v u = f v w) :
    rmwMemory m s f g =
      .next ((g (AddrMode.byte m s) (f (AddrMode.byte m s) s)
        ((s.store (AddrMode.address m s) (f (AddrMode.byte m s) s)).made
          (AddrMode.readAccesses m s ++ [.write (AddrMode.address m s) (f (AddrMode.byte m s) s)]))).finish
        (AddrMode.rmwCycles m)) := by
  rw [rmwMemory, effectiveAddress_made h, andThen_next, memRead_made (h.made _), andThen_next, State.made_made,
    addressed_addr, State.made_peek]
  have hu : ∀ (a : Word) (v : Byte) (l : List BusAccess), unmodifiedWrite a v (s.made l) = .next ((), s.made l) := by
    intro a v l
    show (match s.params.busTrace with | .functional => _ | .unspecified => _) = _
    rw [h.2]
  rw [hu, andThen_next, hf _ (s.made _) s rfl, memWrite_made (h.made _), andThen_next]
  simp [State.made, State.quiet, State.store, AddrMode.readAccesses, AddrMode.byte, Nat.add_assoc]

end Sys2Proof.Machine
end

