-- ==== Sys2Proof/Laws/PerInstr.lean ====
section
/-! SUPPORT. Statements made for each instruction: the operand forms that `wellFormed` admits are those with an opcode. -/

namespace Sys2Proof.Laws.WellFormedHasOpcode

/-- The instruction's operand form is one its rule lists exactly when the encoder has an opcode for it, and its bytes
begin with an opcode of its own class. -/
def Statement (i : Instr) : Prop :=
  i.wellFormed = (encode i).isSome ∧
    ∀ op rest, encode i = some (op :: rest) → (decodeOpcode op).rowProfile = i.rowProfile

theorem ora (o : ReadOperand) : Statement (.ora o) := by
  rcases o with v | m
  · exact ⟨rfl, fun _ _ h => by cases h; rfl⟩
  · cases m <;> exact ⟨rfl, fun _ _ h => by cases h <;> rfl⟩

theorem and (o : ReadOperand) : Statement (.and o) := by
  rcases o with v | m
  · exact ⟨rfl, fun _ _ h => by cases h; rfl⟩
  · cases m <;> exact ⟨rfl, fun _ _ h => by cases h <;> rfl⟩

theorem eor (o : ReadOperand) : Statement (.eor o) := by
  rcases o with v | m
  · exact ⟨rfl, fun _ _ h => by cases h; rfl⟩
  · cases m <;> exact ⟨rfl, fun _ _ h => by cases h <;> rfl⟩

theorem bit (m : AddrMode) : Statement (.bit m) := by
  cases m <;> exact ⟨rfl, fun _ _ h => by cases h <;> rfl⟩

theorem adc (o : ReadOperand) : Statement (.adc o) := by
  rcases o with v | m
  · exact ⟨rfl, fun _ _ h => by cases h; rfl⟩
  · cases m <;> exact ⟨rfl, fun _ _ h => by cases h <;> rfl⟩

theorem sbc (o : ReadOperand) : Statement (.sbc o) := by
  rcases o with v | m
  · exact ⟨rfl, fun _ _ h => by cases h; rfl⟩
  · cases m <;> exact ⟨rfl, fun _ _ h => by cases h <;> rfl⟩

theorem cmp (o : ReadOperand) : Statement (.cmp o) := by
  rcases o with v | m
  · exact ⟨rfl, fun _ _ h => by cases h; rfl⟩
  · cases m <;> exact ⟨rfl, fun _ _ h => by cases h <;> rfl⟩

theorem cpx (o : ReadOperand) : Statement (.cpx o) := by
  rcases o with v | m
  · exact ⟨rfl, fun _ _ h => by cases h; rfl⟩
  · cases m <;> exact ⟨rfl, fun _ _ h => by cases h <;> rfl⟩

theorem cpy (o : ReadOperand) : Statement (.cpy o) := by
  rcases o with v | m
  · exact ⟨rfl, fun _ _ h => by cases h; rfl⟩
  · cases m <;> exact ⟨rfl, fun _ _ h => by cases h <;> rfl⟩

theorem asl (o : ShiftOperand) : Statement (.asl o) := by
  rcases o with _ | m
  · exact ⟨rfl, fun _ _ h => by cases h; rfl⟩
  · cases m <;> exact ⟨rfl, fun _ _ h => by cases h <;> rfl⟩

theorem lsr (o : ShiftOperand) : Statement (.lsr o) := by
  rcases o with _ | m
  · exact ⟨rfl, fun _ _ h => by cases h; rfl⟩
  · cases m <;> exact ⟨rfl, fun _ _ h => by cases h <;> rfl⟩

theorem rol (o : ShiftOperand) : Statement (.rol o) := by
  rcases o with _ | m
  · exact ⟨rfl, fun _ _ h => by cases h; rfl⟩
  · cases m <;> exact ⟨rfl, fun _ _ h => by cases h <;> rfl⟩

theorem ror (o : ShiftOperand) : Statement (.ror o) := by
  rcases o with _ | m
  · exact ⟨rfl, fun _ _ h => by cases h; rfl⟩
  · cases m <;> exact ⟨rfl, fun _ _ h => by cases h <;> rfl⟩

theorem lda (o : ReadOperand) : Statement (.lda o) := by
  rcases o with v | m
  · exact ⟨rfl, fun _ _ h => by cases h; rfl⟩
  · cases m <;> exact ⟨rfl, fun _ _ h => by cases h <;> rfl⟩

theorem ldx (o : ReadOperand) : Statement (.ldx o) := by
  rcases o with v | m
  · exact ⟨rfl, fun _ _ h => by cases h; rfl⟩
  · cases m <;> exact ⟨rfl, fun _ _ h => by cases h <;> rfl⟩

theorem ldy (o : ReadOperand) : Statement (.ldy o) := by
  rcases o with v | m
  · exact ⟨rfl, fun _ _ h => by cases h; rfl⟩
  · cases m <;> exact ⟨rfl, fun _ _ h => by cases h <;> rfl⟩

theorem sta (m : AddrMode) : Statement (.sta m) := by
  cases m <;> exact ⟨rfl, fun _ _ h => by cases h <;> rfl⟩

theorem stx (m : AddrMode) : Statement (.stx m) := by
  cases m <;> exact ⟨rfl, fun _ _ h => by cases h <;> rfl⟩

theorem sty (m : AddrMode) : Statement (.sty m) := by
  cases m <;> exact ⟨rfl, fun _ _ h => by cases h <;> rfl⟩

theorem tax : Statement .tax := ⟨rfl, fun _ _ h => by cases h; rfl⟩
theorem tay : Statement .tay := ⟨rfl, fun _ _ h => by cases h; rfl⟩
theorem txa : Statement .txa := ⟨rfl, fun _ _ h => by cases h; rfl⟩
theorem tya : Statement .tya := ⟨rfl, fun _ _ h => by cases h; rfl⟩
theorem tsx : Statement .tsx := ⟨rfl, fun _ _ h => by cases h; rfl⟩
theorem txs : Statement .txs := ⟨rfl, fun _ _ h => by cases h; rfl⟩
theorem inc (m : AddrMode) : Statement (.inc m) := by
  cases m <;> exact ⟨rfl, fun _ _ h => by cases h <;> rfl⟩

theorem dec (m : AddrMode) : Statement (.dec m) := by
  cases m <;> exact ⟨rfl, fun _ _ h => by cases h <;> rfl⟩

theorem inx : Statement .inx := ⟨rfl, fun _ _ h => by cases h; rfl⟩
theorem iny : Statement .iny := ⟨rfl, fun _ _ h => by cases h; rfl⟩
theorem dex : Statement .dex := ⟨rfl, fun _ _ h => by cases h; rfl⟩
theorem dey : Statement .dey := ⟨rfl, fun _ _ h => by cases h; rfl⟩
theorem pha : Statement .pha := ⟨rfl, fun _ _ h => by cases h; rfl⟩
theorem php : Statement .php := ⟨rfl, fun _ _ h => by cases h; rfl⟩
theorem pla : Statement .pla := ⟨rfl, fun _ _ h => by cases h; rfl⟩
theorem plp : Statement .plp := ⟨rfl, fun _ _ h => by cases h; rfl⟩
theorem jmp (t : JumpTarget) : Statement (.jmp t) := by
  cases t <;> exact ⟨rfl, fun _ _ h => by cases h; rfl⟩

theorem jsr (a : Word) : Statement (.jsr a) := ⟨rfl, fun _ _ h => by cases h; rfl⟩
theorem rts : Statement .rts := ⟨rfl, fun _ _ h => by cases h; rfl⟩
theorem rti : Statement .rti := ⟨rfl, fun _ _ h => by cases h; rfl⟩
theorem brk : Statement .brk := ⟨rfl, fun _ _ h => by cases h; rfl⟩
theorem bpl (d : Byte) : Statement (.bpl d) := ⟨rfl, fun _ _ h => by cases h; rfl⟩
theorem bmi (d : Byte) : Statement (.bmi d) := ⟨rfl, fun _ _ h => by cases h; rfl⟩
theorem bvc (d : Byte) : Statement (.bvc d) := ⟨rfl, fun _ _ h => by cases h; rfl⟩
theorem bvs (d : Byte) : Statement (.bvs d) := ⟨rfl, fun _ _ h => by cases h; rfl⟩
theorem bcc (d : Byte) : Statement (.bcc d) := ⟨rfl, fun _ _ h => by cases h; rfl⟩
theorem bcs (d : Byte) : Statement (.bcs d) := ⟨rfl, fun _ _ h => by cases h; rfl⟩
theorem bne (d : Byte) : Statement (.bne d) := ⟨rfl, fun _ _ h => by cases h; rfl⟩
theorem beq (d : Byte) : Statement (.beq d) := ⟨rfl, fun _ _ h => by cases h; rfl⟩
theorem clc : Statement .clc := ⟨rfl, fun _ _ h => by cases h; rfl⟩
theorem sec : Statement .sec := ⟨rfl, fun _ _ h => by cases h; rfl⟩
theorem cli : Statement .cli := ⟨rfl, fun _ _ h => by cases h; rfl⟩
theorem sei : Statement .sei := ⟨rfl, fun _ _ h => by cases h; rfl⟩
theorem clv : Statement .clv := ⟨rfl, fun _ _ h => by cases h; rfl⟩
theorem cld : Statement .cld := ⟨rfl, fun _ _ h => by cases h; rfl⟩
theorem sed : Statement .sed := ⟨rfl, fun _ _ h => by cases h; rfl⟩
theorem nop : Statement .nop := ⟨rfl, fun _ _ h => by cases h; rfl⟩
theorem nopAlias (f : NopForm) : Statement (.nopAlias f) := by
  rcases f with k | ⟨k, _⟩ | ⟨k, _⟩ | ⟨k, _⟩ | _ | ⟨k, _⟩
  all_goals try fin_cases k
  all_goals exact ⟨rfl, fun _ _ h => by cases h; rfl⟩

theorem hlt (k : Fin 12) : Statement (.hlt k) := by
  fin_cases k <;> exact ⟨rfl, fun _ _ h => by cases h; rfl⟩

theorem invalid (k : Fin 2) : Statement (.invalid k) := by
  fin_cases k <;> exact ⟨rfl, fun _ _ h => by cases h; rfl⟩

theorem slo (m : AddrMode) : Statement (.slo m) := by
  cases m <;> exact ⟨rfl, fun _ _ h => by cases h <;> rfl⟩

theorem rla (m : AddrMode) : Statement (.rla m) := by
  cases m <;> exact ⟨rfl, fun _ _ h => by cases h <;> rfl⟩

theorem sre (m : AddrMode) : Statement (.sre m) := by
  cases m <;> exact ⟨rfl, fun _ _ h => by cases h <;> rfl⟩

theorem rra (m : AddrMode) : Statement (.rra m) := by
  cases m <;> exact ⟨rfl, fun _ _ h => by cases h <;> rfl⟩

theorem sax (m : AddrMode) : Statement (.sax m) := by
  cases m <;> exact ⟨rfl, fun _ _ h => by cases h <;> rfl⟩

theorem lax (m : AddrMode) : Statement (.lax m) := by
  cases m <;> exact ⟨rfl, fun _ _ h => by cases h <;> rfl⟩

theorem dcp (m : AddrMode) : Statement (.dcp m) := by
  cases m <;> exact ⟨rfl, fun _ _ h => by cases h <;> rfl⟩

theorem isc (m : AddrMode) : Statement (.isc m) := by
  cases m <;> exact ⟨rfl, fun _ _ h => by cases h <;> rfl⟩

theorem anc (k : Fin 2) (v : Byte) : Statement (.anc k v) := by
  fin_cases k <;> exact ⟨rfl, fun _ _ h => by cases h; rfl⟩

theorem alr (v : Byte) : Statement (.alr v) := ⟨rfl, fun _ _ h => by cases h; rfl⟩
theorem arr (v : Byte) : Statement (.arr v) := ⟨rfl, fun _ _ h => by cases h; rfl⟩
theorem ane (v : Byte) : Statement (.ane v) := ⟨rfl, fun _ _ h => by cases h; rfl⟩
theorem lxa (v : Byte) : Statement (.lxa v) := ⟨rfl, fun _ _ h => by cases h; rfl⟩
theorem sbx (v : Byte) : Statement (.sbx v) := ⟨rfl, fun _ _ h => by cases h; rfl⟩
theorem usbc (v : Byte) : Statement (.usbc v) := ⟨rfl, fun _ _ h => by cases h; rfl⟩
theorem las (a : Word) : Statement (.las a) := ⟨rfl, fun _ _ h => by cases h; rfl⟩
theorem tas (a : Word) : Statement (.tas a) := ⟨rfl, fun _ _ h => by cases h; rfl⟩
theorem sha (m : AddrMode) : Statement (.sha m) := by
  cases m <;> exact ⟨rfl, fun _ _ h => by cases h <;> rfl⟩

end Sys2Proof.Laws.WellFormedHasOpcode
end

