-- ==== Sys2Proof/Laws/Refusals.lean ====
section
/-! SUPPORT. The shared operations never refuse: a bus access, and what is built of bus accesses, completes or faults. -/

namespace Sys2Proof.Machine

/-- The outcome is no refusal. -/
def NotRefused {τ : Type} (x : Host.Outcome τ Fault Refusal) : Prop := ∀ r, x ≠ .refused r

theorem NotRefused.next {τ : Type} (t : τ) : NotRefused (.next t) := by intro r; simp

theorem NotRefused.andThen {α τ : Type} {x : Res α} {k : α → State → Host.Outcome τ Fault Refusal}
    (hx : NotRefused x) (hk : ∀ v s, NotRefused (k v s)) : NotRefused (andThen x k) := by
  intro r
  cases x with
  | next p => exact hk _ _ _
  | fault f => simp
  | refused r' => exact absurd rfl (hx r')

theorem busRead_notRefused {a : Word} {s : State} : NotRefused (busRead a s) := by
  intro r; unfold busRead; split <;> simp

theorem busWrite_notRefused {a : Word} {v : Byte} {s : State} : NotRefused (busWrite a v s) := by
  intro r; unfold busWrite; split <;> simp

theorem dummyReads_notRefused {l : List Word} {s : State} : NotRefused (dummyReads l s) := by
  induction l generalizing s with
  | nil => exact .next _
  | cons a l ih => exact .andThen busRead_notRefused fun _ _ => ih

theorem extraAccesses_notRefused {s : State} : NotRefused (extraAccesses s) := by
  unfold extraAccesses; split
  · exact .next _
  · exact dummyReads_notRefused

theorem memRead_notRefused {a : Word} {s : State} : NotRefused (memRead a s) :=
  .andThen extraAccesses_notRefused fun _ _ => busRead_notRefused

theorem memWrite_notRefused {a : Word} {v : Byte} {s : State} : NotRefused (memWrite a v s) :=
  .andThen extraAccesses_notRefused fun _ _ => busWrite_notRefused

theorem fetch_notRefused {s : State} : NotRefused (fetch s) :=
  .andThen memRead_notRefused fun _ _ => .next _

theorem push_notRefused {v : Byte} {s : State} : NotRefused (push v s) :=
  .andThen memWrite_notRefused fun _ _ => .next _

theorem pull_notRefused {s : State} : NotRefused (pull s) := memRead_notRefused

theorem pushWord_notRefused {w : Word} {s : State} : NotRefused (pushWord w s) :=
  .andThen push_notRefused fun _ _ => push_notRefused

theorem pullWord_notRefused {s : State} : NotRefused (pullWord s) :=
  .andThen pull_notRefused fun _ _ => .andThen pull_notRefused fun _ _ => .next _

theorem pullStatus_notRefused {s : State} : NotRefused (pullStatus s) :=
  .andThen pull_notRefused fun _ _ => .next _

theorem readVector_notRefused {v : Word} {s : State} : NotRefused (readVector v s) :=
  .andThen memRead_notRefused fun _ _ => .andThen memRead_notRefused fun _ _ => .next _

theorem enterInterrupt_notRefused {status : Byte} {vector : Word} {s : State} :
    NotRefused (enterInterrupt status vector s) :=
  .andThen pushWord_notRefused fun _ _ => .andThen push_notRefused fun _ _ =>
    .andThen readVector_notRefused fun _ _ => .next _

theorem returnFromInterrupt_notRefused {s : State} : NotRefused (returnFromInterrupt s) :=
  .andThen pullStatus_notRefused fun _ _ => .andThen pullWord_notRefused fun _ _ => .next _

theorem finishAfter_notRefused {x : Res Unit} {n : Nat} (h : NotRefused x) : NotRefused (finishAfter x n) :=
  .andThen h fun _ _ => .next _

theorem readPointer_notRefused {p : Byte} {s : State} : NotRefused (readPointer p s) :=
  .andThen memRead_notRefused fun _ _ => .andThen memRead_notRefused fun _ _ => .next _

theorem effectiveAddress_notRefused {m : AddrMode} {s : State} : NotRefused (effectiveAddress m s) := by
  cases m <;> unfold effectiveAddress <;>
    first | exact .next _ | exact .andThen readPointer_notRefused fun _ _ => .next _

theorem readOperand_notRefused {o : ReadOperand} {s : State} : NotRefused (readOperand o s) := by
  cases o <;> unfold readOperand
  · exact .next _
  · exact .andThen effectiveAddress_notRefused fun _ _ => .andThen memRead_notRefused fun _ _ => .next _

theorem readClass_notRefused {o : ReadOperand} {s : State} {f : Byte → State → State} :
    NotRefused (readClass o s f) :=
  .andThen readOperand_notRefused fun _ _ => .next _

theorem writeClass_notRefused {m : AddrMode} {s : State} {v : Byte} : NotRefused (writeClass m s v) :=
  .andThen effectiveAddress_notRefused fun _ _ => finishAfter_notRefused memWrite_notRefused

theorem unmodifiedWrite_notRefused {a : Word} {v : Byte} {s : State} : NotRefused (unmodifiedWrite a v s) := by
  unfold unmodifiedWrite; split
  · exact .next _
  · split
    · exact memWrite_notRefused
    · exact .next _

theorem rmwMemory_notRefused {m : AddrMode} {s : State} {f : Byte → State → Byte} {g : Byte → Byte → State → State} :
    NotRefused (rmwMemory m s f g) :=
  .andThen effectiveAddress_notRefused fun _ _ => .andThen memRead_notRefused fun _ _ =>
    .andThen unmodifiedWrite_notRefused fun _ _ => .andThen memWrite_notRefused fun _ _ => .next _

theorem shiftClass_notRefused {o : ShiftOperand} {s : State} {f : Byte → State → Byte}
    {g : Byte → Byte → State → State} : NotRefused (shiftClass o s f g) := by
  cases o
  · exact .next _
  · exact rmwMemory_notRefused

end Sys2Proof.Machine
end

