-- ==== Sys2Proof/Tests/Slice0.lean ====
section
/-! SUPPORT. Tests: words from the spec's encodings, the spec's own vectors (95_test_vectors, and the examples of 49), and
for each statement that has hypotheses a state and operands that meet them. Expected values are the spec's. -/

namespace Sys2Proof.Tests

open Sys2Proof Sys2Proof.Machine

/-- The profile that admits every opcode, and else the spec's defaults. -/
def admitAll : Params := { Config.resetParams with undocProfile := .nmos }

/-- Registers at the vectors' defaults, with bytes at an address. -/
def place (pc : Word) (bytes : List Byte) : State :=
  { State.reset with PC := pc, mem := placeBytes [] pc bytes, trace := [], params := admitAll }

/-- The vectors' usual place. -/
def at0400 (bytes : List Byte) : State := place 0x0400 bytes

/-- Bytes of memory set to values. -/
def poke (l : List (Word × Byte)) (s : State) : State :=
  { s with mem := l.foldl (fun m c => Memory.write m c.1.toNat c.2) s.mem }

def isNext (x : Host.Outcome State Fault Refusal) (p : State → Bool) : Bool :=
  match x with
  | .next t => p t
  | .fault _ => false
  | .refused _ => false

/-- The registers, the memory and the latch of two states agree. -/
def sameMachine (t u : State) : Bool :=
  t.A == u.A && t.X == u.X && t.Y == u.Y && t.S == u.S && t.PC == u.PC && t.P == u.P && t.halted == u.halted &&
    decide (t.mem = u.mem)

/-- One Step ends with Ok after `n` cycles in `s` changed by `e`: what `e` leaves out is unchanged. -/
def runsTo (s : State) (n : Nat) (e : State → State) : Bool :=
  isNext (step s) fun t => sameMachine t (e s) && decide (t.report = { cycles := n, outcome := .ok })

/-- Each list of bytes decodes to its instruction, with nothing left over. -/
def decodesAll (l : List (List Byte × Instr)) : Bool := l.all fun p => decide (decode p.1 = .ok (p.2, []))

/-- One Step returns InvalidOpcode naming the address and the opcode, and leaves `s` changed by `e`. -/
def reportsInvalid (s : State) (a : Word) (op : Byte) (e : State → State) : Bool :=
  isNext (step s) fun t => sameMachine t (e s) && decide (t.report.outcome = .invalidOpcode a op)

/-- One Step halts: `(0, Halted)`. -/
def halts (s : State) (e : State → State) : Bool :=
  isNext (step s) fun t => sameMachine t (e s) && decide (t.report = { cycles := 0, outcome := .halted })

/-- A host call answers `s` changed by `e`. -/
def callGives (c : HostCall) (s : State) (e : State → State) : Bool :=
  isNext (hostCall c s) fun t => sameMachine t (e s)

/-- BusFault with a message, whatever its cycle count. -/
def isBusFault (x : Host.Outcome State Fault Refusal) (msg : String) : Bool :=
  match x with
  | .next _ => false
  | .fault (.busFault m _) => decide (m = msg)
  | .refused _ => false

def isRefusal (x : Host.Outcome State Fault Refusal) (r : Refusal) : Bool :=
  match x with
  | .next _ => false
  | .fault _ => false
  | .refused q => decide (q = r)

/-! WellFormed: for each check a term it refuses, in a form the instruction's rule does not list. -/

theorem test_illFormed_read :
    (Instr.ora (.mem (.zpy 0))).wellFormed = false ∧
    (Instr.and (.mem (.zpy 0))).wellFormed = false ∧
    (Instr.eor (.mem (.zpy 0))).wellFormed = false ∧
    (Instr.adc (.mem (.zpy 0))).wellFormed = false ∧
    (Instr.sbc (.mem (.zpy 0))).wellFormed = false ∧
    (Instr.cmp (.mem (.zpy 0))).wellFormed = false ∧
    (Instr.lda (.mem (.zpy 0))).wellFormed = false ∧
    (Instr.bit (.zpx 0)).wellFormed = false ∧
    (Instr.cpx (.mem (.zpx 0))).wellFormed = false ∧
    (Instr.cpy (.mem (.absy 0))).wellFormed = false ∧
    (Instr.ldx (.mem (.zpx 0))).wellFormed = false ∧
    (Instr.ldy (.mem (.zpy 0))).wellFormed = false ∧
    (Instr.lax (.zpx 0)).wellFormed = false := by decide

theorem test_illFormed_store :
    (Instr.sta (.zpy 0)).wellFormed = false ∧
    (Instr.stx (.zpx 0)).wellFormed = false ∧
    (Instr.sty (.zpy 0)).wellFormed = false ∧
    (Instr.sax (.zpx 0)).wellFormed = false ∧
    (Instr.sha (.absx 0)).wellFormed = false := by decide

theorem test_illFormed_modify :
    (Instr.asl (.mem (.absy 0))).wellFormed = false ∧
    (Instr.lsr (.mem (.indx 0))).wellFormed = false ∧
    (Instr.rol (.mem (.indy 0))).wellFormed = false ∧
    (Instr.ror (.mem (.zpy 0))).wellFormed = false ∧
    (Instr.inc (.absy 0)).wellFormed = false ∧
    (Instr.dec (.indx 0)).wellFormed = false ∧
    (Instr.slo (.zpy 0)).wellFormed = false ∧
    (Instr.rla (.zpy 0)).wellFormed = false ∧
    (Instr.sre (.zpy 0)).wellFormed = false ∧
    (Instr.rra (.zpy 0)).wellFormed = false ∧
    (Instr.dcp (.zpy 0)).wellFormed = false ∧
    (Instr.isc (.zpy 0)).wellFormed = false := by decide

theorem test_illFormed_hasNoBytes :
    encode (.sta (.zpy 0x10)) = none ∧ encode (.ldx (.mem (.zpx 0x10))) = none := by decide

/-! Decoding: words written out from the Encoding lines of 40 to 49, at least one for every constructor. -/

theorem test_decode_logical :
    decodesAll [([0x09, 0x0F], .ora (.imm 0x0F)),
      ([0x31, 0x20], .and (.mem (.indy 0x20))),
      ([0x41, 0x20], .eor (.mem (.indx 0x20))),
      ([0x2C, 0x34, 0x12], .bit (.abs 0x1234))] = true := by decide

theorem test_decode_arithmetic :
    decodesAll [([0x75, 0x10], .adc (.mem (.zpx 0x10))),
      ([0xF9, 0x34, 0x12], .sbc (.mem (.absy 0x1234))),
      ([0xDD, 0x34, 0x12], .cmp (.mem (.absx 0x1234))),
      ([0xE4, 0x10], .cpx (.mem (.zp 0x10))),
      ([0xCC, 0x34, 0x12], .cpy (.mem (.abs 0x1234)))] = true := by decide

theorem test_decode_shift :
    decodesAll [([0x0A], .asl .acc),
      ([0x56, 0x10], .lsr (.mem (.zpx 0x10))),
      ([0x2E, 0x34, 0x12], .rol (.mem (.abs 0x1234))),
      ([0x7E, 0xFF, 0x10], .ror (.mem (.absx 0x10FF)))] = true := by decide

theorem test_decode_loadStore :
    decodesAll [([0xA1, 0xFE], .lda (.mem (.indx 0xFE))),
      ([0xB6, 0xF0], .ldx (.mem (.zpy 0xF0))),
      ([0xA0, 0x80], .ldy (.imm 0x80)),
      ([0x91, 0x40], .sta (.indy 0x40)),
      ([0x96, 0xFF], .stx (.zpy 0xFF)),
      ([0x8C, 0x00, 0x30], .sty (.abs 0x3000))] = true := by decide

theorem test_decode_transferIncDec :
    decodesAll [([0xAA], .tax),
      ([0xA8], .tay),
      ([0x8A], .txa),
      ([0x98], .tya),
      ([0xBA], .tsx),
      ([0x9A], .txs),
      ([0xE6, 0x10], .inc (.zp 0x10)),
      ([0xDE, 0x00, 0x20], .dec (.absx 0x2000)),
      ([0xE8], .inx),
      ([0xC8], .iny),
      ([0xCA], .dex),
      ([0x88], .dey)] = true := by decide

theorem test_decode_stackAndFlags :
    decodesAll [([0x48], .pha),
      ([0x08], .php),
      ([0x68], .pla),
      ([0x28], .plp),
      ([0x18], .clc),
      ([0x38], .sec),
      ([0x58], .cli),
      ([0x78], .sei),
      ([0xB8], .clv),
      ([0xD8], .cld),
      ([0xF8], .sed)] = true := by decide

theorem test_decode_control :
    decodesAll [([0x4C, 0x34, 0x12], .jmp (.abs 0x1234)),
      ([0x6C, 0xFF, 0x80], .jmp (.ind 0x80FF)),
      ([0x20, 0x10, 0x04], .jsr 0x0410),
      ([0x60], .rts),
      ([0x40], .rti),
      ([0x00], .brk),
      ([0x10, 0x04], .bpl 0x04),
      ([0x30, 0x04], .bmi 0x04),
      ([0x50, 0x80], .bvc 0x80),
      ([0x70, 0x7F], .bvs 0x7F),
      ([0x90, 0x02], .bcc 0x02),
      ([0xB0, 0xFE], .bcs 0xFE),
      ([0xD0, 0xFE], .bne 0xFE),
      ([0xF0, 0x10], .beq 0x10)] = true := by decide

theorem test_decode_nopHaltInvalid :
    decodesAll [([0xEA], .nop),
      ([0xFA], .nopAlias (.imp 5)),
      ([0xE2, 0x10], .nopAlias (.imm 4 0x10)),
      ([0x64, 0x10], .nopAlias (.zp 2 0x10)),
      ([0xF4, 0x10], .nopAlias (.zpx 5 0x10)),
      ([0x0C, 0x00, 0x20], .nopAlias (.abs 0x2000)),
      ([0xFC, 0xFF, 0x20], .nopAlias (.absx 5 0x20FF)),
      ([0x02], .hlt 0),
      ([0x72], .hlt 7),
      ([0x92], .hlt 8),
      ([0xF2], .hlt 11),
      ([0x9C], .invalid 0),
      ([0x9E], .invalid 1)] = true := by decide

theorem test_decode_undocumented :
    decodesAll [([0x1B, 0x34, 0x12], .slo (.absy 0x1234)),
      ([0x33, 0x10], .rla (.indy 0x10)),
      ([0x43, 0x10], .sre (.indx 0x10)),
      ([0x77, 0x10], .rra (.zpx 0x10)),
      ([0x97, 0x10], .sax (.zpy 0x10)),
      ([0xBF, 0x34, 0x12], .lax (.absy 0x1234)),
      ([0xCF, 0x34, 0x12], .dcp (.abs 0x1234)),
      ([0xFF, 0x34, 0x12], .isc (.absx 0x1234)),
      ([0x0B, 0x80], .anc 0 0x80),
      ([0x2B, 0x80], .anc 1 0x80),
      ([0x4B, 0x03], .alr 0x03),
      ([0x6B, 0xFF], .arr 0xFF),
      ([0x8B, 0x01], .ane 0x01),
      ([0xAB, 0x01], .lxa 0x01),
      ([0xCB, 0x01], .sbx 0x01),
      ([0xEB, 0x01], .usbc 0x01),
      ([0xBB, 0x34, 0x12], .las 0x1234),
      ([0x9B, 0x34, 0x12], .tas 0x1234),
      ([0x9F, 0x34, 0x12], .sha (.absy 0x1234)),
      ([0x93, 0x10], .sha (.indy 0x10))] = true := by decide

theorem test_decode_tableWord :
    decodeTableWord 16 0x80A9 = some (.lda (.imm 0x80)) ∧ decodeTableWord 24 0x80FF6C = some (.jmp (.ind 0x80FF)) ∧
    decodeTableWord 8 0x20 = some (.jsr 0x0000) := by decide

/-! The vectors of 95_test_vectors, by their ids: one Step each, every register, flag and byte of memory compared. -/

/-- L01. -/
theorem test_ora :
    runsTo { at0400 [0x09, 0x0F] with A := 0xF0 } 2 (fun s => { s with A := 0xFF, P := 0x80, PC := 0x0402 }) := by decide

/-- L02. -/
theorem test_and :
    runsTo { at0400 [0x29, 0x0F] with A := 0xF0 } 2 (fun s => { s with A := 0x00, P := 0x02, PC := 0x0402 }) := by decide

/-- L03. -/
theorem test_eor :
    runsTo { at0400 [0x49, 0xFF] with A := 0x0F } 2 (fun s => { s with A := 0xF0, P := 0x80, PC := 0x0402 }) := by decide

/-- L04, L05. -/
theorem test_bit :
    runsTo (poke [(0x10, 0xC0)] { at0400 [0x24, 0x10] with A := 0x01 }) 3 (fun s => { s with P := 0xC2, PC := 0x0402 }) ∧
    runsTo (poke [(0x10, 0x40)] { at0400 [0x24, 0x10] with A := 0x40 }) 3 (fun s => { s with P := 0x40, PC := 0x0402 }) := by decide

/-- A01 to A04, B9. -/
theorem test_adc_binary :
    runsTo { at0400 [0x69, 0x50] with A := 0x50, P := 0x00 } 2 (fun s => { s with A := 0xA0, P := 0xC0, PC := 0x0402 }) ∧
    runsTo { at0400 [0x69, 0x01] with A := 0xFF, P := 0x00 } 2 (fun s => { s with A := 0x00, P := 0x03, PC := 0x0402 }) ∧
    runsTo { at0400 [0x69, 0xFF] with A := 0x80, P := 0x00 } 2 (fun s => { s with A := 0x7F, P := 0x41, PC := 0x0402 }) ∧
    runsTo { at0400 [0x69, 0x00] with A := 0xFF, P := 0x01 } 2 (fun s => { s with A := 0x00, P := 0x03, PC := 0x0402 }) ∧
    runsTo { at0400 [0x69, 0x4F] with A := 0x50, P := 0x01 } 2 (fun s => { s with A := 0xA0, P := 0xC0, PC := 0x0402 }) := by decide

/-- S4, A09 to A11. -/
theorem test_adc_decimal :
    runsTo { at0400 [0x69, 0x01] with A := 0x09, P := 0x08 } 2 (fun s => { s with A := 0x10, P := 0x08, PC := 0x0402 }) ∧
    runsTo { at0400 [0x69, 0x46] with A := 0x58, P := 0x09 } 2 (fun s => { s with A := 0x05, P := 0xC9, PC := 0x0402 }) ∧
    runsTo { at0400 [0x69, 0x01] with A := 0x99, P := 0x08 } 2 (fun s => { s with A := 0x00, P := 0x89, PC := 0x0402 }) ∧
    runsTo { at0400 [0x69, 0x50] with A := 0x50, P := 0x08 } 2 (fun s => { s with A := 0x00, P := 0xC9, PC := 0x0402 }) := by decide

/-- A05 to A08. -/
theorem test_sbc_binary :
    runsTo { at0400 [0xE9, 0xB0] with A := 0x50, P := 0x01 } 2 (fun s => { s with A := 0xA0, P := 0xC0, PC := 0x0402 }) ∧
    runsTo { at0400 [0xE9, 0x01] with A := 0x00, P := 0x01 } 2 (fun s => { s with A := 0xFF, P := 0x80, PC := 0x0402 }) ∧
    runsTo { at0400 [0xE9, 0x01] with A := 0x80, P := 0x01 } 2 (fun s => { s with A := 0x7F, P := 0x41, PC := 0x0402 }) ∧
    runsTo { at0400 [0xE9, 0x03] with A := 0x05, P := 0x00 } 2 (fun s => { s with A := 0x01, P := 0x01, PC := 0x0402 }) := by decide

/-- A12 to A16. -/
theorem test_sbc_decimal :
    runsTo { at0400 [0xE9, 0x12] with A := 0x46, P := 0x09 } 2 (fun s => { s with A := 0x34, P := 0x09, PC := 0x0402 }) ∧
    runsTo { at0400 [0xE9, 0x13] with A := 0x40, P := 0x09 } 2 (fun s => { s with A := 0x27, P := 0x09, PC := 0x0402 }) ∧
    runsTo { at0400 [0xE9, 0x01] with A := 0x00, P := 0x09 } 2 (fun s => { s with A := 0x99, P := 0x88, PC := 0x0402 }) ∧
    runsTo { at0400 [0xE9, 0x02] with A := 0x32, P := 0x08 } 2 (fun s => { s with A := 0x29, P := 0x09, PC := 0x0402 }) ∧
    runsTo { at0400 [0xE9, 0x01] with A := 0x10, P := 0x09 } 2 (fun s => { s with A := 0x09, P := 0x09, PC := 0x0402 }) := by decide

/-- A17 to A19, A22. -/
theorem test_cmp :
    runsTo { at0400 [0xC9, 0x40] with A := 0x40, P := 0x00 } 2 (fun s => { s with A := 0x40, P := 0x03, PC := 0x0402 }) ∧
    runsTo { at0400 [0xC9, 0x41] with A := 0x40, P := 0x00 } 2 (fun s => { s with A := 0x40, P := 0x80, PC := 0x0402 }) ∧
    runsTo { at0400 [0xC9, 0x01] with A := 0x80, P := 0x00 } 2 (fun s => { s with A := 0x80, P := 0x01, PC := 0x0402 }) ∧
    runsTo { at0400 [0xC9, 0x01] with A := 0x10, P := 0x08 } 2 (fun s => { s with A := 0x10, P := 0x09, PC := 0x0402 }) := by decide

/-- A20. -/
theorem test_cpx :
    runsTo { at0400 [0xE0, 0x10] with X := 0x20 } 2 (fun s => { s with P := 0x01, PC := 0x0402 }) := by decide

/-- A21. -/
theorem test_cpy :
    runsTo (at0400 [0xC0, 0xFF]) 2 (fun s => { s with P := 0x00, PC := 0x0402 }) := by decide

/-- H01, H05. -/
theorem test_asl :
    runsTo { at0400 [0x0A] with A := 0x81 } 2 (fun s => { s with A := 0x02, P := 0x01, PC := 0x0401 }) ∧
    runsTo (poke [(0x10, 0x40)] (at0400 [0x06, 0x10])) 5 (fun s => poke [(0x10, 0x80)] { s with P := 0x80, PC := 0x0402 }) := by decide

/-- H02. -/
theorem test_lsr :
    runsTo { at0400 [0x4A] with A := 0x01 } 2 (fun s => { s with A := 0x00, P := 0x03, PC := 0x0401 }) := by decide

/-- H03. -/
theorem test_rol :
    runsTo { at0400 [0x2A] with A := 0x80, P := 0x01 } 2 (fun s => { s with A := 0x01, P := 0x01, PC := 0x0401 }) := by decide

/-- H04, H06. -/
theorem test_ror :
    runsTo { at0400 [0x6A] with A := 0x01, P := 0x01 } 2 (fun s => { s with A := 0x80, P := 0x81, PC := 0x0401 }) ∧
    runsTo (poke [(0x1100, 0x02)] { at0400 [0x7E, 0xFF, 0x10] with X := 0x01 }) 7 (fun s => poke [(0x1100, 0x01)] { s with P := 0x00, PC := 0x0403 }) := by decide

/-- D01, D02, B1. -/
theorem test_lda_indexed :
    runsTo { at0400 [0xBD, 0xFF, 0x20] with X := 0x01 } 5 (fun s => { s with A := 0x00, P := 0x02, PC := 0x0403 }) ∧
    runsTo (poke [(0x2010, 0x7F)] { at0400 [0xB9, 0x00, 0x20] with Y := 0x10 }) 4 (fun s => { s with A := 0x7F, PC := 0x0403 }) ∧
    runsTo (poke [(0x0000, 0x37), (0x0100, 0x99)] { at0400 [0xB5, 0xFF] with X := 0x01 }) 4 (fun s => { s with A := 0x37, PC := 0x0402 }) := by decide

/-- D03, B3, S1. -/
theorem test_lda_indirect :
    runsTo (poke [(0xFF, 0x34), (0x00, 0x12), (0x1234, 0x55)] { at0400 [0xA1, 0xFE] with X := 0x01 }) 6 (fun s => { s with A := 0x55, PC := 0x0402 }) ∧
    runsTo (poke [(0x20, 0xFF), (0x21, 0xFF), (0x0000, 0x66)] { at0400 [0xB1, 0x20] with Y := 0x01 }) 6 (fun s => { s with A := 0x66, PC := 0x0402 }) ∧
    runsTo (at0400 [0xA9, 0x80]) 2 (fun s => { s with A := 0x80, P := 0x80, PC := 0x0402 }) := by decide

/-- D04. -/
theorem test_ldx :
    runsTo { at0400 [0xB6, 0xF0] with Y := 0x20, X := 0x44 } 4 (fun s => { s with X := 0x00, P := 0x02, PC := 0x0402 }) := by decide

/-- D05. -/
theorem test_ldy :
    runsTo (at0400 [0xA0, 0x80]) 2 (fun s => { s with Y := 0x80, P := 0x80, PC := 0x0402 }) := by decide

/-- D06, D07. -/
theorem test_sta :
    runsTo { at0400 [0x9D, 0xFF, 0x20] with A := 0x5A, X := 0x01 } 5 (fun s => poke [(0x2100, 0x5A)] { s with PC := 0x0403 }) ∧
    runsTo (poke [(0x40, 0xFE), (0x41, 0x10)] { at0400 [0x91, 0x40] with A := 0x5A, Y := 0x03 }) 6 (fun s => poke [(0x1101, 0x5A)] { s with PC := 0x0402 }) := by decide

/-- D08. -/
theorem test_stx :
    runsTo { at0400 [0x96, 0xFF] with X := 0x77, Y := 0x02 } 4 (fun s => poke [(0x0001, 0x77)] { s with PC := 0x0402 }) := by decide

/-- D09. -/
theorem test_sty :
    runsTo { at0400 [0x8C, 0x00, 0x30] with Y := 0x11 } 4 (fun s => poke [(0x3000, 0x11)] { s with PC := 0x0403 }) := by decide

/-- T01 to T06. -/
theorem test_transfers :
    runsTo { at0400 [0xAA] with X := 0x44 } 2 (fun s => { s with X := 0x00, P := 0x02, PC := 0x0401 }) ∧
    runsTo { at0400 [0xA8] with A := 0x80 } 2 (fun s => { s with Y := 0x80, P := 0x80, PC := 0x0401 }) ∧
    runsTo { at0400 [0x8A] with X := 0x7F } 2 (fun s => { s with A := 0x7F, PC := 0x0401 }) ∧
    runsTo { at0400 [0x98] with Y := 0xFF } 2 (fun s => { s with A := 0xFF, P := 0x80, PC := 0x0401 }) ∧
    runsTo { at0400 [0xBA] with S := 0xFD } 2 (fun s => { s with X := 0xFD, P := 0x80, PC := 0x0401 }) ∧
    runsTo (at0400 [0x9A]) 2 (fun s => { s with S := 0x00, P := 0x00, PC := 0x0401 }) := by decide

/-- T07 to T12. -/
theorem test_incDec :
    runsTo (poke [(0x10, 0xFF)] (at0400 [0xE6, 0x10])) 5 (fun s => poke [(0x10, 0x00)] { s with P := 0x02, PC := 0x0402 }) ∧
    runsTo { at0400 [0xDE, 0x00, 0x20] with X := 0x05 } 7 (fun s => poke [(0x2005, 0xFF)] { s with P := 0x80, PC := 0x0403 }) ∧
    runsTo { at0400 [0xE8] with X := 0xFF } 2 (fun s => { s with X := 0x00, P := 0x02, PC := 0x0401 }) ∧
    runsTo { at0400 [0xC8] with Y := 0x7F } 2 (fun s => { s with Y := 0x80, P := 0x80, PC := 0x0401 }) ∧
    runsTo { at0400 [0xCA] with X := 0x01 } 2 (fun s => { s with X := 0x00, P := 0x02, PC := 0x0401 }) ∧
    runsTo (at0400 [0x88]) 2 (fun s => { s with Y := 0xFF, P := 0x80, PC := 0x0401 }) := by decide

/-- K01 to K06. -/
theorem test_stack :
    runsTo { at0400 [0x48] with A := 0x42 } 3 (fun s => poke [(0x01FF, 0x42)] { s with S := 0xFE, PC := 0x0401 }) ∧
    runsTo { at0400 [0x48] with A := 0x42, S := 0x00 } 3 (fun s => poke [(0x0100, 0x42)] { s with S := 0xFF, PC := 0x0401 }) ∧
    runsTo { at0400 [0x08] with P := 0xC3 } 3 (fun s => poke [(0x01FF, 0xF3)] { s with S := 0xFE, PC := 0x0401 }) ∧
    runsTo { at0400 [0x68] with S := 0xFE, A := 0x44 } 4 (fun s => { s with A := 0x00, S := 0xFF, P := 0x02, PC := 0x0401 }) ∧
    runsTo (poke [(0x0100, 0x80)] (at0400 [0x68])) 4 (fun s => { s with A := 0x80, S := 0x00, P := 0x80, PC := 0x0401 }) ∧
    runsTo (poke [(0x01FF, 0xFF)] { at0400 [0x28] with S := 0xFE }) 4 (fun s => { s with P := 0xCF, S := 0xFF, PC := 0x0401 }) := by decide

/-- J01, S5. -/
theorem test_jmp :
    runsTo (at0400 [0x4C, 0x34, 0x12]) 3 (fun s => { s with PC := 0x1234 }) ∧
    runsTo (poke [(0x80FF, 0xAA), (0x8000, 0x55), (0x8100, 0xCC)] (at0400 [0x6C, 0xFF, 0x80])) 5 (fun s => { s with PC := 0x55AA }) := by decide

/-- J02, J03. -/
theorem test_jsr_rts :
    runsTo (place 0x0403 [0x20, 0x10, 0x04]) 6 (fun s => poke [(0x01FF, 0x04), (0x01FE, 0x05)] { s with PC := 0x0410, S := 0xFD }) ∧
    runsTo (poke [(0x01FE, 0x05), (0x01FF, 0x04)] { at0400 [0x60] with S := 0xFD }) 6 (fun s => { s with PC := 0x0406, S := 0xFF }) := by decide

/-- J04. -/
theorem test_rti :
    runsTo (poke [(0x01FD, 0xFF), (0x01FE, 0x14), (0x01FF, 0x04)] { at0400 [0x40] with S := 0xFC }) 6 (fun s => { s with P := 0xCF, PC := 0x0414, S := 0xFF }) := by decide

/-- J05. -/
theorem test_brk :
    runsTo (poke [(0xFFFE, 0x00), (0xFFFF, 0x05)] { place 0x0412 [0x00, 0xEA] with P := 0x80 }) 7 (fun s => poke [(0x01FF, 0x04), (0x01FE, 0x14), (0x01FD, 0xB0)] { s with S := 0xFC, P := 0x84, PC := 0x0500 }) := by decide

/-- J06 to J11, B4, S6. -/
theorem test_branches :
    runsTo { place 0x0300 [0x10, 0x04] with P := 0x00 } 3 (fun s => { s with PC := 0x0306 }) ∧
    runsTo { place 0x0300 [0x30, 0x04] with P := 0x00 } 2 (fun s => { s with PC := 0x0302 }) ∧
    runsTo { place 0x0300 [0x50, 0x80] with P := 0x00 } 4 (fun s => { s with PC := 0x0282 }) ∧
    runsTo { place 0x0300 [0x70, 0x7F] with P := 0x40 } 3 (fun s => { s with PC := 0x0381 }) ∧
    runsTo { place 0x0500 [0xB0, 0xFE] with P := 0x01 } 3 (fun s => { s with PC := 0x0500 }) ∧
    runsTo { at0400 [0x90, 0x02] with P := 0x01 } 2 (fun s => { s with PC := 0x0402 }) ∧
    runsTo { place 0x04FE [0x90, 0x02] with P := 0x00 } 3 (fun s => { s with PC := 0x0502 }) ∧
    runsTo { place 0x04F0 [0xF0, 0x10] with P := 0x02 } 4 (fun s => { s with PC := 0x0502 }) ∧
    runsTo { at0400 [0xD0, 0xFE] with P := 0x00 } 3 (fun s => { s with PC := 0x0400 }) ∧
    runsTo { at0400 [0xD0, 0xFE] with P := 0x02 } 2 (fun s => { s with PC := 0x0402 }) := by decide

/-- F01 to F07. -/
theorem test_flags :
    runsTo { at0400 [0x18] with P := 0x4D } 2 (fun s => { s with P := 0x4C, PC := 0x0401 }) ∧
    runsTo { at0400 [0x38] with P := 0x00 } 2 (fun s => { s with P := 0x01, PC := 0x0401 }) ∧
    runsTo { at0400 [0x58] with P := 0x4D } 2 (fun s => { s with P := 0x49, PC := 0x0401 }) ∧
    runsTo { at0400 [0x78] with P := 0x00 } 2 (fun s => { s with P := 0x04, PC := 0x0401 }) ∧
    runsTo { at0400 [0xB8] with P := 0x4D } 2 (fun s => { s with P := 0x0D, PC := 0x0401 }) ∧
    runsTo { at0400 [0xD8] with P := 0x4D } 2 (fun s => { s with P := 0x45, PC := 0x0401 }) ∧
    runsTo { at0400 [0xF8] with P := 0x00 } 2 (fun s => { s with P := 0x08, PC := 0x0401 }) := by decide

/-- N01 to N06. -/
theorem test_nops :
    runsTo (at0400 [0xEA]) 2 (fun s => { s with PC := 0x0401 }) ∧
    runsTo (at0400 [0x1A]) 2 (fun s => { s with PC := 0x0401 }) ∧
    runsTo (at0400 [0x04, 0x10]) 3 (fun s => { s with PC := 0x0402 }) ∧
    runsTo (at0400 [0x0C, 0x00, 0x20]) 4 (fun s => { s with PC := 0x0403 }) ∧
    runsTo { at0400 [0x1C, 0xFF, 0x20] with X := 0x01 } 5 (fun s => { s with PC := 0x0403 }) ∧
    runsTo (at0400 [0x80, 0x10]) 2 (fun s => { s with PC := 0x0402 }) := by decide

/-- N07, N08, S7. -/
theorem test_halt :
    halts (at0400 [0x02]) (fun s => { s with PC := 0x0401, halted := true }) ∧
    halts { at0400 [0xA9, 0x80] with halted := true } (fun s => s) := by decide

/-- N09, S8. -/
theorem test_invalid :
    reportsInvalid (at0400 [0x9C, 0x00, 0x20]) 0x0400 0x9C (fun s => { s with PC := 0x0401 }) ∧
    reportsInvalid (at0400 [0x9E]) 0x0400 0x9E (fun s => { s with PC := 0x0401 }) := by decide

/-- N10, N02. -/
theorem test_profiles :
    isRefusal (step { at0400 [0x07, 0x10] with params := Config.resetParams }) .undocNmosNotAdmitted = true ∧
    isNext (step { at0400 [0x1A] with params := Config.resetParams }) (fun t => t.PC == 0x0401) = true ∧
    isRefusal (step { at0400 [0x1A] with params.undocProfile := .refuse }) .undocNopNotAdmitted = true := by decide

/-! The examples of 49, and cases worked by hand from its rules where a rule gives none. -/

/-- N11 and the examples of R331 to R334, R337, R338. -/
theorem test_combinedModify :
    runsTo (poke [(0x10, 0x40)] { at0400 [0x07, 0x10] with A := 0x01 }) 5 (fun s => poke [(0x10, 0x80)] { s with A := 0x81, P := 0x80, PC := 0x0402 }) ∧
    runsTo (poke [(0x10, 0x80)] { at0400 [0x27, 0x10] with A := 0xFF, P := 0x01 }) 5 (fun s => poke [(0x10, 0x01)] { s with A := 0x01, P := 0x01, PC := 0x0402 }) ∧
    runsTo (poke [(0x10, 0x03)] { at0400 [0x47, 0x10] with A := 0x01 }) 5 (fun s => poke [(0x10, 0x01)] { s with A := 0x00, P := 0x03, PC := 0x0402 }) ∧
    runsTo (poke [(0x10, 0x03)] { at0400 [0x67, 0x10] with A := 0x10 }) 5 (fun s => poke [(0x10, 0x01)] { s with A := 0x12, P := 0x00, PC := 0x0402 }) ∧
    runsTo (poke [(0x10, 0x06)] { at0400 [0xC7, 0x10] with A := 0x05 }) 5 (fun s => poke [(0x10, 0x05)] { s with P := 0x03, PC := 0x0402 }) ∧
    runsTo (poke [(0x10, 0x0F)] { at0400 [0xE7, 0x10] with A := 0x10, P := 0x01 }) 5 (fun s => poke [(0x10, 0x10)] { s with A := 0x00, P := 0x03, PC := 0x0402 }) := by decide

/-- The examples of R335, R336. -/
theorem test_sax_lax :
    runsTo { at0400 [0x87, 0x10] with A := 0xF0, X := 0x3C } 3 (fun s => poke [(0x10, 0x30)] { s with PC := 0x0402 }) ∧
    runsTo (poke [(0x10, 0x80)] (at0400 [0xA7, 0x10])) 3 (fun s => { s with A := 0x80, X := 0x80, P := 0x80, PC := 0x0402 }) := by decide

/-- The examples of R339 to R341, R344, and A06 by R345. -/
theorem test_combinedImmediate :
    runsTo { at0400 [0x0B, 0x80] with A := 0xFF } 2 (fun s => { s with A := 0x80, P := 0x81, PC := 0x0402 }) ∧
    runsTo { at0400 [0x4B, 0x03] with A := 0xFF } 2 (fun s => { s with A := 0x01, P := 0x01, PC := 0x0402 }) ∧
    runsTo { at0400 [0x6B, 0xFF] with A := 0xFF, P := 0x01 } 2 (fun s => { s with A := 0xFF, P := 0x81, PC := 0x0402 }) ∧
    runsTo { at0400 [0xCB, 0x01] with A := 0xFF, X := 0x10 } 2 (fun s => { s with X := 0x0F, P := 0x01, PC := 0x0402 }) ∧
    runsTo { at0400 [0xEB, 0x01] with A := 0x00, P := 0x01 } 2 (fun s => { s with A := 0xFF, P := 0x80, PC := 0x0402 }) := by decide

/-- By hand from R346 to R348: `$F3 & $0F = $03`, and `$F3 & $6F & ($20 + 1) = $21`. -/
theorem test_las_tas_sha :
    runsTo (poke [(0x2100, 0xF3)] { at0400 [0xBB, 0xFF, 0x20] with S := 0x0F, Y := 0x01 }) 5 (fun s => { s with A := 0x03, X := 0x03, S := 0x03, PC := 0x0403 }) ∧
    runsTo { at0400 [0x9B, 0x00, 0x20] with A := 0xF3, X := 0x6F, Y := 0x05 } 5 (fun s => poke [(0x2005, 0x21)] { s with S := 0x63, PC := 0x0403 }) ∧
    runsTo { at0400 [0x9F, 0x00, 0x20] with A := 0xF3, X := 0x6F, Y := 0x05 } 5 (fun s => poke [(0x2005, 0x21)] { s with PC := 0x0403 }) ∧
    runsTo (poke [(0x41, 0x20)] { at0400 [0x93, 0x40] with A := 0xFF, X := 0xFF, Y := 0x05 }) 6 (fun s => poke [(0x2005, 0x21)] { s with PC := 0x0402 }) := by decide

/-- R341, R347, R348. -/
theorem test_combined_refused :
    isRefusal (step { at0400 [0x6B, 0xFF] with P := 0x08 }) .arrDecimal = true ∧
    isRefusal (step { at0400 [0x9B, 0xFF, 0x20] with Y := 0x01 }) .tasPageCross = true ∧
    isRefusal (step { at0400 [0x9F, 0xFF, 0x20] with Y := 0x01 }) .shaPageCross = true := by decide

/-- R342, R343: whatever the constant, the instruction completes in 2 cycles and draws once. -/
theorem test_ane_lxa :
    (∀ op ∈ ([0x8B, 0xAB] : List Byte), isNext (step { at0400 [op, 0x0F] with A := 0x33 }) fun t =>
      t.PC == 0x0402 && t.S == 0xFF && t.Y == 0x00 && t.draws == 1 && decide (t.report = { cycles := 2, outcome := .ok })) := by
  decide

/-! Interrupts, reset and faults (I01 to I07, B7). -/

/-- I01, I03. -/
theorem test_nmi :
    callGives .nmi (poke [(0xFFFA, 0x00), (0xFFFB, 0x07)] { State.reset with PC := 0x1234, P := 0xC3 })
    (fun s => poke [(0x01FF, 0x12), (0x01FE, 0x34), (0x01FD, 0xE3)] { s with S := 0xFC, P := 0xC7, PC := 0x0700 }) ∧
    callGives .nmi (poke [(0xFFFA, 0x00), (0xFFFB, 0x07)] { State.reset with PC := 0x1234, P := 0x04 })
    (fun s => poke [(0x01FF, 0x12), (0x01FE, 0x34), (0x01FD, 0x24)] { s with S := 0xFC, P := 0x04, PC := 0x0700 }) := by decide

/-- I02, I04. -/
theorem test_irq :
    callGives .irq { at0400 [0xEA] with P := 0x04 } (fun s => s) ∧
    callGives .irq (poke [(0xFFFE, 0x00), (0xFFFF, 0x06)] { State.reset with PC := 0x0404, halted := true })
    (fun s => poke [(0x01FF, 0x04), (0x01FE, 0x04), (0x01FD, 0x20)] { s with S := 0xFC, P := 0x04, PC := 0x0600 }) := by decide

/-- I05, B7. -/
theorem test_reset :
    callGives .reset (poke [(0xFFFC, 0x00), (0xFFFD, 0x04)]
      { State.reset with A := 0x11, X := 0x22, Y := 0x33, S := 0x44, P := 0xCF, PC := 0x1234, halted := true })
    (fun s => { s with A := 0x00, X := 0x00, Y := 0x00, S := 0xFF, P := 0x00, PC := 0x0400, halted := false }) := by decide

/-- A region that aborts every read of an address range. -/
def readAbort (first last : Word) (msg : String) : BusAbort :=
  { onRead := true, onWrite := false, first := first, last := last, firstByte := 0x00, lastByte := 0xFF, msg := msg }

/-- A region that aborts the writes of some bytes to an address. -/
def writeAbort (a : Word) (firstByte lastByte : Byte) (msg : String) : BusAbort :=
  { onRead := false, onWrite := true, first := a, last := a, firstByte := firstByte, lastByte := lastByte, msg := msg }

/-- I06, I07, and a bus that looks at the written byte. -/
theorem test_busFault :
    isBusFault (step { at0400 [0xEA] with aborts := [readAbort 0x0400 0x0400 "open bus"] }) "open bus" ∧
    isBusFault (step { at0400 [0x85, 0x20] with aborts := [writeAbort 0x0020 0x00 0xFF "rom"] }) "rom" ∧
    isBusFault (step { at0400 [0x85, 0x20] with A := 0x80, aborts := [writeAbort 0x0020 0x80 0xFF "value"] }) "value" ∧
    isNext (step { at0400 [0x85, 0x20] with A := 0x7F, aborts := [writeAbort 0x0020 0x80 0xFF "value"] })
      (fun t => t.peek 0x0020 == 0x7F) = true := by decide

/-- A documented word, and one that only `nmos` admits. -/
theorem test_withFetchWord :
    isNext (step (State.withFetchWord State.reset 16 0x80A9)) (fun t => t.A == 0x80 && t.P == 0x80) = true ∧
    isNext (step (State.withFetchWord State.reset 16 0x1007)) (fun t => t.PC == 0x0002) = true := by decide

/-! Witnesses: for each statement with hypotheses, a state and operands that meet them, at the edges of their ranges. -/

/-- The state an operation answers, where it does. -/
def nextOf (x : Host.Outcome State Fault Refusal) : State :=
  match x with
  | .next t => t
  | .fault _ => State.reset
  | .refused _ => State.reset

/-- A state on the plain bus with every register and flag in use, under the given parameters. -/
def sample (p : Byte) (params : Params) : State :=
  poke [(0x10, 0xFE), (0x11, 0x20), (0x20FE, 0x7F), (0x2105, 0xC1), (0xFFFE, 0x00), (0xFFFF, 0x05)]
    { at0400 [0xEA] with A := 0x8F, X := 0xFF, Y := 0x07, S := 0x01, P := p, params := params }

theorem witness_DecodeOfEncode :
    (Instr.sha (.indy 0xFF)).wellFormed = true ∧ (Instr.jmp (.ind 0xFFFF)).wellFormed = true ∧
    (Instr.nopAlias (.absx 5 0x0000)).wellFormed = true := by decide

theorem witness_EncodeOfDecode :
    decode [0x6C, 0xFF, 0xFF, 0x00] = .ok (.jmp (.ind 0xFFFF), [0x00]) ∧ decode [0xEA] = .ok (.nop, []) := by decide

theorem witness_LengthFixedByOpcode :
    decode [0xEA, 0x01] = .ok (.nop, [0x01]) ∧ decode [0xA9] = .error (.truncated 0xA9) ∧
    decode [0xAD, 0x34] = .error (.truncated 0xAD) ∧ decode [0xAD, 0x34, 0x12] = .ok (.lda (.mem (.abs 0x1234)), []) := by
  decide

/-- Three bytes across the end of the address space, and one byte with two to spare. -/
theorem witness_StepRunsDecodedInstruction :
    (∃ s : State, s.halted = false ∧ s.PlainBus ∧ s.Fetches (.lda (.mem (.abs 0x1234))) [] ∧
      s.params.busTrace = .functional ∧ s.PC = 0xFFFF) ∧
    (∃ s : State, s.halted = false ∧ s.PlainBus ∧ s.Fetches .nop [0x00, 0x00]) :=
  ⟨⟨place 0xFFFF [0xAD, 0x34, 0x12], rfl, rfl, rfl, rfl, rfl⟩, ⟨at0400 [0xEA], rfl, rfl, rfl⟩⟩

theorem witness_HaltedStepDoesNothing : ({ State.reset with halted := true } : State).halted = true := by decide

/-- A halting Step and one that does not halt. -/
theorem witness_OnlyHaltOpcodesHalt :
    isNext (step (at0400 [0x02])) (fun t => t.halted) ∧ isNext (step (at0400 [0xA2])) (fun t => !t.halted) := by decide

/-- The bounds are met: 2, 8, and 7 outside `nmos`. -/
theorem witness_CycleCountBounds :
    runsTo (at0400 [0xEA]) 2 (fun s => { s with PC := 0x0401 }) ∧
    isNext (step (at0400 [0x03, 0x10])) (fun t => decide (t.report = { cycles := 8, outcome := .ok })) ∧
    isNext (step { at0400 [0x00] with params := Config.resetParams })
      (fun t => decide (t.report = { cycles := 7, outcome := .ok })) := by decide

theorem witness_PcAdvancesByLength :
    (at0400 [0x8D, 0x34, 0x12]).Fetches (.sta (.abs 0x1234)) [] ∧ Instr.writesPC (.sta (.abs 0x1234)) = false ∧
    runsTo (at0400 [0x8D, 0x34, 0x12]) 4 (fun s => { s with PC := 0x0403 }) = true ∧
    runsTo (place 0xFFFF [0xEA]) 2 (fun s => { s with PC := 0x0000 }) = true :=
  ⟨rfl, rfl, by decide, by decide⟩

theorem witness_ProfileRefusesOpcodes :
    (∃ s : State, s.halted = false ∧ s.PlainBus ∧ s.Fetches (.slo (.zp 0x10)) [0x00] ∧
      Instr.rowProfile (.slo (.zp 0x10)) = .undocNmos ∧ s.params.undocProfile = .nopsOnly) ∧
    (∃ s : State, s.halted = false ∧ s.PlainBus ∧ s.Fetches (.nopAlias (.imp 0)) [0x00, 0x00] ∧
      Instr.rowProfile (.nopAlias (.imp 0)) = .undocNop ∧ s.params.undocProfile = .refuse) :=
  ⟨⟨{ at0400 [0x07, 0x10] with params.undocProfile := .nopsOnly }, rfl, rfl, rfl, rfl, rfl⟩,
    ⟨{ at0400 [0x1A] with params.undocProfile := .refuse }, rfl, rfl, rfl, rfl, rfl⟩⟩

/-- A state whose bus aborts reads of one address. -/
def abortingReads (a : Word) (s : State) : State := { s with aborts := [readAbort a a "open"] }

/-- Clause by clause: the opcode's read, an operand's, a pull, a vector read of an entry and of Reset abort; the bus without
its regions completes; a region that aborts reads alone lies over a store's address; and a refusal. -/
theorem witness_FirstAbortEndsTheStep :
    ((at0400 [0xA9, 0x01]).halted = false ∧
      isBusFault (step (abortingReads 0x0401 (at0400 [0xA9, 0x01]))) "open" ∧
      isNext (step (abortingReads 0x0401 (at0400 [0xA9, 0x01])).withoutAborts) (fun _ => true)) ∧
    isBusFault (exec .pla (abortingReads 0x0100 (at0400 []))) "open" ∧
    isBusFault (hostNmi (abortingReads 0xFFFB (at0400 []))) "open" ∧
    isBusFault (hostIrq (abortingReads 0xFFFF (at0400 []))) "open" ∧
    isBusFault (hostReset (abortingReads 0xFFFC (at0400 []))) "open" ∧
    (abortingReads 0x2000 (at0400 [])).firstAbort (AddrMode.writeAccesses (.absx 0x2000) (at0400 []) 0x5A) = none ∧
    isNext (exec (.sta (.absx 0x2000)) { abortingReads 0x2000 (at0400 []) with A := 0x5A })
      (fun t => t.peek 0x2000 == 0x5A) ∧
    isRefusal (exec (.arr 0x01) { at0400 [] with P := 0x08 }) .arrDecimal := by
  decide

/-- A Step that stores, and one that pulls a status with U and B set. -/
theorem witness_StepKeepsInvariant :
    (at0400 [0x85, 0x10]).Inv ∧ isNext (step (at0400 [0x85, 0x10])) (fun _ => true) ∧
    (poke [(0x0100, 0xFF)] (at0400 [0x28])).Inv ∧
    isNext (step (poke [(0x0100, 0xFF)] (at0400 [0x28]))) (fun t => t.P == 0xCF) := by decide

theorem witness_HostCallsKeepInvariant :
    (at0400 [0xEA]).Inv ∧ ∀ c ∈ [HostCall.reset, .nmi, .irq, .setPC 0x34 0x12],
      c ≠ .step ∧ isNext (hostCall c (at0400 [0xEA])) (fun _ => true) := by decide

theorem witness_ResetOperation : (sample 0xCF admitAll).PlainBus := by decide

theorem witness_ResetIdempotentAndOnlyWayOut :
    (sample 0xCF admitAll).PlainBus ∧
    isNext (hostReset { sample 0xCF admitAll with halted := true }) (fun t => !t.halted) ∧
    ∀ c ∈ [HostCall.nmi, .irq, .setPC 0x34 0x12, .step],
      c ≠ .reset ∧ isNext (hostCall c { at0400 [0xEA] with halted := true }) (fun t => t.halted) := by decide

/-- The pushes wrap from $0100 to $01FF. -/
theorem witness_NmiEntry : (sample 0xC3 admitAll).PlainBus ∧ (sample 0xC3 admitAll).S = 0x01 := by
  decide

theorem witness_IrqEntry :
    (sample 0x04 admitAll).flagI = true ∧
    (sample 0x00 admitAll).flagI = false ∧ (sample 0x00 admitAll).PlainBus := by decide

/-- An NMI, an IRQ and a BRK, each followed by an RTI in another state with the same stack. -/
theorem witness_RtiResumesAfterEntry :
    ∀ x ∈ [hostNmi (sample 0xC3 admitAll), hostIrq (sample 0xC3 admitAll),
        exec .brk (sample 0xC3 admitAll)],
      (sample 0xC3 admitAll).P &&& 0x30 = 0 ∧ (sample 0xC3 admitAll).flagI = false ∧
      isNext x (fun t => isNext (exec .rti { t with A := 0x55, PC := 0x0900 }) fun _ => true) := by decide

theorem witness_StackRoundTrips :
    (isNext (exec .php (sample 0xC3 admitAll)) fun t => isNext (exec .plp t) fun _ => true) ∧
    (isNext (exec .pha (sample 0xC3 admitAll)) fun t => isNext (exec .pla t) fun _ => true) ∧
    (isNext (exec (.jsr 0x0500) (sample 0xC3 admitAll)) fun t =>
      isNext (exec .rts { t with A := 0x55, PC := 0x0900 }) fun _ => true) := by decide

/-- By hand from R212: `$0F + $0F` has `lo = 30`, adjusted to 36, and `hi = 1`. -/
theorem witness_DecimalAddition :
    bcdAdd 0x0F 0x0F false = (0x14, false) ∧ BcdValid 0x00 ∧ BcdValid 0x99 := by unfold BcdValid; decide

/-- By hand from R213: `$F0 - $00` has `hi = 15`, which the literal test reads as a borrow; `$00 - $0F` with a borrow has
`lo = -16`, adjusted to -22, and `hi = -1`, adjusted to -7. -/
theorem witness_DecimalSubtraction :
    bcdSub 0xF0 0x00 true = (0xF0, false) ∧ bcdSub 0x00 0x0F false = (0x9A, false) ∧ BcdValid 0x00 ∧ BcdValid 0x99 := by
  unfold BcdValid; decide

/-- (zero page),Y with and without a page crossing. -/
theorem witness_EffectiveAddressClosedForm :
    (sample 0xC3 admitAll).PlainBus ∧
    AddrMode.address (.indy 0x10) (sample 0xC3 admitAll) = 0x2105 ∧
    AddrMode.crossesPage (.indy 0x10) (sample 0xC3 admitAll) = true ∧
    AddrMode.crossesPage (.absy 0x20F8) (sample 0xC3 admitAll) = false := by decide

/-- `$10FE` is a NOP alias's operand, `$FF` in X; an instruction of each shape completes, and IRQ is not masked. -/
theorem witness_AccessesInProgramOrder :
    (sample 0xC3 admitAll).PlainBus ∧ (sample 0xC3 admitAll).params.busTrace = .functional ∧
    (sample 0xC3 admitAll).flagI = false ∧
    ∀ i ∈ [Instr.brk, .jmp (.ind 0x80FF), .nopAlias (.absx 5 0x10FE), .rra (.indy 0x10), .sha (.absy 0x2000), .rti],
      isNext (exec i (sample 0xC3 admitAll)) (fun _ => true) := by decide

theorem witness_LogicalResults : (sample 0xC3 admitAll).PlainBus := by decide
theorem witness_BitTestResult : (sample 0xC3 admitAll).PlainBus := by decide

/-- Binary, decimal with the binary flags, and decimal with drawn flags. -/
theorem witness_AddSubtractResults :
    ((sample 0xC3 admitAll).PlainBus ∧ (sample 0xC3 admitAll).flagD = false) ∧
    ((sample 0x09 admitAll).flagD = true ∧ (sample 0x09 admitAll).params.decimalNzv = .binary) ∧
    ((sample 0x09 ⟨.nmos, .unspecified, .unspecified⟩).PlainBus ∧
      (sample 0x09 ⟨.nmos, .unspecified, .unspecified⟩).flagD = true) := by decide

theorem witness_CompareResults : (sample 0x09 admitAll).PlainBus := by decide
theorem witness_ShiftResults : (sample 0xC3 admitAll).PlainBus := by decide
theorem witness_MemoryIncDecResults : (sample 0xC3 admitAll).PlainBus := by decide
theorem witness_LoadResults : (sample 0xC3 admitAll).PlainBus := by decide
theorem witness_StoreResults : (sample 0xC3 admitAll).PlainBus := by decide
theorem witness_StackResults : (sample 0xC3 admitAll).PlainBus := by decide
theorem witness_JumpResults : (sample 0xC3 admitAll).PlainBus := by decide
theorem witness_SubroutineResults : (sample 0xC3 admitAll).PlainBus := by decide
theorem witness_ReturnFromInterruptResult : (sample 0xC3 admitAll).PlainBus := by decide
theorem witness_BreakResult : (sample 0xC7 admitAll).PlainBus := by decide

/-- Not taken; taken within a page; taken across a page. -/
theorem witness_BranchResults :
    (Instr.bne 0xFE, !(sample 0x02 admitAll).flagZ) = (Instr.bne 0xFE, false) ∧
    (!(sample 0x00 admitAll).flagZ) = true ∧ (sample 0x00 admitAll).PC = 0x0400 ∧
    ((0x047F : Word).toNat : Int) = ((0x0400 : Word).toNat + (0x7F : Byte).toInt) % 65536 ∧
    ((0x03FE : Word).toNat : Int) = ((0x0400 : Word).toNat + (0xFE : Byte).toInt) % 65536 := by decide

theorem witness_NopResults :
    (sample 0x00 admitAll).params.undocProfile ≠ .refuse ∧ (sample 0x00 admitAll).PlainBus ∧
    (sample 0x00 ⟨.nopsOnly, .binary, .functional⟩).params.undocProfile ≠ .refuse := by decide

theorem witness_InvalidOpcodeResult :
    (at0400 [0x9E]).halted = false ∧ (at0400 [0x9E]).PlainBus ∧ (at0400 [0x9E]).peek (at0400 [0x9E]).PC = 0x9E ∧
    (place 0xFFFF [0x9C]).peek (place 0xFFFF [0x9C]).PC = 0x9C := by decide

/-- `v` and `r` for each of the four combinations: the byte at $20FE is $7F. -/
theorem witness_CombinedModifyResults :
    (sample 0xC3 admitAll).params.undocProfile = .nmos ∧ (sample 0xC3 admitAll).PlainBus ∧
    AddrMode.byte (.abs 0x20FE) (sample 0xC3 admitAll) = 0x7F := by decide

theorem witness_CombinedAddResults :
    (sample 0xC3 admitAll).params.undocProfile = .nmos ∧ (sample 0x09 admitAll).PlainBus ∧
    (sample 0x09 admitAll).flagD = true ∧ (sample 0xC3 admitAll).flagD = false ∧
    AddrMode.byte (.indy 0x10) (sample 0x09 admitAll) = 0xC1 := by decide

theorem witness_CombinedLoadStoreResults :
    (sample 0xC3 admitAll).params.undocProfile = .nmos ∧ (sample 0xC3 admitAll).PlainBus ∧
    AddrMode.byte (.absy 0x20FE) (sample 0xC3 admitAll) &&& (sample 0xC3 admitAll).S = 0x01 := by decide

/-- D clear and D set. -/
theorem witness_CombinedImmediateResults :
    (sample 0xC3 admitAll).params.undocProfile = .nmos ∧
    (sample 0xC3 admitAll).flagD = false ∧ (sample 0x09 admitAll).flagD = true := by decide

theorem witness_MagicConstantResults :
    (sample 0xC3 admitAll).params.undocProfile = .nmos ∧
    isNext (exec (.ane 0x0F) (sample 0xC3 admitAll)) (fun _ => true) := by decide

/-- The last address of a page, and the first of the next. -/
theorem witness_HighByteStoreResults :
    (sample 0xC3 admitAll).params.undocProfile = .nmos ∧ (sample 0xC3 admitAll).PlainBus ∧
    AddrMode.crossesPage (.absy 0x20F8) (sample 0xC3 admitAll) = false ∧
    AddrMode.crossesPage (.absy 0x20F9) (sample 0xC3 admitAll) = true := by decide

theorem witness_RegisterFrame :
    isNext (exec (.stx (.zp 0x10)) (sample 0xC3 admitAll)) (fun _ => true) ∧
    Instr.writesA (.stx (.zp 0x10)) = false ∧ Instr.writesX (.stx (.zp 0x10)) = false ∧
    Instr.writesY (.stx (.zp 0x10)) = false ∧ Instr.writesS (.stx (.zp 0x10)) = false ∧
    Instr.writesPC (.stx (.zp 0x10)) = false := by decide

theorem witness_FlagFrame :
    isNext (exec (.cmp (.imm 0x10)) (sample 0xC3 admitAll)) (fun _ => true) ∧
    6 ∉ Instr.flagsWritten (.cmp (.imm 0x10)) := by decide

theorem witness_PlatformFrame :
    isNext (exec (.jsr 0x0500) (sample 0xC3 admitAll)) (fun _ => true) ∧ ∀ k, Instr.jsr 0x0500 ≠ .hlt k := by decide

theorem witness_NoStoreFrame :
    Instr.storesByMode (.asl .acc) = none ∧ Instr.pushes (.asl .acc) = 0 ∧
    isNext (exec (.asl .acc) (sample 0xC3 admitAll)) (fun _ => true) := by decide

theorem witness_StoreFrame :
    (∃ ea s1, effectiveAddress (.indy 0x10) (sample 0xC3 admitAll) = .next (ea, s1) ∧ ea.addr = 0x2105) ∧
    Instr.storesByMode (.rra (.indy 0x10)) = some (.indy 0x10) ∧
    isNext (exec (.rra (.indy 0x10)) (sample 0xC3 admitAll)) (fun _ => true) = true :=
  ⟨⟨_, _, rfl, rfl⟩, rfl, by decide⟩

/-- One, two and three bytes pushed. -/
theorem witness_StackFrame :
    (∀ i ∈ [Instr.php, .jsr 0x0500, .brk], isNext (exec i (sample 0xC3 admitAll)) (fun _ => true)) ∧
    [Instr.pushes .php, Instr.pushes (.jsr 0x0500), Instr.pushes .brk] = [1, 2, 3] := by decide

theorem witness_OnlyTheBusStopsDocumented :
    (sample 0xC3 admitAll).PlainBus ∧
    ∀ i ∈ [Instr.brk, .hlt 0, .invalid 1], i.rowProfile ≠ .undocNop ∧ i.rowProfile ≠ .undocNmos := by decide

end Sys2Proof.Tests
end

section
/-! PROOF. What any family of instructions uses: opcodes that decode as listed, and what a state leaves after its
registers and flags are written. -/

namespace Sys2Proof.Machine

/-! Decoding, from what each opcode fixes. -/

/-- Each opcode that `c` lists for a memory operand fixes the instruction `f` in that mode. -/
structure FixMem (f : AddrMode → Instr) (c : Codes) : Prop where
  zp : c.zp.map decodeOpcode = c.zp.map fun _ => mZp f
  zpx : c.zpx.map decodeOpcode = c.zpx.map fun _ => mZpx f
  zpy : c.zpy.map decodeOpcode = c.zpy.map fun _ => mZpy f
  abs : c.abs.map decodeOpcode = c.abs.map fun _ => mAbs f
  absx : c.absx.map decodeOpcode = c.absx.map fun _ => mAbsx f
  absy : c.absy.map decodeOpcode = c.absy.map fun _ => mAbsy f
  indx : c.indx.map decodeOpcode = c.indx.map fun _ => mIndx f
  indy : c.indy.map decodeOpcode = c.indy.map fun _ => mIndy f

theorem decode_byteCode {code : Option Byte} {g : Byte → Instr} {b : Byte} {bytes : List Byte}
    (hg : code.map decodeOpcode = code.map fun _ => .byte g) (hb : code.map (· :: [b]) = some bytes) :
    decode bytes = .ok (g b, []) := by
  obtain ⟨op, rfl, rfl⟩ := Option.map_eq_some_iff.1 hb
  simp [decode, Option.some.inj hg]

theorem decode_wordCode {code : Option Byte} {g : Word → Instr} {w : Word} {bytes : List Byte}
    (hg : code.map decodeOpcode = code.map fun _ => .word g) (hb : code.map (· :: wordBytes w) = some bytes) :
    decode bytes = .ok (g w, []) := by
  obtain ⟨op, rfl, rfl⟩ := Option.map_eq_some_iff.1 hb
  simp [decode, wordBytes, Option.some.inj hg]

theorem DecodesMem.of_fixMem {f : AddrMode → Instr} {c : Codes} (h : FixMem f c) : DecodesMem f c := by
  intro m bytes hm
  cases m with
  | zp a => exact decode_byteCode h.zp hm
  | zpx a => exact decode_byteCode h.zpx hm
  | zpy a => exact decode_byteCode h.zpy hm
  | abs a => exact decode_wordCode h.abs hm
  | absx a => exact decode_wordCode h.absx hm
  | absy a => exact decode_wordCode h.absy hm
  | indx a => exact decode_byteCode h.indx hm
  | indy a => exact decode_byteCode h.indy hm

theorem DecodesRead.of_fixMem {f : ReadOperand → Instr} {c : Codes}
    (himm : c.imm.map decodeOpcode = c.imm.map fun _ => rImm f) (hmem : FixMem (fun m => f (.mem m)) c) :
    DecodesRead f c := by
  intro o bytes ho
  cases o with
  | imm v => exact decode_byteCode himm ho
  | mem m => exact DecodesMem.of_fixMem hmem m bytes ho

/-! What a state leaves, update by update. -/

/-- Bus accesses that write nothing leave everything as it was. -/
theorem State.leaves_quiet (s : State) (c : Nat) (tr : List BusAccess) (d : Nat) :
    s.Leaves (s.quiet c tr d) s.unchanged := ⟨rfl, rfl, rfl, rfl, rfl, rfl, fun _ => rfl, rfl, rfl, rfl⟩

theorem State.Leaves.withA {s t : State} {e : After} (h : s.Leaves t e) (a : Byte) :
    s.Leaves { t with A := a } { e with A := a } := ⟨rfl, h.2⟩

/-- Writing P writes nothing else. -/
theorem State.Leaves.withP {s t : State} {e : After} (h : s.Leaves t e) {p q : Byte} (hp : p = q) :
    s.Leaves { t with P := p } { e with P := q } := by
  obtain ⟨hA, hX, hY, hS, hPC, -, hrest⟩ := h
  exact ⟨hA, hX, hY, hS, hPC, hp, hrest⟩

/-- `setNZ` on a state whose P is still the first one. -/
theorem State.Leaves.setNZ {s t : State} {e : After} (h : s.Leaves t e) (hP : t.P = s.P) (v : Byte) :
    s.Leaves (t.setNZ v) { e with P := s.statusNZ v } := by
  have hp : (t.setNZ v).P = s.statusNZ v := by
    rw [State.setNZ_P, hP]; exact setNZ_status s v
  exact h.withP hp

/-- N, V and Z written on a state whose P is still the first one. -/
theorem State.Leaves.setNVZ {s t : State} {e : After} (h : s.Leaves t e) (hP : t.P = s.P) (n v z : Bool) :
    s.Leaves (t.setNVZ n v z) { e with P := statusWith s.P n v s.flagD s.flagI z s.flagC } := by
  have hp : (t.setNVZ n v z).P = statusWith s.P n v s.flagD s.flagI z s.flagC := by
    rw [State.setNVZ_P, hP]; exact statusWith_setNVZ s.P n v z
  exact h.withP hp

/-- An instruction of the read class is never refused. -/
theorem NeverRefused.of_readClass {i : Instr} {o : ReadOperand} {f : Byte → State → State}
    (hx : ∀ s, exec i s = readClass o s f) : NeverRefused i :=
  fun s r => hx s ▸ readClass_notRefused r

end Sys2Proof.Machine
end

section
/-! PROOF. ORA, AND, EOR and BIT (spec 40_logical). -/

namespace Sys2Proof.Machine

/-- What ORA, AND and EOR share: A takes an operation of A and M, and N and Z follow it (R200 to R202). -/
def logicalResult (op : Byte → Byte → Byte) (m : Byte) (s : State) : State :=
  { s with A := op s.A m }.setNZ (op s.A m)

theorem exec_ora (o : ReadOperand) (s : State) : exec (.ora o) s = readClass o s (logicalResult (· ||| ·)) := rfl

theorem exec_and (o : ReadOperand) (s : State) : exec (.and o) s = readClass o s (logicalResult (· &&& ·)) := rfl

theorem exec_eor (o : ReadOperand) (s : State) : exec (.eor o) s = readClass o s (logicalResult (· ^^^ ·)) := rfl

theorem exec_bit (m : AddrMode) (s : State) : exec (.bit m) s =
    readClass (.mem m) s fun v s1 => s1.setNVZ (v.getLsbD 7) (v.getLsbD 6) (v &&& s1.A == 0) := rfl

/-- A logical instruction leaves its result in A, N and Z of it, and everything else. -/
theorem Completes.of_logicalResult {i : Instr} {o : ReadOperand} {s : State} {c : ModeCycles}
    (hc : c = { zp := 3, zpx := 4, zpy := 4, abs := 4, absx := 4, absy := 4, indx := 6, indy := 5 }) (h : s.PlainBus)
    {op : Byte → Byte → Byte} (hx : exec i s = readClass o s (logicalResult op)) :
    Completes i s (ReadOperand.cycles c o s) { s.unchanged with
      A := op s.A (ReadOperand.value o s), P := s.statusNZ (op s.A (ReadOperand.value o s)) } :=
  .of_readClass hc h _ hx fun n tr d => ((s.leaves_quiet n tr d).withA _).setNZ rfl _

/-- Settles O27: each opcode's place in the grid gives its decoding; the results are one argument over the operation. -/
theorem logicalResults : Obligations.LogicalResults := by
  refine ⟨⟨.of_fixMem rfl ?_, fun o => .of_readClass (exec_ora o)⟩, ⟨.of_fixMem rfl ?_, fun o => .of_readClass (exec_and o)⟩,
    ⟨.of_fixMem rfl ?_, fun o => .of_readClass (exec_eor o)⟩, fun c o s h hc => ⟨?_, ?_, ?_⟩⟩
  · exact ⟨rfl, rfl, rfl, rfl, rfl, rfl, rfl, rfl⟩
  · exact ⟨rfl, rfl, rfl, rfl, rfl, rfl, rfl, rfl⟩
  · exact ⟨rfl, rfl, rfl, rfl, rfl, rfl, rfl, rfl⟩
  · exact .of_logicalResult hc h (exec_ora o s)
  · exact .of_logicalResult hc h (exec_and o s)
  · exact .of_logicalResult hc h (exec_eor o s)

/-- Settles O28: BIT is a read-class instruction that writes N, V and Z alone. -/
theorem bitTestResult : Obligations.BitTestResult := by
  refine ⟨⟨.of_fixMem ?_, fun v => rfl, fun m => .of_readClass (exec_bit m)⟩, fun c m s h hc => ?_⟩
  · exact ⟨rfl, rfl, rfl, rfl, rfl, rfl, rfl, rfl⟩
  · exact .of_readClass hc h _ (exec_bit m s) fun n tr d => (s.leaves_quiet n tr d).setNVZ rfl _ _ _

end Sys2Proof.Machine
end

section
/-! PROOF. The binary adder, ADC and SBC (spec 41_arithmetic R210 to R216). -/

namespace Sys2Proof.Machine

/-! The binary adder. -/

theorem adcBin_r_toNat (a m : Byte) (cin : Bool) :
    (adcBin a m cin).r.toNat = (a.toNat + m.toNat + cin.toNat) % 256 := BitVec.toNat_ofNat ..

theorem and_0x80_ne_zero : ∀ v : Byte, (v &&& 0x80 != 0) = v.msb := by decide

/-- R210's own words for V: `a` and `m` have the same sign bit and the result has the other. -/
theorem adcBin_V (a m : Byte) (cin : Bool) :
    (adcBin a m cin).V = ((a.msb ^^ (adcBin a m cin).r.msb) && (m.msb ^^ (adcBin a m cin).r.msb)) := by
  rw [← BitVec.msb_xor, ← BitVec.msb_xor, ← BitVec.msb_and]
  exact and_0x80_ne_zero _

/-- The sign bits tell whether the signed sum leaves a byte: only two operands of one sign can do so. -/
theorem adcBin_V_eq_signedOverflow (a m : Byte) (cin : Bool) :
    (adcBin a m cin).V = decide (a.toInt + m.toInt + cin.toNat < -128 ∨ 127 < a.toInt + m.toInt + cin.toNat) := by
  have ha := a.isLt
  have hm := m.isLt
  have hc := cin.toNat_le
  rw [adcBin_V, Bool.eq_iff_iff]
  simp only [BitVec.msb_eq_decide, adcBin_r_toNat, BitVec.toInt_eq_toNat_cond, Bool.and_eq_true, bne_iff_ne, ne_eq,
    decide_eq_decide, decide_eq_true_eq]
  omega

/-- Settles O21: N, Z and C are read off the sum as R210 writes it; V is the equivalence of sign bits and signed range. -/
theorem binaryAddition : Obligations.BinaryAddition :=
  fun a m cin => ⟨adcBin_r_toNat a m cin, rfl, adcBin_V_eq_signedOverflow a m cin, rfl, rfl⟩

/-! The end that ADC, SBC, RRA, ISC and USBC share. -/

theorem addResult_of_binary {s : State} (hD : s.flagD = false) (bin : AluResult) (dec : Byte × Bool) :
    s.addResult bin dec =
      { s with A := bin.r, P := statusWith s.P bin.N bin.V false s.flagI bin.Z bin.C } := by
  have hP : setBit (setBit (setBit (setBit s.P 7 bin.N) 6 bin.V) 1 bin.Z) 0 bin.C =
      statusWith s.P bin.N bin.V false s.flagI bin.Z bin.C := by
    rw [statusWith_setC_after_NVZ, ← hD]; rfl
  rw [← hP, State.addResult, hD]; rfl

/-- With D = 1, N, V and Z are the binary ones, or draws under `DECIMAL_NZV = unspecified` (R214). -/
theorem addResult_of_decimal {s : State} (hD : s.flagD = true) (bin : AluResult) (dec : Byte × Bool) :
    ∃ n v z d, s.addResult bin dec =
        { s with A := dec.1, P := statusWith s.P n v true s.flagI z dec.2, draws := d } ∧
      (s.params.decimalNzv = .binary → n = bin.N ∧ v = bin.V ∧ z = bin.Z) := by
  have hP (n v z : Bool) : statusWith s.P n v true s.flagI z dec.2 =
      setBit (setBit (setBit (setBit s.P 0 dec.2) 7 n) 6 v) 1 z := by
    rw [statusWith_setNVZ_after_C, ← hD]; rfl
  have hdec : s.addResult bin dec = ({ s with A := dec.1 }.setC dec.2).setDecimalNVZ bin := if_pos hD
  cases hz : s.params.decimalNzv with
  | binary =>
    refine ⟨bin.N, bin.V, bin.Z, s.draws, ?_, fun _ => ⟨rfl, rfl, rfl⟩⟩
    rw [hdec, hP, State.setDecimalNVZ, State.setC_params, hz]; rfl
  | unspecified =>
    refine ⟨Config.decimalN s.draws, Config.decimalV s.draws, Config.decimalZ s.draws, s.draws + 1, ?_, nofun⟩
    rw [hdec, hP, State.setDecimalNVZ, State.setC_params, hz]; rfl

/-- An instruction whose last act is an addition in the state `t` completes as one. `t` is `s` after the instruction's
stores, with another carry at most, as RRA feeds in the bit it rotated out. -/
theorem CompletesAddition.of_addResult {i : Instr} {s t : State} {n : Nat} {bin : AluResult} {dec : Byte × Bool}
    {stored : List (Word × Byte)} (hx : exec i s = .next ((t.addResult bin dec).finish n))
    (hl : s.Leaves t { s.unchanged with P := t.P, stored := stored })
    (hP : ∀ k ≠ 0, t.P.getLsbD k = s.P.getLsbD k) : CompletesAddition i s n bin dec stored := by
  have hD : t.flagD = s.flagD := hP 3 (by decide)
  have hI : t.flagI = s.flagI := hP 2 (by decide)
  have hstatus (n v d z c : Bool) : statusWith t.P n v d t.flagI z c = statusWith s.P n v d s.flagI z c := by
    rw [statusWith, hP 5 (by decide), hP 4 (by decide), hI]; rfl
  have hparams : t.params = s.params := by
    obtain ⟨-, -, -, -, -, -, -, -, -, h⟩ := hl
    exact h
  refine ⟨fun hd => ?_, fun hd hz => ?_, fun hd => ?_⟩
  · rw [addResult_of_binary (hD.trans hd)] at hx
    exact .of_finish _ hx ((hl.withA _).withP (hstatus ..))
  · obtain ⟨_, _, _, _, ht, hbin⟩ := addResult_of_decimal (hD.trans hd) bin dec
    obtain ⟨rfl, rfl, rfl⟩ := hbin (hparams ▸ hz)
    rw [ht] at hx
    exact .of_finish _ hx ((hl.withA _).withP (hstatus ..))
  · obtain ⟨fn, fv, fz, _, ht, -⟩ := addResult_of_decimal (hD.trans hd) bin dec
    rw [ht] at hx
    exact ⟨fn, fv, fz, .of_finish _ hx ((hl.withA _).withP (hstatus ..))⟩

/-! ADC and SBC. -/

theorem exec_adc (o : ReadOperand) (s : State) : exec (.adc o) s = readClass o s fun m s1 => s1.adc m := rfl

theorem exec_sbc (o : ReadOperand) (s : State) : exec (.sbc o) s = readClass o s fun m s1 => s1.sbc m := rfl

/-- A read-class instruction that adds its operand to A and C, whatever its two adders are, completes as an addition. -/
theorem CompletesAddition.of_readClass {i : Instr} {o : ReadOperand} {s : State} {c : ModeCycles}
    (hc : c = { zp := 3, zpx := 4, zpy := 4, abs := 4, absx := 4, absy := 4, indx := 6, indy := 5 }) (h : s.PlainBus)
    {bin : Byte → Byte → Bool → AluResult} {dec : Byte → Byte → Bool → Byte × Bool}
    (hx : exec i s = readClass o s fun m s1 => s1.addResult (bin s1.A m s1.flagC) (dec s1.A m s1.flagC)) :
    CompletesAddition i s (ReadOperand.cycles c o s) (bin s.A (ReadOperand.value o s) s.flagC)
      (dec s.A (ReadOperand.value o s) s.flagC) [] := by
  obtain ⟨n, tr, d, e⟩ := readClass_plain h o _
  rw [operandRead_value, operandRead_cycles hc] at e
  exact .of_addResult (hx.trans e) (s.leaves_quiet n tr d) fun _ _ => rfl

/-- Settles O29: each opcode's place in the grid gives its decoding; both results are one argument over the adders. -/
theorem addSubtractResults : Obligations.AddSubtractResults := by
  refine ⟨⟨.of_fixMem rfl ?_, fun o => .of_readClass (exec_adc o)⟩, ⟨.of_fixMem rfl ?_, fun o => .of_readClass (exec_sbc o)⟩,
    fun c o s h hc => ⟨?_, ?_⟩⟩
  · exact ⟨rfl, rfl, rfl, rfl, rfl, rfl, rfl, rfl⟩
  · exact ⟨rfl, rfl, rfl, rfl, rfl, rfl, rfl, rfl⟩
  · exact .of_readClass hc h (exec_adc o s)
  · exact .of_readClass hc h (exec_sbc o s)

end Sys2Proof.Machine
end

section
/-! PROOF. ASL, LSR, ROL and ROR (spec 42_shift_rotate R230 to R233). -/

namespace Sys2Proof.Machine

theorem decode_opcodeAlone {code : Option Byte} {i : Instr} {bytes : List Byte}
    (hi : code.map decodeOpcode = code.map fun _ => .none i) (hb : code.map (fun op => [op]) = some bytes) :
    decode bytes = .ok (i, []) := by
  obtain ⟨op, rfl, rfl⟩ := Option.map_eq_some_iff.1 hb
  simp [decode, Option.some.inj hi]

theorem DecodesShift.of_fixMem {f : ShiftOperand → Instr} {c : Codes}
    (hacc : c.acc.map decodeOpcode = c.acc.map fun _ => .none (f .acc)) (hmem : FixMem (fun m => f (.mem m)) c) :
    DecodesShift f c := by
  intro o bytes ho
  cases o with
  | acc => exact decode_opcodeAlone hacc ho
  | mem m => exact DecodesMem.of_fixMem hmem m bytes ho

/-- One byte stored leaves everything but that byte as it was. -/
theorem State.leaves_store (s : State) (a : Word) (v : Byte) (c : Nat) (tr : List BusAccess) (d : Nat) :
    s.Leaves ((s.store a v).quiet c tr d) { s.unchanged with stored := [(a, v)] } :=
  ⟨rfl, rfl, rfl, rfl, rfl, rfl, fun _ => peek_store_one .., rfl, rfl, rfl⟩

/-- C, N and Z written on a state whose P is still the first one. -/
theorem State.Leaves.shiftFlags {s t : State} {e : After} (h : s.Leaves t e) (hP : t.P = s.P) (out : Bool) (r : Byte) :
    s.Leaves (t.shiftFlags out r) { e with P := s.statusNZC r out } := by
  have hp : (t.shiftFlags out r).P = s.statusNZC r out := by
    rw [State.shiftFlags, State.setNZ_P, State.setC_P, hP]; exact statusWith_setNZ_after_C ..
  exact h.withP hp

/-- `instr` is a shift or rotate: `f` is the byte it makes of `v` in a state, and bit `k` of `v` is shifted out. -/
structure Shifts (instr : ShiftOperand → Instr) (f : Byte → State → Byte) (k : Nat) : Prop where
  exec_eq : ∀ o s, exec (instr o) s = shiftClass o s f fun v r s1 => s1.shiftFlags (v.getLsbD k) r
  /-- The byte depends on the state through P alone: a write to memory between does not change it. -/
  reads_P : ∀ v (u w : State), u.P = w.P → f v u = f v w

theorem shifts_asl : Shifts .asl (fun v _ => aslByte v) 7 := ⟨fun _ _ => rfl, fun _ _ _ _ => rfl⟩

theorem shifts_lsr : Shifts .lsr (fun v _ => lsrByte v) 0 := ⟨fun _ _ => rfl, fun _ _ _ _ => rfl⟩

theorem shifts_rol : Shifts .rol (fun v s => rolByte v s.flagC) 7 :=
  ⟨fun _ _ => rfl, fun v _ _ hP => congrArg (fun p : Byte => rolByte v (p.getLsbD 0)) hP⟩

theorem shifts_ror : Shifts .ror (fun v s => rorByte v s.flagC) 0 :=
  ⟨fun _ _ => rfl, fun v _ _ hP => congrArg (fun p : Byte => rorByte v (p.getLsbD 0)) hP⟩

section
variable {instr : ShiftOperand → Instr} {f : Byte → State → Byte} {k : Nat} (hi : Shifts instr f k)
include hi

theorem Shifts.neverRefused (o : ShiftOperand) : NeverRefused (instr o) :=
  fun s r => hi.exec_eq o s ▸ shiftClass_notRefused r

theorem Shifts.completes_acc {s : State} {r : Byte} (hr : r = f s.A s) :
    Completes (instr .acc) s 2 { s.unchanged with A := r, P := s.statusNZC r (s.A.getLsbD k) } := by
  subst hr
  exact .of_finish _ (hi.exec_eq .acc s) (((s.leaves_quiet s.cycles s.trace s.draws).withA (f s.A s)).shiftFlags rfl _ _)

theorem Shifts.completes_mem {c : ModeCycles} {m : AddrMode} {s : State} {r : Byte}
    (hc : c = { zp := 5, zpx := 6, zpy := 6, abs := 6, absx := 7, absy := 7, indx := 8, indy := 8 }) (h : s.PlainBus)
    (hr : r = f (AddrMode.byte m s) s) :
    Completes (instr (.mem m)) s (c.base m) { s.unchanged with
      P := s.statusNZC r ((AddrMode.byte m s).getLsbD k), stored := [(AddrMode.address m s, r)] } := by
  obtain ⟨n, tr, d, e⟩ := rmwMemory_completes (g := fun v r s1 => s1.shiftFlags (v.getLsbD k) r) hc h hi.reads_P rfl hr
  exact .of_finish _ ((hi.exec_eq (.mem m) s).trans e) ((s.leaves_store _ r n tr d).shiftFlags rfl _ _)

end

/-- Settles O31: each opcode's place in the grid gives its decoding; the results are one argument over the byte made and
the bit shifted out. -/
theorem shiftResults : Obligations.ShiftResults := by
  refine ⟨⟨.of_fixMem rfl ?_, shifts_asl.neverRefused⟩, ⟨.of_fixMem rfl ?_, shifts_lsr.neverRefused⟩,
    ⟨.of_fixMem rfl ?_, shifts_rol.neverRefused⟩, ⟨.of_fixMem rfl ?_, shifts_ror.neverRefused⟩,
    fun s => ?onA, fun c m s h hc => ?onMemory⟩
  case onA =>
    simp only [List.forall_mem_cons, List.not_mem_nil, false_imp_iff, implies_true, and_true]
    exact ⟨shifts_asl.completes_acc rfl, shifts_lsr.completes_acc rfl, shifts_rol.completes_acc (rolByte_eq ..).symm,
      shifts_ror.completes_acc (rorByte_eq ..).symm⟩
  case onMemory =>
    simp only [List.forall_mem_cons, List.not_mem_nil, false_imp_iff, implies_true, and_true]
    exact ⟨shifts_asl.completes_mem hc h rfl, shifts_lsr.completes_mem hc h rfl,
      shifts_rol.completes_mem hc h (rolByte_eq ..).symm, shifts_ror.completes_mem hc h (rorByte_eq ..).symm⟩
  all_goals exact ⟨rfl, rfl, rfl, rfl, rfl, rfl, rfl, rfl⟩

end Sys2Proof.Machine
end

section
/-! PROOF. LDA, LDX, LDY, STA, STX and STY (spec 43_load_store). -/

namespace Sys2Proof.Machine

/-! Loads. -/

theorem State.Leaves.withX {s t : State} {e : After} (h : s.Leaves t e) (x : Byte) :
    s.Leaves { t with X := x } { e with X := x } := by
  obtain ⟨hA, -, hrest⟩ := h
  exact ⟨hA, rfl, hrest⟩

theorem State.Leaves.withY {s t : State} {e : After} (h : s.Leaves t e) (y : Byte) :
    s.Leaves { t with Y := y } { e with Y := y } := by
  obtain ⟨hA, hX, -, hrest⟩ := h
  exact ⟨hA, hX, rfl, hrest⟩

theorem exec_lda (o : ReadOperand) (s : State) :
    exec (.lda o) s = readClass o s fun m s1 => { s1 with A := m }.setNZ m := rfl

theorem exec_ldx (o : ReadOperand) (s : State) :
    exec (.ldx o) s = readClass o s fun m s1 => { s1 with X := m }.setNZ m := rfl

theorem exec_ldy (o : ReadOperand) (s : State) :
    exec (.ldy o) s = readClass o s fun m s1 => { s1 with Y := m }.setNZ m := rfl

/-- Settles O33: each opcode's place in the grid gives its decoding; a load writes one register, and N and Z follow it. -/
theorem loadResults : Obligations.LoadResults := by
  refine ⟨⟨.of_fixMem rfl ?_, fun o => .of_readClass (exec_lda o)⟩, ⟨.of_fixMem rfl ?_, fun o => .of_readClass (exec_ldx o)⟩,
    ⟨.of_fixMem rfl ?_, fun o => .of_readClass (exec_ldy o)⟩, fun c o s h hc => ⟨?_, ?_, ?_⟩⟩
  · exact ⟨rfl, rfl, rfl, rfl, rfl, rfl, rfl, rfl⟩
  · exact ⟨rfl, rfl, rfl, rfl, rfl, rfl, rfl, rfl⟩
  · exact ⟨rfl, rfl, rfl, rfl, rfl, rfl, rfl, rfl⟩
  · exact .of_readClass hc h _ (exec_lda o s) fun n tr d => ((s.leaves_quiet n tr d).withA _).setNZ rfl _
  · exact .of_readClass hc h _ (exec_ldx o s) fun n tr d => ((s.leaves_quiet n tr d).withX _).setNZ rfl _
  · exact .of_readClass hc h _ (exec_ldy o s) fun n tr d => ((s.leaves_quiet n tr d).withY _).setNZ rfl _

/-! Stores. -/

/-- An instruction of the write class is never refused, whatever byte of the state it stores. -/
theorem NeverRefused.of_writeClass {i : Instr} {m : AddrMode} {v : State → Byte}
    (hx : ∀ s, exec i s = writeClass m s (v s)) : NeverRefused i :=
  fun s r => hx s ▸ writeClass_notRefused r

theorem exec_sta (m : AddrMode) (s : State) : exec (.sta m) s = writeClass m s s.A := rfl

theorem exec_stx (m : AddrMode) (s : State) : exec (.stx m) s = writeClass m s s.X := rfl

theorem exec_sty (m : AddrMode) (s : State) : exec (.sty m) s = writeClass m s s.Y := rfl

/-- Settles O34: each opcode's place in the grid gives its decoding; a store is the write class on one register, whose
column of cycles knows no page crossing. -/
theorem storeResults : Obligations.StoreResults := by
  refine ⟨⟨.of_fixMem ?_, fun v => rfl, fun m => .of_writeClass (exec_sta m)⟩,
    ⟨.of_fixMem ?_, fun m => .of_writeClass (exec_stx m)⟩, ⟨.of_fixMem ?_, fun m => .of_writeClass (exec_sty m)⟩,
    fun c m s h hc => ?results⟩
  case results =>
    simp only [List.forall_mem_cons, List.not_mem_nil, false_imp_iff, implies_true, and_true]
    exact ⟨.of_writeClass hc h (exec_sta m s), .of_writeClass hc h (exec_stx m s), .of_writeClass hc h (exec_sty m s)⟩
  all_goals exact ⟨rfl, rfl, rfl, rfl, rfl, rfl, rfl, rfl⟩

end Sys2Proof.Machine
end

section
/-! PROOF. The register transfers, increments and decrements, and INC and DEC (spec 44_transfer_incdec). -/

namespace Sys2Proof.Machine

/-! INC and DEC of memory. -/

theorem exec_inc (m : AddrMode) (s : State) :
    exec (.inc m) s = rmwMemory m s (fun v _ => v + 1) fun _ r s1 => s1.setNZ r := rfl

theorem exec_dec (m : AddrMode) (s : State) :
    exec (.dec m) s = rmwMemory m s (fun v _ => v - 1) fun _ r s1 => s1.setNZ r := rfl

/-- A read-modify-write instruction on memory is never refused. -/
theorem NeverRefused.of_rmwMemory {i : Instr} {m : AddrMode} {f : Byte → State → Byte} {g : Byte → Byte → State → State}
    (hx : ∀ s, exec i s = rmwMemory m s f g) : NeverRefused i :=
  fun s r => hx s ▸ rmwMemory_notRefused r

/-- A read-modify-write instruction that makes a byte of the byte alone, and N and Z of it, leaves everything else. -/
theorem Completes.of_rmwMemory_setNZ {i : Instr} {m : AddrMode} {s : State} {op : Byte → Byte} {c : ModeCycles}
    (hc : c = { zp := 5, zpx := 6, zpy := 6, abs := 6, absx := 7, absy := 7, indx := 8, indy := 8 }) (h : s.PlainBus)
    (hx : exec i s = rmwMemory m s (fun v _ => op v) fun _ r s1 => s1.setNZ r) :
    Completes i s (c.base m) { s.unchanged with
      P := s.statusNZ (op (AddrMode.byte m s)), stored := [(AddrMode.address m s, op (AddrMode.byte m s))] } := by
  obtain ⟨n, tr, d, e⟩ := rmwMemory_completes (f := fun v _ => op v) (g := fun _ r s1 => s1.setNZ r) hc h
    (fun _ _ _ _ => rfl) rfl rfl
  exact .of_finish _ (hx.trans e) ((s.leaves_store _ _ n tr d).setNZ rfl _)

/-- Settles O32: each opcode's place in the grid gives its decoding; both results are one argument over the byte made. -/
theorem memoryIncDecResults : Obligations.MemoryIncDecResults := by
  refine ⟨⟨.of_fixMem ?_, fun m => .of_rmwMemory (exec_inc m)⟩, ⟨.of_fixMem ?_, fun m => .of_rmwMemory (exec_dec m)⟩,
    fun c m s h hc => ?results⟩
  case results =>
    simp only [List.forall_mem_cons, List.not_mem_nil, false_imp_iff, implies_true, and_true]
    exact ⟨.of_rmwMemory_setNZ (op := (· + 1)) hc h (exec_inc m s),
      .of_rmwMemory_setNZ (op := (· - 1)) hc h (exec_dec m s)⟩
  all_goals exact ⟨rfl, rfl, rfl, rfl, rfl, rfl, rfl, rfl⟩

/-! One register written in 2 cycles, with N and Z of it, and no bus access. -/

theorem State.leaves_self (s : State) : s.Leaves s s.unchanged := s.leaves_quiet s.cycles s.trace s.draws

theorem Completes.of_setA_setNZ {i : Instr} {s : State} {v : Byte}
    (hx : exec i s = .next (({ s with A := v }.setNZ v).finish 2)) :
    Completes i s 2 { s.unchanged with A := v, P := s.statusNZ v } :=
  .of_finish _ hx ((s.leaves_self.withA v).setNZ rfl v)

theorem Completes.of_setX_setNZ {i : Instr} {s : State} {v : Byte}
    (hx : exec i s = .next (({ s with X := v }.setNZ v).finish 2)) :
    Completes i s 2 { s.unchanged with X := v, P := s.statusNZ v } :=
  .of_finish _ hx ((s.leaves_self.withX v).setNZ rfl v)

theorem Completes.of_setY_setNZ {i : Instr} {s : State} {v : Byte}
    (hx : exec i s = .next (({ s with Y := v }.setNZ v).finish 2)) :
    Completes i s 2 { s.unchanged with Y := v, P := s.statusNZ v } :=
  .of_finish _ hx ((s.leaves_self.withY v).setNZ rfl v)

/-- Writing S writes nothing else, the flags included. -/
theorem State.Leaves.withS {s t : State} {e : After} (h : s.Leaves t e) (v : Byte) :
    s.Leaves { t with S := v } { e with S := v } := by
  obtain ⟨hA, hX, hY, -, hrest⟩ := h
  exact ⟨hA, hX, hY, rfl, hrest⟩

/-- Settles O35: five transfers write their register and N and Z of it; TXS writes S alone. -/
theorem transferResults : Obligations.TransferResults := by
  refine ⟨⟨rfl, rfl, rfl, rfl, rfl, rfl⟩, fun s => ⟨?tax, ?tay, ?txa, ?tya, ?tsx, ?txs⟩⟩
  case tax => exact .of_setX_setNZ rfl
  case tay => exact .of_setY_setNZ rfl
  case txa => exact .of_setA_setNZ rfl
  case tya => exact .of_setA_setNZ rfl
  case tsx => exact .of_setX_setNZ rfl
  case txs => exact .of_finish _ rfl (s.leaves_self.withS s.X)

/-- Settles O36: each writes X or Y, and N and Z of the byte written. -/
theorem registerIncDecResults : Obligations.RegisterIncDecResults := by
  refine ⟨⟨rfl, rfl, rfl, rfl⟩, fun s => ⟨?inx, ?iny, ?dex, ?dey⟩⟩
  case inx => exact .of_setX_setNZ rfl
  case iny => exact .of_setY_setNZ rfl
  case dex => exact .of_setX_setNZ rfl
  case dey => exact .of_setY_setNZ rfl

end Sys2Proof.Machine
end

section
/-! PROOF. PHA, PHP, PLA and PLP (spec 45_stack R270 to R273). -/

namespace Sys2Proof.Machine

theorem stackAddress_eq_or (sp : Byte) : stackAddress sp = 0x0100 ||| sp.setWidth 16 := rfl

theorem exec_pha (s : State) : exec .pha s = finishAfter (push s.A s) 3 := rfl

theorem exec_php (s : State) : exec .php s = finishAfter (push (s.P ||| 0x30) s) 3 := rfl

theorem exec_pla (s : State) :
    exec .pla s = andThen (pull s) fun v s1 => .next (({ s1 with A := v }.setNZ v).finish 4) := rfl

theorem exec_plp (s : State) : exec .plp s = finishAfter (pullStatus s) 4 := rfl

/-- An instruction whose meaning is built of operations that never refuse is never refused. -/
theorem NeverRefused.of_exec {i : Instr} {x : State → Host.Outcome State Fault Refusal}
    (hx : ∀ s, exec i s = x s) (h : ∀ s, NotRefused (x s)) : NeverRefused i :=
  fun s r => hx s ▸ h s r

/-- An instruction that is one operation and the end of the Step leaves what the operation leaves. -/
theorem Completes.of_finishAfter {i : Instr} {s t : State} {n : Nat} {e : After} {x : Res Unit}
    (hx : exec i s = finishAfter x n) (ht : x = .next ((), t)) (hl : s.Leaves t e) : Completes i s n e := by
  subst ht
  exact .of_finish t hx hl

/-- An instruction that pushes one byte stores it at the stack address and lowers S by one. -/
theorem Completes.of_push {i : Instr} {s : State} {v : Byte} {n : Nat} (h : s.PlainBus)
    (hx : exec i s = finishAfter (push v s) n) :
    Completes i s n { s.unchanged with S := s.S - 1, stored := [(stackAddress s.S, v)] } := by
  obtain ⟨c, tr, d, hpush⟩ := push_plain h v
  exact .of_finishAfter hx hpush ((s.leaves_store _ v c tr d).withS _)

/-- A pull reads memory and raises S by one. -/
theorem State.leaves_pull (s : State) (c : Nat) (tr : List BusAccess) (d : Nat) :
    s.Leaves ({ s with S := s.S + 1 }.quiet c tr d) { s.unchanged with S := s.S + 1 } :=
  (s.leaves_quiet c tr d).withS _

/-- Settles O37: a push is one store and a pull one read at the stack address, which is `$0100 | S`; what is left is the
byte each instruction pushes, or the registers it writes from the byte pulled. -/
theorem stackResults : Obligations.StackResults := by
  refine ⟨⟨rfl, rfl, rfl, rfl⟩, ?neverRefused, fun s h => ?results⟩
  case neverRefused =>
    simp only [List.forall_mem_cons, List.not_mem_nil, false_imp_iff, implies_true, and_true]
    exact ⟨.of_exec exec_pha fun _ => finishAfter_notRefused push_notRefused,
      .of_exec exec_php fun _ => finishAfter_notRefused push_notRefused,
      .of_exec exec_pla fun _ => .andThen pull_notRefused fun _ _ => .next _,
      .of_exec exec_plp fun _ => finishAfter_notRefused pullStatus_notRefused⟩
  case results =>
    simp only [← stackAddress_eq_or]
    refine ⟨.of_push h (exec_pha s), .of_push h (exec_php s), ?pla, ?plp⟩
    case pla =>
      obtain ⟨c, tr, d, hpull⟩ := pull_plain h
      have hx := exec_pla s
      rw [hpull, andThen_next] at hx
      exact .of_finish _ hx (((s.leaves_pull c tr d).withA _).setNZ rfl _)
    case plp =>
      obtain ⟨c, tr, d, hpull⟩ := pullStatus_plain h
      exact .of_finishAfter (exec_plp s) hpull ((s.leaves_pull c tr d).withP rfl)

end Sys2Proof.Machine
end

section
/-! PROOF. JMP, RTI and the conditional branches (spec 46_control). -/

namespace Sys2Proof.Machine

/-- Writing PC writes nothing else. -/
theorem State.Leaves.withPC {s t : State} {e : After} (h : s.Leaves t e) (a : Word) :
    s.Leaves { t with PC := a } { e with PC := a } := by
  obtain ⟨hA, hX, hY, hS, -, hrest⟩ := h
  exact ⟨hA, hX, hY, hS, rfl, hrest⟩

/-! JMP. -/

theorem exec_jmp_abs (a : Word) (s : State) : exec (.jmp (.abs a)) s = .next ({ s with PC := a }.finish 3) := rfl

theorem exec_jmp_ind (p : Word) (s : State) : exec (.jmp (.ind p)) s =
    andThen (readIndirect p s) fun a s1 => .next ({ s1 with PC := a }.finish 5) := rfl

theorem readIndirect_notRefused {p : Word} {s : State} : NotRefused (readIndirect p s) :=
  .andThen memRead_notRefused fun _ _ => .andThen memRead_notRefused fun _ _ => .next _

/-- The pointer's high byte comes from the page of its low byte (R83). -/
theorem readIndirect_plain {s : State} (h : s.PlainBus) (p : Word) :
    ∃ c tr d, readIndirect p s =
      .next (wordOf (s.peek (wordOf (highByte p) (lowByte p + 1))) (s.peek p), s.quiet c tr d) := by
  obtain ⟨c, tr, d, elo⟩ := memRead_plain h p
  obtain ⟨c', tr', d', ehi⟩ := memRead_plain (s := s.quiet c tr d) h (wordOf (highByte p) (lowByte p + 1))
  exact ⟨c', tr', d', by simp only [readIndirect, elo, ehi, andThen_next, State.quiet_peek, State.quiet_quiet]⟩

/-- Settles O38: absolute JMP makes no access; indirect JMP makes the two reads of its pointer and writes PC alone. -/
theorem jumpResults : Obligations.JumpResults := by
  refine ⟨fun a => ⟨?decodeAbs, ?decodeInd⟩, fun j => ?neverRefused, fun a s => ⟨?absolute, fun h => ?indirect⟩⟩
  case decodeAbs => exact decode_wordCode (code := some 0x4C) (g := fun w => .jmp (.abs w)) rfl rfl
  case decodeInd => exact decode_wordCode (code := some 0x6C) (g := fun w => .jmp (.ind w)) rfl rfl
  case neverRefused =>
    cases j with
    | abs a => exact .of_exec (exec_jmp_abs a) fun _ => .next _
    | ind p => exact .of_exec (exec_jmp_ind p) fun _ => .andThen readIndirect_notRefused fun _ _ => .next _
  case absolute => exact .of_finish _ (exec_jmp_abs a s) (s.leaves_self.withPC a)
  case indirect =>
    obtain ⟨c, tr, d, hread⟩ := readIndirect_plain h a
    have hx := exec_jmp_ind a s
    rw [hread, andThen_next] at hx
    exact .of_finish _ hx ((s.leaves_quiet c tr d).withPC _)

/-! RTI. -/

theorem exec_rti (s : State) : exec .rti s = finishAfter (returnFromInterrupt s) 6 := rfl

/-- Settles O40: RTI is the return from an interrupt, which pulls P and then PC; its three pulls raise S by 3. -/
theorem returnFromInterruptResult : Obligations.ReturnFromInterruptResult := by
  refine ⟨rfl, .of_exec exec_rti fun _ => finishAfter_notRefused returnFromInterrupt_notRefused, fun s h => ?_⟩
  obtain ⟨c, tr, d, hreturn⟩ := returnFromInterrupt_plain h
  have htwo : s.S + 1 + 1 = s.S + 2 := BitVec.add_assoc s.S 1 1
  have hthree : s.S + 2 + 1 = s.S + 3 := BitVec.add_assoc s.S 2 1
  rw [htwo, hthree] at hreturn
  exact .of_finishAfter (exec_rti s) hreturn ((((s.leaves_quiet c tr d).withS _).withPC _).withP rfl)

/-! The conditional branches. -/

theorem branch_true (d : Byte) (s : State) : branch true d s =
    .next ({ s with PC := s.PC + signExtend16 d }.finish
      (if highByte (s.PC + signExtend16 d) = highByte s.PC then 3 else 4)) := rfl

theorem branch_false (d : Byte) (s : State) : branch false d s = .next (s.finish 2) := rfl

theorem highByte_eq_iff (a b : Word) : highByte a = highByte b ↔ a.toNat / 256 = b.toNat / 256 := by
  rw [← BitVec.toNat_inj, highByte_toNat, highByte_toNat]

/-- The word that is the signed sum modulo 65536 is the sum of words with the displacement sign extended. -/
theorem eq_add_signExtend16 {pc target : Word} {d : Byte}
    (h : (target.toNat : Int) = (pc.toNat + d.toInt) % 65536) : target = pc + signExtend16 d := by
  apply BitVec.eq_of_toNat_eq
  simp only [signExtend16, BitVec.signExtend, BitVec.toNat_add, BitVec.toNat_ofInt]
  omega

/-- An instruction that branches on `cond` changes nothing where `cond` is false, and PC alone where it is true. -/
theorem branchResults_of_exec {i : Instr} {cond : Bool} {d : Byte} {s : State} (hx : exec i s = branch cond d s) :
    (cond = false → Completes i s 2 s.unchanged) ∧
    (cond = true → ∀ target : Word, (target.toNat : Int) = (s.PC.toNat + d.toInt) % 65536 →
      Completes i s (if target.toNat / 256 = s.PC.toNat / 256 then 3 else 4) { s.unchanged with PC := target }) := by
  constructor
  case left =>
    rintro rfl
    exact .of_finish _ (hx.trans (branch_false d s)) s.leaves_self
  case right =>
    rintro rfl target htarget
    obtain rfl := eq_add_signExtend16 htarget
    simp only [← highByte_eq_iff]
    exact .of_finish _ (hx.trans (branch_true d s)) (s.leaves_self.withPC _)

/-- Settles O42: each branch is the common rule of R285 on its own condition. -/
theorem branchResults : Obligations.BranchResults := by
  refine ⟨fun d => ⟨rfl, rfl, rfl, rfl, rfl, rfl, rfl, rfl⟩, fun d s => ?results⟩
  simp only [List.forall_mem_cons, List.not_mem_nil, false_imp_iff, implies_true, and_true]
  refine ⟨?bpl, ?bmi, ?bvc, ?bvs, ?bcc, ?bcs, ?bne, ?beq⟩
  all_goals exact branchResults_of_exec rfl

end Sys2Proof.Machine
end

section
/-! PROOF. CLC, SEC, CLI, SEI, CLV, CLD and SED (spec 47_flag_ops R300 to R306). -/

namespace Sys2Proof.Machine

/-! Writing one flag, in the layout of R25; `statusWith_setI` says it of I. -/

theorem statusWith_setC : ∀ (p : Byte) (b : Bool), setBit p 0 b =
    statusWith p (p.getLsbD 7) (p.getLsbD 6) (p.getLsbD 3) (p.getLsbD 2) (p.getLsbD 1) b := by decide

theorem statusWith_setD : ∀ (p : Byte) (b : Bool), setBit p 3 b =
    statusWith p (p.getLsbD 7) (p.getLsbD 6) b (p.getLsbD 2) (p.getLsbD 1) (p.getLsbD 0) := by decide

theorem statusWith_setV : ∀ (p : Byte) (b : Bool), setBit p 6 b =
    statusWith p (p.getLsbD 7) b (p.getLsbD 3) (p.getLsbD 2) (p.getLsbD 1) (p.getLsbD 0) := by decide

/-- An instruction that writes one bit of P in 2 cycles leaves every other register and all of memory. -/
theorem Completes.of_setBit {i : Instr} {s : State} {k : Nat} {b : Bool} {p : Byte}
    (hx : exec i s = .next ({ s with P := setBit s.P k b }.finish 2)) (hp : setBit s.P k b = p) :
    Completes i s 2 { s.unchanged with P := p } :=
  .of_finish _ hx (s.leaves_self.withP hp)

/-- Settles O43: each instruction writes one bit of P, which is the status register with that one flag replaced. -/
theorem flagResults : Obligations.FlagResults := by
  refine ⟨⟨rfl, rfl, rfl, rfl, rfl, rfl, rfl⟩, fun s => ⟨?clc, ?sec, ?cli, ?sei, ?clv, ?cld, ?sed⟩⟩
  case clc => exact .of_setBit rfl (statusWith_setC s.P false)
  case sec => exact .of_setBit rfl (statusWith_setC s.P true)
  case cli => exact .of_setBit rfl (statusWith_setI s.P false)
  case sei => exact .of_setBit rfl (statusWith_setI s.P true)
  case clv => exact .of_setBit rfl (statusWith_setV s.P false)
  case cld => exact .of_setBit rfl (statusWith_setD s.P false)
  case sed => exact .of_setBit rfl (statusWith_setD s.P true)

end Sys2Proof.Machine
end

section
/-! PROOF. The combined opcodes on memory: SLO, RLA, SRE, DCP, RRA, ISC, SAX, LAX and LAS (spec 49_undocumented R331 to
R338, R346). Under `UNDOC_PROFILE = nmos` each is one of the instruction classes. -/

namespace Sys2Proof.Machine

/-! SLO, RLA and SRE: a shift or rotate of memory whose byte goes on into A. -/

/-- What SLO, RLA and SRE share: C takes the bit shifted out, A an operation of A and the byte made, and N and Z follow A
(R331 to R333). -/
def combineIntoA (op : Byte → Byte → Byte) (out : Bool) (r : Byte) (s : State) : State :=
  { s with A := op s.A r }.shiftFlags out (op s.A r)

section
variable {m : AddrMode} {s : State} (hn : s.params.undocProfile = .nmos)
include hn

theorem exec_slo : exec (.slo m) s =
    rmwMemory m s (fun v _ => aslByte v) fun v r s1 => combineIntoA (· ||| ·) (v.getLsbD 7) r s1 :=
  whenNmosAdmitted_admits hn _

theorem exec_rla : exec (.rla m) s =
    rmwMemory m s (fun v s1 => rolByte v s1.flagC) fun v r s1 => combineIntoA (· &&& ·) (v.getLsbD 7) r s1 :=
  whenNmosAdmitted_admits hn _

theorem exec_sre : exec (.sre m) s =
    rmwMemory m s (fun v _ => lsrByte v) fun v r s1 => combineIntoA (· ^^^ ·) (v.getLsbD 0) r s1 :=
  whenNmosAdmitted_admits hn _

theorem exec_dcp : exec (.dcp m) s = rmwMemory m s (fun v _ => v - 1) fun _ r s1 => s1.compare s1.A r :=
  whenNmosAdmitted_admits hn _

theorem exec_rra : exec (.rra m) s =
    rmwMemory m s (fun v s1 => rorByte v s1.flagC) fun v r s1 => (s1.setC (v.getLsbD 0)).adc r :=
  whenNmosAdmitted_admits hn _

theorem exec_isc : exec (.isc m) s = rmwMemory m s (fun v _ => v + 1) fun _ r s1 => s1.sbc r :=
  whenNmosAdmitted_admits hn _

theorem exec_sax : exec (.sax m) s = writeClass m s (s.A &&& s.X) := whenNmosAdmitted_admits hn _

theorem exec_lax : exec (.lax m) s = readClass (.mem m) s fun v s1 => { s1 with A := v, X := v }.setNZ v :=
  whenNmosAdmitted_admits hn _

theorem exec_las {a : Word} : exec (.las a) s = readClass (.mem (.absy a)) s fun v s1 =>
    { s1 with A := v &&& s1.S, X := v &&& s1.S, S := v &&& s1.S }.setNZ (v &&& s1.S) :=
  whenNmosAdmitted_admits hn _

end

/-- An instruction that shifts a byte of memory as `instr` does and combines it into A leaves the byte, A and the flags. -/
theorem Shifts.completes_combineIntoA {instr : ShiftOperand → Instr} {f : Byte → State → Byte} {k : Nat}
    (hi : Shifts instr f k) {i : Instr} {m : AddrMode} {s : State} {op : Byte → Byte → Byte} {c : ModeCycles} {v r : Byte}
    (hc : c = { zp := 5, zpx := 6, zpy := 6, abs := 6, absx := 7, absy := 7, indx := 8, indy := 8 }) (h : s.PlainBus)
    (hx : exec i s = rmwMemory m s f fun v r s1 => combineIntoA op (v.getLsbD k) r s1)
    (hv : v = AddrMode.byte m s) (hr : r = f v s) :
    Completes i s (c.base m) { s.unchanged with
      A := op s.A r, P := s.statusNZC (op s.A r) (v.getLsbD k), stored := [(AddrMode.address m s, r)] } := by
  obtain ⟨n, tr, d, e⟩ := rmwMemory_completes hc h hi.reads_P hv hr
  exact .of_finish _ (hx.trans e) (((s.leaves_store _ r n tr d).withA _).shiftFlags rfl _ _)

/-- `compare` on a state whose P is still the first one: N and Z of the difference, C the unsigned comparison (R217). -/
theorem State.Leaves.compare {s t : State} {e : After} (h : s.Leaves t e) (hP : t.P = s.P) (a v : Byte) :
    s.Leaves (t.compare a v) { e with P := s.statusNZC (a - v) (decide (v ≤ a)) } := by
  have hp : (t.compare a v).P = s.statusNZC (a - v) (decide (v ≤ a)) := by
    rw [State.compare, State.setC_P, State.setNZ_P, hP]; exact statusWith_setC_after_NZ ..
  exact h.withP hp

/-- Settles O47: each opcode's place in the grid gives its decoding; SLO, RLA and SRE are one argument over the shift and
the operation on A, and DCP stores the byte that it then compares with A. -/
theorem combinedModifyResults : Obligations.CombinedModifyResults := by
  refine ⟨.of_fixMem ?_, .of_fixMem ?_, .of_fixMem ?_, .of_fixMem ?_,
    fun c m s hn h hc v r hv => ⟨fun hr => ?slo, fun hr => ?rla, fun hr => ?sre, fun hr => ?dcp⟩⟩
  case slo => exact shifts_asl.completes_combineIntoA hc h (exec_slo hn) hv hr
  case rla => exact shifts_rol.completes_combineIntoA hc h (exec_rla hn) hv (hr.trans (rolByte_eq ..).symm)
  case sre => exact shifts_lsr.completes_combineIntoA hc h (exec_sre hn) hv hr
  case dcp =>
    obtain ⟨n, tr, d, e⟩ := rmwMemory_completes (f := fun v _ => v - 1) (g := fun _ r s1 => s1.compare s1.A r) hc h
      (fun _ _ _ _ => rfl) hv hr
    exact .of_finish _ ((exec_dcp hn).trans e) ((s.leaves_store _ r n tr d).compare rfl _ _)
  all_goals exact ⟨rfl, rfl, rfl, rfl, rfl, rfl, rfl, rfl⟩

/-! RRA and ISC: a byte of memory changed, then added to A or subtracted from it. -/

@[simp] theorem State.setC_flagC (s : State) (b : Bool) : (s.setC b).flagC = b := by simp [State.flagC]

/-- ADC right after C is written adds that C: so RRA feeds in the bit it rotated out (R334). -/
theorem State.adc_setC (s : State) (b : Bool) (r : Byte) :
    (s.setC b).adc r = (s.setC b).addResult (adcBin s.A r b) (bcdAdd s.A r b) := by
  rw [State.adc, State.setC_flagC, State.setC_A]

/-- Settles O48: each opcode's place in the grid gives its decoding; after the store both end as ADC and SBC do, RRA on a
state whose C is the bit rotated out. -/
theorem combinedAddResults : Obligations.CombinedAddResults := by
  refine ⟨.of_fixMem ?_, .of_fixMem ?_, fun c m s hn h hc v r hv => ⟨fun hr => ?rra, fun hr => ?isc⟩⟩
  case rra =>
    obtain ⟨n, tr, d, e⟩ := rmwMemory_completes (g := fun v r s1 => (s1.setC (v.getLsbD 0)).adc r) hc h shifts_ror.reads_P hv
      (hr.trans (rorByte_eq ..).symm)
    rw [← exec_rra hn, State.adc_setC] at e
    exact .of_addResult e ((s.leaves_store _ r n tr d).withP rfl) fun k hk => by simp [hk]
  case isc =>
    obtain ⟨n, tr, d, e⟩ := rmwMemory_completes (f := fun v _ => v + 1) (g := fun _ r s1 => s1.sbc r) hc h
      (fun _ _ _ _ => rfl) hv hr
    exact .of_addResult ((exec_isc hn).trans e) (s.leaves_store _ r n tr d) fun _ _ => rfl
  all_goals exact ⟨rfl, rfl, rfl, rfl, rfl, rfl, rfl, rfl⟩

/-! SAX, LAX and LAS. -/

/-- Settles O49: each opcode's place in the grid gives its decoding; SAX is the write class on A AND X, LAX and LAS the read
class, with several registers written from one byte. -/
theorem combinedLoadStoreResults : Obligations.CombinedLoadStoreResults := by
  refine ⟨.of_fixMem ?_, .of_fixMem ?_, fun a => decode_wordBytes 0xBB a [], fun r w m a s hn h hr hw => ⟨?sax, ?lax, ?las⟩⟩
  case sax => exact .of_writeClass hw h (exec_sax hn)
  case lax =>
    exact .of_readClass hr h _ (exec_lax hn) fun n tr d => (((s.leaves_quiet n tr d).withA _).withX _).setNZ rfl _
  case las =>
    rintro v rfl
    have hcycles : ReadOperand.cycles r (.mem (.absy a)) s = if AddrMode.crossesPage (.absy a) s then 5 else 4 := by
      subst hr
      exact apply_ite (4 + ·) (AddrMode.crossesPage (.absy a) s = true) 1 0
    exact hcycles ▸ .of_readClass hr h _ (exec_las hn) fun n tr d =>
      ((((s.leaves_quiet n tr d).withA _).withX _).withS _).setNZ rfl _
  all_goals exact ⟨rfl, rfl, rfl, rfl, rfl, rfl, rfl, rfl⟩

end Sys2Proof.Machine
end

section
/-! PROOF. Reset, and the host calls on a halted core (spec 70_reset_and_hazards R500, R501; 60_exceptions R414). -/

namespace Sys2Proof.Machine

/-- A read answers exactly when no region aborts it, and then it is quiet. -/
theorem busRead_eq_next {a : Word} {s t : State} {v : Byte} : busRead a s = .next (v, t) ↔
    s.aborts.find? (·.abortsRead a) = none ∧ v = s.peek a ∧
      t = s.quiet (s.cycles + 1) (s.trace ++ [.read a (s.peek a)]) s.draws := by
  unfold busRead
  cases hfind : s.aborts.find? (·.abortsRead a) with
  | some b => simp
  | none => simp [State.quiet, eq_comm]

/-- What Reset leaves (R500). -/
def State.afterReset (s : State) : State := { s with
  S := 0xFF, A := 0x00, X := 0x00, Y := 0x00, P := 0x00
  PC := wordOf (s.peek 0xFFFD) (s.peek 0xFFFC)
  halted := false, cycles := 0
  trace := [.read 0xFFFC (s.peek 0xFFFC), .read 0xFFFD (s.peek 0xFFFD)] }

/-- Reset keeps what its result is made of, the vector bytes among it. -/
theorem State.afterReset_afterReset (s : State) : s.afterReset.afterReset = s.afterReset := rfl

/-- No region aborts one of the two vector reads of Reset (R503). -/
def State.ResetVectorReadable (s : State) : Prop :=
  s.aborts.find? (·.abortsRead 0xFFFC) = none ∧ s.aborts.find? (·.abortsRead 0xFFFD) = none

theorem State.PlainBus.resetVectorReadable {s : State} (h : s.PlainBus) : s.ResetVectorReadable := by
  unfold State.ResetVectorReadable
  rw [show s.aborts = [] from h]
  exact ⟨rfl, rfl⟩

/-- Reset answers exactly when the bus lets it read the vector, whatever else the state holds. -/
theorem hostReset_eq_next {s t : State} : hostReset s = .next t ↔ s.ResetVectorReadable ∧ t = s.afterReset := by
  constructor
  case mp =>
    intro h
    obtain ⟨lo, s1, hlo, h⟩ := andThen_eq_next.1 h
    obtain ⟨hi, s2, hhi, h⟩ := andThen_eq_next.1 h
    obtain ⟨hreadLo, rfl, rfl⟩ := busRead_eq_next.1 hlo
    obtain ⟨hreadHi, rfl, rfl⟩ := busRead_eq_next.1 hhi
    cases h
    exact ⟨⟨hreadLo, hreadHi⟩, rfl⟩
  case mpr =>
    rintro ⟨⟨hreadLo, hreadHi⟩, rfl⟩
    refine andThen_eq_next.2 ⟨_, _, busRead_eq_next.2 ⟨hreadLo, rfl, rfl⟩, ?_⟩
    exact andThen_eq_next.2 ⟨_, _, busRead_eq_next.2 ⟨hreadHi, rfl, rfl⟩, rfl⟩

/-- Taking an interrupt keeps the halt latch (R414). -/
theorem takeInterrupt_halted {vector : Word} {s t : State} (h : takeInterrupt vector s = .next t) :
    t.halted = s.halted := by
  obtain ⟨_, s1, hentry, h⟩ := andThen_eq_next.1 h
  obtain ⟨c, tr, d, rfl⟩ := enterInterrupt_next hentry
  cases h
  rfl

/-- IRQ keeps the halt latch, ignored or taken (R414). -/
theorem hostIrq_halted {s t : State} (h : hostIrq s = .next t) : t.halted = s.halted := by
  unfold hostIrq at h
  split at h
  · cases h; rfl
  · exact takeInterrupt_halted h

/-- A Step of a halted core is its halted Step (R111). -/
theorem step_of_halted {s : State} (h : s.halted = true) : step s = .next s.haltedStep := if_pos h

/-- No host call but Reset takes a halted core out of Halted. -/
theorem hostCall_keeps_halted {c : HostCall} {s t : State} (hc : c ≠ .reset) (hs : s.halted = true)
    (h : hostCall c s = .next t) : t.halted = true := by
  cases c with
  | reset => exact absurd rfl hc
  | nmi => exact (takeInterrupt_halted h).trans hs
  | irq => exact (hostIrq_halted h).trans hs
  | setPC lo hi => cases h; exact hs
  | step => cases (step_of_halted hs).symm.trans h; exact hs

/-- Settles O16: Reset answers where its vector can be read, which Reset keeps, and its result is made of what it keeps;
each other host call keeps the latch of a halted core. -/
theorem resetIdempotentAndOnlyWayOut : Obligations.ResetIdempotentAndOnlyWayOut := by
  refine ⟨fun s h => ?answers, fun s t h => ?idempotent, fun _ _ _ => hostCall_keeps_halted⟩
  case answers => exact ⟨s.afterReset, hostReset_eq_next.2 ⟨h.resetVectorReadable, rfl⟩⟩
  case idempotent =>
    obtain ⟨hread, rfl⟩ := hostReset_eq_next.1 h
    exact ⟨hostReset_eq_next.2 ⟨hread, s.afterReset_afterReset.symm⟩, rfl⟩

end Sys2Proof.Machine
end

section
/-! PROOF. CMP, CPX and CPY (spec 41_arithmetic R217 to R220), JSR and RTS (46_control R281, R282). -/

namespace Sys2Proof.Machine

/-! The compares. -/

theorem exec_cmp (o : ReadOperand) (s : State) : exec (.cmp o) s = readClass o s fun m s1 => s1.compare s1.A m := rfl

theorem exec_cpx (o : ReadOperand) (s : State) : exec (.cpx o) s = readClass o s fun m s1 => s1.compare s1.X m := rfl

theorem exec_cpy (o : ReadOperand) (s : State) : exec (.cpy o) s = readClass o s fun m s1 => s1.compare s1.Y m := rfl

/-- Settles O30: each opcode's place in the grid gives its decoding; a compare is the read class with `compare` on one
register, which reads neither D nor V and writes P alone. -/
theorem compareResults : Obligations.CompareResults := by
  refine ⟨⟨.of_fixMem rfl ?_, fun o => .of_readClass (exec_cmp o)⟩,
    ⟨.of_fixMem rfl ?_, fun o => .of_readClass (exec_cpx o)⟩,
    ⟨.of_fixMem rfl ?_, fun o => .of_readClass (exec_cpy o)⟩, fun c o s h hc => ?results⟩
  case results =>
    simp only [List.forall_mem_cons, List.not_mem_nil, false_imp_iff, implies_true, and_true]
    refine ⟨?cmp, ?cpx, ?cpy⟩
    case cmp => exact .of_readClass hc h _ (exec_cmp o s) fun n tr d => (s.leaves_quiet n tr d).compare rfl _ _
    case cpx => exact .of_readClass hc h _ (exec_cpx o s) fun n tr d => (s.leaves_quiet n tr d).compare rfl _ _
    case cpy => exact .of_readClass hc h _ (exec_cpy o s) fun n tr d => (s.leaves_quiet n tr d).compare rfl _ _
  all_goals exact ⟨rfl, rfl, rfl, rfl, rfl, rfl, rfl, rfl⟩

/-! Subroutines. -/

theorem exec_jsr (a : Word) (s : State) : exec (.jsr a) s =
    andThen (pushWord (s.PC - 1) s) fun _ s1 => .next ({ s1 with PC := a }.finish 6) := rfl

theorem exec_rts (s : State) :
    exec .rts s = andThen (pullWord s) fun w s1 => .next ({ s1 with PC := w + 1 }.finish 6) := rfl

/-- Two bytes stored leave everything but those bytes as it was. -/
theorem State.leaves_store_store (s : State) (a a' : Word) (v v' : Byte) (c : Nat) (tr : List BusAccess) (d : Nat) :
    s.Leaves (((s.store a v).store a' v').quiet c tr d) { s.unchanged with stored := [(a', v'), (a, v)] } :=
  ⟨rfl, rfl, rfl, rfl, rfl, rfl, fun _ => peek_store_two .., rfl, rfl, rfl⟩

/-- Settles O39: JSR is two stores under the stack pointer, RTS two reads above it; each then writes PC. -/
theorem subroutineResults : Obligations.SubroutineResults := by
  refine ⟨fun a => decode_wordBytes 0x20 a [], rfl, fun a s h => ⟨?jsr, ?rts⟩⟩
  case jsr =>
    obtain ⟨c, tr, d, hpush⟩ := pushWord_plain h (s.PC - 1)
    have hx := exec_jsr a s
    have htwo : s.S - 1 - 1 = s.S - 2 := BitVec.sub_sub s.S 1 1
    rw [hpush, andThen_next, htwo] at hx
    exact .of_finish _ hx (((s.leaves_store_store _ _ _ _ c tr d).withS _).withPC a)
  case rts =>
    obtain ⟨c, tr, d, hpull⟩ := pullWord_plain h
    have hx := exec_rts s
    have htwo : s.S + 1 + 1 = s.S + 2 := BitVec.add_assoc s.S 1 1
    rw [hpull, andThen_next, htwo] at hx
    exact .of_finish _ hx (((s.leaves_quiet c tr d).withS _).withPC _)

end Sys2Proof.Machine
end

section
/-! PROOF. NOP, the NOP aliases, HLT and the invalid opcodes as instructions (spec 48_nop_halt). -/

namespace Sys2Proof.Machine

theorem exec_nop (s : State) : exec .nop s = .next (s.finish 2) := rfl

/-- An admitted NOP alias is a read-class instruction that does nothing with its byte. -/
theorem Completes.of_nopRead {f : NopForm} {o : ReadOperand} {s : State} (hp : s.params.undocProfile ≠ .refuse)
    (h : s.PlainBus) (hx : exec (.nopAlias f) s = whenNopAdmitted s (readClass o s fun _ s1 => s1)) :
    Completes (.nopAlias f) s (ReadOperand.readCycles o + crossPenalty (operandRead o s).2) s.unchanged := by
  obtain ⟨c, tr, d, hread⟩ := readClass_plain h o fun _ s1 => s1
  exact .of_finish _ ((hx.trans (whenNopAdmitted_admits hp _)).trans hread) (s.leaves_quiet c tr d)

/-- Settles O44: the opcodes' places in the grid give the decodings; an admitted alias with an operand of memory is a read
whose byte is ignored, and the others make no access at all. -/
theorem nopResults : Obligations.NopResults := by
  refine ⟨rfl, fun s => .of_finish s (exec_nop s) s.leaves_self, ?imp, ?imm, ?zp, ?zpx,
    fun a => decode_wordBytes 0x0C a [], ?absx, fun s hp => ⟨fun k => ?aliasImp, fun k v => ?aliasImm, fun h => ?memory⟩⟩
  case imp =>
    simp only [List.forall_mem_cons, List.not_mem_nil, false_imp_iff, implies_true, and_true]
    exact ⟨⟨0, rfl⟩, ⟨1, rfl⟩, ⟨2, rfl⟩, ⟨3, rfl⟩, ⟨4, rfl⟩, ⟨5, rfl⟩⟩
  case imm =>
    simp only [List.forall_mem_cons, List.not_mem_nil, false_imp_iff, implies_true, and_true]
    exact ⟨⟨0, fun _ => rfl⟩, ⟨1, fun _ => rfl⟩, ⟨2, fun _ => rfl⟩, ⟨3, fun _ => rfl⟩, ⟨4, fun _ => rfl⟩⟩
  case zp =>
    simp only [List.forall_mem_cons, List.not_mem_nil, false_imp_iff, implies_true, and_true]
    exact ⟨⟨0, fun _ => rfl⟩, ⟨1, fun _ => rfl⟩, ⟨2, fun _ => rfl⟩⟩
  case zpx =>
    simp only [List.forall_mem_cons, List.not_mem_nil, false_imp_iff, implies_true, and_true]
    exact ⟨⟨0, fun _ => rfl⟩, ⟨1, fun _ => rfl⟩, ⟨2, fun _ => rfl⟩, ⟨3, fun _ => rfl⟩, ⟨4, fun _ => rfl⟩, ⟨5, fun _ => rfl⟩⟩
  case absx =>
    simp only [List.forall_mem_cons, List.not_mem_nil, false_imp_iff, implies_true, and_true]
    exact ⟨⟨0, fun a => decode_wordBytes 0x1C a []⟩, ⟨1, fun a => decode_wordBytes 0x3C a []⟩,
      ⟨2, fun a => decode_wordBytes 0x5C a []⟩, ⟨3, fun a => decode_wordBytes 0x7C a []⟩,
      ⟨4, fun a => decode_wordBytes 0xDC a []⟩, ⟨5, fun a => decode_wordBytes 0xFC a []⟩⟩
  case aliasImp => exact .of_finish s (whenNopAdmitted_admits hp _) s.leaves_self
  case aliasImm => exact .of_finish s (whenNopAdmitted_admits hp _) s.leaves_self
  case memory =>
    refine ⟨fun k a => ?_, fun k a => ?_, fun a => ?_, fun k a => ?_⟩
    · exact .of_nopRead (f := .zp k a) (o := .mem (.zp a)) hp h rfl
    · exact .of_nopRead (f := .zpx k a) (o := .mem (.zpx a)) hp h rfl
    · exact .of_nopRead (f := .abs a) (o := .mem (.abs a)) hp h rfl
    · have hcycles := apply_ite (4 + ·) ((addressed (.absx a) s).cross = true) 1 0
      rw [← addressed_cross]
      exact hcycles ▸ .of_nopRead (f := .absx k a) (o := .mem (.absx a)) hp h rfl

/-- Settles O45: each opcode's place in the grid gives its decoding; HLT writes the latch and the report alone. -/
theorem haltResult : Obligations.HaltResult := by
  refine ⟨?decodes, fun k s => ⟨_, rfl, rfl, rfl, s.leaves_self⟩⟩
  simp only [List.forall_mem_cons, List.not_mem_nil, false_imp_iff, implies_true, and_true]
  exact ⟨⟨0, rfl⟩, ⟨1, rfl⟩, ⟨2, rfl⟩, ⟨3, rfl⟩, ⟨4, rfl⟩, ⟨5, rfl⟩, ⟨6, rfl⟩,
    ⟨7, rfl⟩, ⟨8, rfl⟩, ⟨9, rfl⟩, ⟨10, rfl⟩, ⟨11, rfl⟩⟩

end Sys2Proof.Machine
end

section
/-! PROOF. The combined opcodes with an immediate operand, and TAS and SHA (spec 49_undocumented R339 to R345,
R347, R348). -/

namespace Sys2Proof.Machine

section
variable {s : State} (hn : s.params.undocProfile = .nmos)
include hn

theorem exec_anc {k : Fin 2} {v : Byte} : exec (.anc k v) s =
    .next ((({ s with A := s.A &&& v }.setNZ (s.A &&& v)).setC ((s.A &&& v).getLsbD 7)).finish 2) :=
  whenNmosAdmitted_admits hn _

theorem exec_alr {v : Byte} : exec (.alr v) s =
    .next (({ s with A := lsrByte (s.A &&& v) }.shiftFlags ((s.A &&& v).getLsbD 0) (lsrByte (s.A &&& v))).finish 2) :=
  whenNmosAdmitted_admits hn _

theorem exec_arr {v : Byte} : exec (.arr v) s = if s.flagD then .refused .arrDecimal else
    .next (((({ s with A := rorByte (s.A &&& v) s.flagC }.setNZ (rorByte (s.A &&& v) s.flagC)).setC
      ((rorByte (s.A &&& v) s.flagC).getLsbD 6)).setV
      ((rorByte (s.A &&& v) s.flagC).getLsbD 6 ^^ (rorByte (s.A &&& v) s.flagC).getLsbD 5)).finish 2) :=
  whenNmosAdmitted_admits hn _

theorem exec_ane {v : Byte} : exec (.ane v) s =
    .next (({ s with
      A := (s.A ||| Config.aneMagic s.draws) &&& s.X &&& v, draws := s.draws + 1 }.setNZ
        ((s.A ||| Config.aneMagic s.draws) &&& s.X &&& v)).finish 2) :=
  whenNmosAdmitted_admits hn _

theorem exec_lxa {v : Byte} : exec (.lxa v) s =
    .next (({ s with
      A := (s.A ||| Config.lxaMagic s.draws) &&& v, X := (s.A ||| Config.lxaMagic s.draws) &&& v
      draws := s.draws + 1 }.setNZ ((s.A ||| Config.lxaMagic s.draws) &&& v)).finish 2) :=
  whenNmosAdmitted_admits hn _

theorem exec_sbx {v : Byte} : exec (.sbx v) s =
    .next (({ s with X := (s.A &&& s.X) - v }.shiftFlags (decide (v.toNat ≤ (s.A &&& s.X).toNat))
      ((s.A &&& s.X) - v)).finish 2) :=
  whenNmosAdmitted_admits hn _

theorem exec_usbc {v : Byte} : exec (.usbc v) s =
    .next ((s.addResult (sbcBin s.A v s.flagC) (bcdSub s.A v s.flagC)).finish 2) :=
  whenNmosAdmitted_admits hn _

end

/-- N, Z and C written on a state whose P is still the first one, C last. -/
theorem State.Leaves.setNZ_setC {s t : State} {e : After} (h : s.Leaves t e) (hP : t.P = s.P) (v : Byte) (c : Bool) :
    s.Leaves ((t.setNZ v).setC c) { e with P := s.statusNZC v c } := by
  have hp : ((t.setNZ v).setC c).P = s.statusNZC v c := by
    rw [State.setC_P, State.setNZ_P, hP]; exact statusWith_setC_after_NZ ..
  exact h.withP hp

/-- ARR's four flags, in the order R341 writes them. -/
theorem statusWith_setV_after_NZ_C : ∀ (p : Byte) (n z c v : Bool),
    setBit (setBit (setBit (setBit p 7 n) 1 z) 0 c) 6 v = statusWith p n v (p.getLsbD 3) (p.getLsbD 2) z c := by decide

/-- Settles O50: with an immediate operand the read class makes no access, so each instruction is its register work. -/
theorem combinedImmediateResults : Obligations.CombinedImmediateResults := by
  refine ⟨fun v => ⟨rfl, rfl, rfl, rfl, rfl, rfl⟩,
    fun v s hn => ⟨fun k => ?anc, ?alr, fun hD r hr => ?arr, fun hD => ?arrDecimal, ?sbx, ?usbc⟩⟩
  case anc => exact .of_finish _ (exec_anc hn) ((s.leaves_self.withA (s.A &&& v)).setNZ_setC rfl _ _)
  case alr => exact .of_finish _ (exec_alr hn) ((s.leaves_self.withA (lsrByte (s.A &&& v))).shiftFlags rfl _ _)
  case arr =>
    obtain rfl : r = rorByte (s.A &&& v) s.flagC := hr.trans (rorByte_eq ..).symm
    have hx := (exec_arr hn (v := v)).trans (if_neg (by simp [hD]))
    refine .of_finish _ hx ((s.leaves_self.withA _).withP ?_)
    rw [← hD]
    exact statusWith_setV_after_NZ_C ..
  case arrDecimal => exact (exec_arr hn).trans (if_pos hD)
  case sbx => exact .of_finish _ (exec_sbx hn) ((s.leaves_self.withX ((s.A &&& s.X) - v)).shiftFlags rfl _ _)
  case usbc => exact .of_addResult (exec_usbc hn) s.leaves_self fun _ _ => rfl

/-- Settles O51: the constant is the draw of this execution, and the draw counter has moved on. -/
theorem magicConstantResults : Obligations.MagicConstantResults := by
  refine ⟨fun v => ⟨rfl, rfl⟩, fun v s hn => ⟨⟨Config.aneMagic s.draws, ?ane⟩, ⟨Config.lxaMagic s.draws, ?lxa⟩, ?draws⟩⟩
  case ane =>
    rintro _ rfl
    exact .of_finish _ (exec_ane hn) (((s.leaves_quiet s.cycles s.trace (s.draws + 1)).withA
      ((s.A ||| Config.aneMagic s.draws) &&& s.X &&& v)).setNZ rfl _)
  case lxa =>
    rintro _ rfl
    exact .of_finish _ (exec_lxa hn) ((((s.leaves_quiet s.cycles s.trace (s.draws + 1)).withA
      ((s.A ||| Config.lxaMagic s.draws) &&& v)).withX ((s.A ||| Config.lxaMagic s.draws) &&& v)).setNZ rfl _)
  case draws =>
    rintro t (h | h)
    · cases (exec_ane hn).symm.trans h; rfl
    · cases (exec_lxa hn).symm.trans h; rfl

/-! TAS and SHA. -/

/-- What TAS and SHA share (R347, R348): one write of A AND X AND the base's high byte plus one, after `u` has written S,
or the refusal when indexing crosses a page. -/
def storeHighByte (m : AddrMode) (crossing : Refusal) (u : State → State) (s : State) : Host.Outcome State Fault Refusal :=
  andThen (effectiveAddress m s) fun ea s1 =>
  if ea.cross then .refused crossing
  else finishAfter (memWrite ea.addr (s1.A &&& s1.X &&& (highByte ea.base + 1)) (u s1)) (AddrMode.writeCycles m)

section
variable {s : State} (hn : s.params.undocProfile = .nmos)
include hn

theorem exec_tas {a : Word} : exec (.tas a) s =
    storeHighByte (.absy a) .tasPageCross (fun s1 => { s1 with S := s1.A &&& s1.X }) s := whenNmosAdmitted_admits hn _

theorem exec_sha {m : AddrMode} : exec (.sha m) s = storeHighByte m .shaPageCross id s := whenNmosAdmitted_admits hn _

end

section
variable {s : State} (h : s.PlainBus) (m : AddrMode) (crossing : Refusal)
include h

theorem storeHighByte_refused (u : State → State) (hcross : AddrMode.crossesPage m s = true) :
    storeHighByte m crossing u s = .refused crossing := by
  obtain ⟨c, tr, d, hea⟩ := effectiveAddress_plain h m
  rw [storeHighByte, hea, andThen_next, addressed_cross, if_pos hcross]

/-- Within a page the byte goes to the indexed address. -/
theorem storeHighByte_plain (sp : State → Byte) (hcross : AddrMode.crossesPage m s = false) : ∃ c tr d c' tr' d',
    storeHighByte m crossing (fun s1 => { s1 with S := sp s1 }) s =
      .next ((({ s with S := sp (s.quiet c tr d) }.store (AddrMode.address m s)
        (s.A &&& s.X &&& (highByte (AddrMode.baseAddress m s) + 1))).quiet c' tr' d').finish (AddrMode.writeCycles m)) := by
  obtain ⟨c, tr, d, hea⟩ := effectiveAddress_plain h m
  obtain ⟨c', tr', d', hwrite⟩ := memWrite_plain (s := { s.quiet c tr d with S := sp (s.quiet c tr d) }) h
    (addressed m s).addr (s.A &&& s.X &&& (highByte (addressed m s).base + 1))
  refine ⟨c, tr, d, c', tr', d', ?_⟩
  rw [storeHighByte, hea, andThen_next, addressed_cross, if_neg (by simp [hcross])]
  refine (congrArg (finishAfter · _) hwrite).trans ?_
  rw [addressed_addr, addressed_base]
  rfl

end

/-- Settles O52: TAS and SHA are one store, and refused exactly when the mode crosses a page. -/
theorem highByteStoreResults : Obligations.HighByteStoreResults := by
  refine ⟨fun a => decode_wordBytes 0x9B a [], .of_fixMem ⟨rfl, rfl, rfl, rfl, rfl, rfl, rfl, rfl⟩,
    fun c s hn h hc => ⟨fun a v hv => ⟨fun hcross => ?tas, fun hcross => ?tasRefused⟩,
      fun m v hv => ⟨fun hcross => ?sha, fun hcross => ?shaRefused⟩⟩⟩
  case tas =>
    subst hv
    obtain ⟨_, _, _, n, tr, d, e⟩ := storeHighByte_plain h (.absy a) .tasPageCross (fun s1 => s1.A &&& s1.X) hcross
    exact .of_finish _ ((exec_tas hn).trans e) ((s.leaves_store _ _ n tr d).withS _)
  case tasRefused => exact (exec_tas hn).trans (storeHighByte_refused h _ _ _ hcross)
  case sha =>
    subst hv
    obtain ⟨_, _, _, n, tr, d, e⟩ := storeHighByte_plain h m .shaPageCross (fun s1 => s1.S) hcross
    rw [← writeCycles_eq hc]
    exact .of_finish _ ((exec_sha hn).trans e) (s.leaves_store _ _ n tr d)
  case shaRefused => exact (exec_sha hn).trans (storeHighByte_refused h _ _ _ hcross)

end Sys2Proof.Machine
end

section
/-! PROOF. The decoder against the encoder (spec 30_encoding R100 to R105). -/

namespace Sys2Proof.Machine

/-! Decoding, by the shape that the opcode fixes. -/

section
variable {op : Byte}

theorem decode_of_none {i : Instr} (h : decodeOpcode op = .none i) (rest : List Byte) :
    decode (op :: rest) = .ok (i, rest) := by simp [decode, h]

theorem decode_of_byte {f : Byte → Instr} (h : decodeOpcode op = .byte f) (b : Byte) (rest : List Byte) :
    decode (op :: b :: rest) = .ok (f b, rest) := by simp [decode, h]

theorem decode_of_word {f : Word → Instr} (h : decodeOpcode op = .word f) (lo hi : Byte) (rest : List Byte) :
    decode (op :: lo :: hi :: rest) = .ok (f (wordOf hi lo), rest) := by simp [decode, h]

theorem decode_of_byte_nil {f : Byte → Instr} (h : decodeOpcode op = .byte f) :
    decode [op] = .error (.truncated op) := by simp [decode, h]

theorem decode_of_word_nil {f : Word → Instr} (h : decodeOpcode op = .word f) :
    decode [op] = .error (.truncated op) := by simp [decode, h]

theorem decode_of_word_singleton {f : Word → Instr} (h : decodeOpcode op = .word f) (lo : Byte) :
    decode [op, lo] = .error (.truncated op) := by simp [decode, h]

end

/-! From bytes to an instruction: what the grid's entries say of the encoder. -/

theorem lowByte_wordOf (h l : Byte) : lowByte (wordOf h l) = l := by
  apply BitVec.eq_of_toNat_eq
  have := l.isLt
  rw [lowByte_toNat, wordOf_toNat]; omega

theorem highByte_wordOf (h l : Byte) : highByte (wordOf h l) = h := by
  apply BitVec.eq_of_toNat_eq
  have := l.isLt
  rw [highByte_toNat, wordOf_toNat]; omega

theorem wordBytes_wordOf (h l : Byte) : wordBytes (wordOf h l) = [l, h] := by
  rw [wordBytes, lowByte_wordOf, highByte_wordOf]

/-- The operand bytes of a shape, the first two of those that follow its opcode being `b` and `c`. -/
def shapeOperands (sh : Shape) (b c : Byte) : List Byte :=
  match sh with
  | .none _ => []
  | .byte _ => [b]
  | .word _ => wordBytes (wordOf c b)

/-- The opcode `op` in the grid fixes well-formed instructions whose bytes are `op` and the operand bytes. -/
def EncodesBack (op : Byte) : Prop :=
  ∀ b c : Byte, (Shape.instr (decodeOpcode op) b c).wellFormed = true ∧
    encode (Shape.instr (decodeOpcode op) b c) = some (op :: shapeOperands (decodeOpcode op) b c)

/-- The encoder undoes each of the 256 entries of the grid. -/
theorem encodesBack (op : Byte) : EncodesBack op := by
  obtain ⟨n⟩ := op
  fin_cases n <;> exact fun _ _ => ⟨rfl, rfl⟩

/-- An opcode, its operand bytes and any rest decode to the instruction of the shape, with that rest. -/
theorem decode_shapeOperands (op b c : Byte) (rest : List Byte) :
    decode (op :: (shapeOperands (decodeOpcode op) b c ++ rest)) = .ok (Shape.instr (decodeOpcode op) b c, rest) := by
  cases h : decodeOpcode op with
  | none i => exact decode_of_none h rest
  | byte f => exact decode_of_byte h b rest
  | word f => rw [shapeOperands, wordBytes_wordOf]; exact decode_of_word h b c rest

/-- What the decoder reads: an opcode, the operand bytes of its shape, and the rest. -/
theorem decode_eq_ok {bytes rest : List Byte} {i : Instr} (h : decode bytes = .ok (i, rest)) :
    ∃ op b c, i = Shape.instr (decodeOpcode op) b c ∧ bytes = op :: (shapeOperands (decodeOpcode op) b c ++ rest) := by
  rcases bytes with _ | ⟨op, tail⟩
  · cases h
  refine ⟨op, ?_⟩
  cases hshape : decodeOpcode op with
  | none j =>
    cases (decode_of_none hshape tail).symm.trans h
    exact ⟨0, 0, rfl, rfl⟩
  | byte f =>
    rcases tail with _ | ⟨b, tail⟩
    · cases (decode_of_byte_nil hshape).symm.trans h
    · cases (decode_of_byte hshape b tail).symm.trans h
      exact ⟨b, 0, rfl, rfl⟩
  | word f =>
    rcases tail with _ | ⟨lo, _ | ⟨hi, tail⟩⟩
    · cases (decode_of_word_nil hshape).symm.trans h
    · cases (decode_of_word_singleton hshape lo).symm.trans h
    · cases (decode_of_word hshape lo hi tail).symm.trans h
      exact ⟨lo, hi, rfl, by rw [shapeOperands, wordBytes_wordOf]; rfl⟩

/-- Settles O2: the bytes read are an opcode and its operands, and the encoder undoes each entry of the grid. -/
theorem encodeOfDecode : Obligations.EncodeOfDecode := by
  intro bytes rest i h
  obtain ⟨op, b, c, rfl, rfl⟩ := decode_eq_ok h
  obtain ⟨hwf, henc⟩ := encodesBack op b c
  exact ⟨hwf, _, henc, rfl⟩

/-- Settles O3: the length is that of the opcode's shape. -/
theorem lengthFixedByOpcode : Obligations.LengthFixedByOpcode := by
  intro op
  refine ⟨(decodeOpcode op).operandBytes, ?_⟩
  cases hshape : decodeOpcode op with
  | none i =>
    refine ⟨Nat.zero_le 2, fun operands rest hlen => ?_, fun _ hlen => absurd hlen (Nat.not_lt_zero _)⟩
    obtain rfl := List.eq_nil_of_length_eq_zero hlen
    exact ⟨i, decode_of_none hshape rest⟩
  | byte f =>
    refine ⟨Nat.le_succ 1, fun operands rest hlen => ?_, fun bytes hlen => ?_⟩
    · obtain ⟨b, rfl⟩ := List.length_eq_one_iff.1 hlen
      exact ⟨f b, decode_of_byte hshape b rest⟩
    · obtain rfl := List.eq_nil_of_length_eq_zero (Nat.lt_one_iff.1 hlen)
      exact decode_of_byte_nil hshape
  | word f =>
    refine ⟨le_rfl, fun operands rest hlen => ?_, fun bytes hlen => ?_⟩
    · obtain ⟨lo, hi, rfl⟩ := List.length_eq_two.1 hlen
      exact ⟨f (wordOf hi lo), decode_of_word hshape lo hi rest⟩
    · rcases bytes with _ | ⟨b, _ | ⟨c, bytes⟩⟩
      · exact decode_of_word_nil hshape
      · exact decode_of_word_singleton hshape b
      · exact absurd hlen (by simp [Shape.operandBytes])

/-! From an instruction to its bytes. -/

/-- What follows an instruction's bytes is left over. -/
theorem decode_append {bytes : List Byte} {i : Instr} (h : decode bytes = .ok (i, [])) (rest : List Byte) :
    decode (bytes ++ rest) = .ok (i, rest) := by
  obtain ⟨op, b, c, rfl, rfl⟩ := decode_eq_ok h
  rw [List.append_nil]
  exact decode_shapeOperands op b c rest

/-- Each instruction's operand forms are those with an opcode, of the instruction's own class. -/
theorem wellFormedHasOpcode : ∀ i : Instr, Laws.WellFormedHasOpcode.Statement i
  | .ora o => Laws.WellFormedHasOpcode.ora o | .and o => Laws.WellFormedHasOpcode.and o
  | .eor o => Laws.WellFormedHasOpcode.eor o | .bit m => Laws.WellFormedHasOpcode.bit m
  | .adc o => Laws.WellFormedHasOpcode.adc o | .sbc o => Laws.WellFormedHasOpcode.sbc o
  | .cmp o => Laws.WellFormedHasOpcode.cmp o | .cpx o => Laws.WellFormedHasOpcode.cpx o
  | .cpy o => Laws.WellFormedHasOpcode.cpy o | .asl o => Laws.WellFormedHasOpcode.asl o
  | .lsr o => Laws.WellFormedHasOpcode.lsr o | .rol o => Laws.WellFormedHasOpcode.rol o
  | .ror o => Laws.WellFormedHasOpcode.ror o | .lda o => Laws.WellFormedHasOpcode.lda o
  | .ldx o => Laws.WellFormedHasOpcode.ldx o | .ldy o => Laws.WellFormedHasOpcode.ldy o
  | .sta m => Laws.WellFormedHasOpcode.sta m | .stx m => Laws.WellFormedHasOpcode.stx m
  | .sty m => Laws.WellFormedHasOpcode.sty m | .tax => Laws.WellFormedHasOpcode.tax | .tay => Laws.WellFormedHasOpcode.tay
  | .txa => Laws.WellFormedHasOpcode.txa | .tya => Laws.WellFormedHasOpcode.tya | .tsx => Laws.WellFormedHasOpcode.tsx
  | .txs => Laws.WellFormedHasOpcode.txs | .inc m => Laws.WellFormedHasOpcode.inc m
  | .dec m => Laws.WellFormedHasOpcode.dec m | .inx => Laws.WellFormedHasOpcode.inx | .iny => Laws.WellFormedHasOpcode.iny
  | .dex => Laws.WellFormedHasOpcode.dex | .dey => Laws.WellFormedHasOpcode.dey | .pha => Laws.WellFormedHasOpcode.pha
  | .php => Laws.WellFormedHasOpcode.php | .pla => Laws.WellFormedHasOpcode.pla | .plp => Laws.WellFormedHasOpcode.plp
  | .jmp t => Laws.WellFormedHasOpcode.jmp t | .jsr a => Laws.WellFormedHasOpcode.jsr a
  | .rts => Laws.WellFormedHasOpcode.rts | .rti => Laws.WellFormedHasOpcode.rti | .brk => Laws.WellFormedHasOpcode.brk
  | .bpl d => Laws.WellFormedHasOpcode.bpl d | .bmi d => Laws.WellFormedHasOpcode.bmi d
  | .bvc d => Laws.WellFormedHasOpcode.bvc d | .bvs d => Laws.WellFormedHasOpcode.bvs d
  | .bcc d => Laws.WellFormedHasOpcode.bcc d | .bcs d => Laws.WellFormedHasOpcode.bcs d
  | .bne d => Laws.WellFormedHasOpcode.bne d | .beq d => Laws.WellFormedHasOpcode.beq d
  | .clc => Laws.WellFormedHasOpcode.clc | .sec => Laws.WellFormedHasOpcode.sec | .cli => Laws.WellFormedHasOpcode.cli
  | .sei => Laws.WellFormedHasOpcode.sei | .clv => Laws.WellFormedHasOpcode.clv | .cld => Laws.WellFormedHasOpcode.cld
  | .sed => Laws.WellFormedHasOpcode.sed | .nop => Laws.WellFormedHasOpcode.nop
  | .nopAlias f => Laws.WellFormedHasOpcode.nopAlias f | .hlt k => Laws.WellFormedHasOpcode.hlt k
  | .invalid k => Laws.WellFormedHasOpcode.invalid k | .slo m => Laws.WellFormedHasOpcode.slo m
  | .rla m => Laws.WellFormedHasOpcode.rla m | .sre m => Laws.WellFormedHasOpcode.sre m
  | .rra m => Laws.WellFormedHasOpcode.rra m | .sax m => Laws.WellFormedHasOpcode.sax m
  | .lax m => Laws.WellFormedHasOpcode.lax m | .dcp m => Laws.WellFormedHasOpcode.dcp m
  | .isc m => Laws.WellFormedHasOpcode.isc m | .anc k v => Laws.WellFormedHasOpcode.anc k v
  | .alr v => Laws.WellFormedHasOpcode.alr v | .arr v => Laws.WellFormedHasOpcode.arr v
  | .ane v => Laws.WellFormedHasOpcode.ane v | .lxa v => Laws.WellFormedHasOpcode.lxa v
  | .sbx v => Laws.WellFormedHasOpcode.sbx v | .usbc v => Laws.WellFormedHasOpcode.usbc v
  | .las a => Laws.WellFormedHasOpcode.las a | .tas a => Laws.WellFormedHasOpcode.tas a
  | .sha m => Laws.WellFormedHasOpcode.sha m

/-- The bytes of a jump, by its form. -/
theorem decode_encode_jmp : ∀ (j : JumpTarget) (bytes : List Byte), encode (.jmp j) = some bytes →
    decode bytes = .ok (.jmp j, [])
  | .abs a, _, h => by cases h; exact decode_wordBytes 0x4C a []
  | .ind p, _, h => by cases h; exact decode_wordBytes 0x6C p []

/-- The bytes of a NOP alias, by its form and its place among the opcodes of that form. -/
theorem decode_encode_nopAlias (f : NopForm) : decode f.encode = .ok (.nopAlias f, []) := by
  cases f with
  | imp k => fin_cases k <;> rfl
  | imm k v => fin_cases k <;> rfl
  | zp k a => fin_cases k <;> rfl
  | zpx k a => fin_cases k <;> rfl
  | abs a => exact decode_wordBytes 0x0C a []
  | absx k a =>
    fin_cases k
    · exact decode_wordBytes 0x1C a []
    · exact decode_wordBytes 0x3C a []
    · exact decode_wordBytes 0x5C a []
    · exact decode_wordBytes 0x7C a []
    · exact decode_wordBytes 0xDC a []
    · exact decode_wordBytes 0xFC a []

/-- The bytes that the encoder gives an instruction decode to it. The opcodes of an instruction with operand forms are
those its results list; the others have one opcode each, or one for each number. -/
theorem decode_encode {i : Instr} {bytes : List Byte} (h : encode i = some bytes) : decode bytes = .ok (i, []) := by
  obtain ⟨⟨hora, -⟩, ⟨hand, -⟩, ⟨heor, -⟩, -⟩ := logicalResults
  obtain ⟨⟨hbit, -⟩, -⟩ := bitTestResult
  obtain ⟨⟨hadc, -⟩, ⟨hsbc, -⟩, -⟩ := addSubtractResults
  obtain ⟨⟨hcmp, -⟩, ⟨hcpx, -⟩, ⟨hcpy, -⟩, -⟩ := compareResults
  obtain ⟨⟨hasl, -⟩, ⟨hlsr, -⟩, ⟨hrol, -⟩, ⟨hror, -⟩, -⟩ := shiftResults
  obtain ⟨⟨hlda, -⟩, ⟨hldx, -⟩, ⟨hldy, -⟩, -⟩ := loadResults
  obtain ⟨⟨hsta, -⟩, ⟨hstx, -⟩, ⟨hsty, -⟩, -⟩ := storeResults
  obtain ⟨⟨hinc, -⟩, ⟨hdec, -⟩, -⟩ := memoryIncDecResults
  obtain ⟨hslo, hrla, hsre, hdcp, -⟩ := combinedModifyResults
  obtain ⟨hrra, hisc, -⟩ := combinedAddResults
  obtain ⟨hsax, hlax, hlas, -⟩ := combinedLoadStoreResults
  obtain ⟨htas, hsha, -⟩ := highByteStoreResults
  cases i with
  | ora o => exact hora o bytes h
  | and o => exact hand o bytes h
  | eor o => exact heor o bytes h
  | bit m => exact hbit m bytes h
  | adc o => exact hadc o bytes h
  | sbc o => exact hsbc o bytes h
  | cmp o => exact hcmp o bytes h
  | cpx o => exact hcpx o bytes h
  | cpy o => exact hcpy o bytes h
  | asl o => exact hasl o bytes h
  | lsr o => exact hlsr o bytes h
  | rol o => exact hrol o bytes h
  | ror o => exact hror o bytes h
  | lda o => exact hlda o bytes h
  | ldx o => exact hldx o bytes h
  | ldy o => exact hldy o bytes h
  | sta m => exact hsta m bytes h
  | stx m => exact hstx m bytes h
  | sty m => exact hsty m bytes h
  | inc m => exact hinc m bytes h
  | dec m => exact hdec m bytes h
  | slo m => exact hslo m bytes h
  | rla m => exact hrla m bytes h
  | sre m => exact hsre m bytes h
  | rra m => exact hrra m bytes h
  | dcp m => exact hdcp m bytes h
  | isc m => exact hisc m bytes h
  | sax m => exact hsax m bytes h
  | lax m => exact hlax m bytes h
  | sha m => exact hsha m bytes h
  | jmp j => exact decode_encode_jmp j bytes h
  | jsr a => cases h; exact decode_wordBytes 0x20 a []
  | las a => cases h; exact hlas a
  | tas a => cases h; exact htas a
  | nopAlias f => cases h; exact decode_encode_nopAlias f
  | hlt k => cases h; fin_cases k <;> rfl
  | invalid k => cases h; fin_cases k <;> rfl
  | anc k v => cases h; fin_cases k <;> rfl
  | _ => cases h; rfl

/-- Settles O1: a well-formed instruction has bytes, which decode to it with nothing left over, and so with any rest. -/
theorem decodeOfEncode : Obligations.DecodeOfEncode := by
  intro i hwf
  rw [(wellFormedHasOpcode i).1] at hwf
  obtain ⟨bytes, henc⟩ := Option.isSome_iff_exists.1 hwf
  exact ⟨bytes, henc, decode_append (decode_encode henc)⟩

/-- Settles O4: each word is an opcode of the grid and its operand bytes. -/
theorem specWordsDecode : Obligations.SpecWordsDecode :=
  ⟨rfl, rfl, rfl, rfl, rfl, rfl, rfl, rfl, rfl, rfl, rfl, rfl, rfl⟩

end Sys2Proof.Machine
end

section
/-! PROOF. What each instruction is made of: behind the admission of its class, one of a few operations on the bus and
work on the registers that its rule allows. Each general claim about `exec` is then one argument for each operation. -/

namespace Sys2Proof.Machine

/-- What instruction `i` does not write stands in `t` as in `s`: the registers, the bits of P, the latch (R21 to R33),
the abort regions and the parameters. -/
structure Keeps (i : Instr) (s t : State) : Prop where
  A : i.writesA = false → t.A = s.A
  X : i.writesX = false → t.X = s.X
  Y : i.writesY = false → t.Y = s.Y
  S : i.writesS = false → t.S = s.S
  PC : i.writesPC = false → t.PC = s.PC
  P : ∀ k ∉ i.flagsWritten, t.P.getLsbD k = s.P.getLsbD k
  halted : (∀ k, i ≠ .hlt k) → t.halted = s.halted
  aborts : t.aborts = s.aborts
  params : t.params = s.params

/-- `t` is `s` after work on the registers alone, within what `i` may write. -/
structure Touches (i : Instr) (s t : State) : Prop extends Keeps i s t where
  mem : t.mem = s.mem
  trace : t.trace = s.trace

/-! Register work, update by update. -/

section
variable {i : Instr} {s t : State}

theorem Touches.refl (i : Instr) (s : State) : Touches i s s where
  A _ := rfl
  X _ := rfl
  Y _ := rfl
  S _ := rfl
  PC _ := rfl
  P _ _ := rfl
  halted _ := rfl
  aborts := rfl
  params := rfl
  mem := rfl
  trace := rfl

variable (h : Touches i s t)
include h

theorem Touches.withA (v : Byte) (hw : i.writesA = true := by rfl) : Touches i s { t with A := v } :=
  { h with A := fun hn => absurd (hw.symm.trans hn) Bool.true_eq_false.mp }

theorem Touches.withX (v : Byte) (hw : i.writesX = true := by rfl) : Touches i s { t with X := v } :=
  { h with X := fun hn => absurd (hw.symm.trans hn) Bool.true_eq_false.mp }

theorem Touches.withY (v : Byte) (hw : i.writesY = true := by rfl) : Touches i s { t with Y := v } :=
  { h with Y := fun hn => absurd (hw.symm.trans hn) Bool.true_eq_false.mp }

theorem Touches.withS (v : Byte) (hw : i.writesS = true := by rfl) : Touches i s { t with S := v } :=
  { h with S := fun hn => absurd (hw.symm.trans hn) Bool.true_eq_false.mp }

theorem Touches.withPC (a : Word) (hw : i.writesPC = true := by rfl) : Touches i s { t with PC := a } :=
  { h with PC := fun hn => absurd (hw.symm.trans hn) Bool.true_eq_false.mp }

theorem Touches.withDraws (d : Nat) : Touches i s { t with draws := d } := { h with }

theorem Touches.finish (n : Nat) : Touches i s (t.finish n) := { h with }

/-- An instruction whose flags are all of P may replace P. -/
theorem Touches.withP (p : Byte) (hw : ∀ k < 8, k ∈ i.flagsWritten) : Touches i s { t with P := p } := by
  refine { h with P := fun k hk => ?_ }
  have h8 : 8 ≤ k := Nat.le_of_not_lt fun hlt => hk (hw k hlt)
  rw [BitVec.getLsbD_of_ge _ k h8, BitVec.getLsbD_of_ge _ k h8]

/-- One flag that the instruction writes. -/
theorem Touches.withBit (k : Nat) (b : Bool) (h8 : k < 8) (hw : i.flagsWritten.contains k = true) :
    Touches i s { t with P := setBit t.P k b } := by
  refine { h with P := fun j hj => ?_ }
  have hjk : j ≠ k := fun e => hj (e ▸ List.contains_iff_mem.1 hw)
  rw [getLsbD_setBit _ _ _ _ h8, if_neg hjk, h.P j hj]

theorem Touches.setC (b : Bool) (hw : i.flagsWritten.contains 0 = true := by rfl) : Touches i s (t.setC b) :=
  h.withBit 0 b (by decide) hw

theorem Touches.setI (b : Bool) (hw : i.flagsWritten.contains 2 = true := by rfl) : Touches i s (t.setI b) :=
  h.withBit 2 b (by decide) hw

theorem Touches.setD (b : Bool) (hw : i.flagsWritten.contains 3 = true := by rfl) : Touches i s (t.setD b) :=
  h.withBit 3 b (by decide) hw

theorem Touches.setV (b : Bool) (hw : i.flagsWritten.contains 6 = true := by rfl) : Touches i s (t.setV b) :=
  h.withBit 6 b (by decide) hw

theorem Touches.setNZ (v : Byte) (hN : i.flagsWritten.contains 7 = true := by rfl)
    (hZ : i.flagsWritten.contains 1 = true := by rfl) : Touches i s (t.setNZ v) :=
  (h.withBit 7 _ (by decide) hN).withBit 1 _ (by decide) hZ

theorem Touches.setNVZ (n v z : Bool) (hN : i.flagsWritten.contains 7 = true := by rfl)
    (hV : i.flagsWritten.contains 6 = true := by rfl) (hZ : i.flagsWritten.contains 1 = true := by rfl) :
    Touches i s (t.setNVZ n v z) :=
  ((h.withBit 7 _ (by decide) hN).setV v hV).withBit 1 _ (by decide) hZ

theorem Touches.shiftFlags (out : Bool) (r : Byte) (hC : i.flagsWritten.contains 0 = true := by rfl)
    (hN : i.flagsWritten.contains 7 = true := by rfl) (hZ : i.flagsWritten.contains 1 = true := by rfl) :
    Touches i s (t.shiftFlags out r) := (h.setC out hC).setNZ r hN hZ

theorem Touches.compare (a v : Byte) (hC : i.flagsWritten.contains 0 = true := by rfl)
    (hN : i.flagsWritten.contains 7 = true := by rfl) (hZ : i.flagsWritten.contains 1 = true := by rfl) :
    Touches i s (t.compare a v) := (h.setNZ _ hN hZ).setC _ hC

/-- The common end of the additions and subtractions, whichever of its three ways it takes (R214). -/
theorem Touches.addResult (bin : AluResult) (dec : Byte × Bool) (hA : i.writesA = true := by rfl)
    (hP : i.flagsWritten = [7, 6, 1, 0] := by rfl) : Touches i s (t.addResult bin dec) := by
  have hw : ∀ k ∈ [7, 6, 1, 0], i.flagsWritten.contains k = true := by rw [hP]; decide
  have hN := hw 7 (by decide)
  have hV := hw 6 (by decide)
  have hZ := hw 1 (by decide)
  have hC := hw 0 (by decide)
  unfold State.addResult State.setDecimalNVZ
  split
  · split
    · exact ((h.withA _ hA).setC _ hC).setNVZ _ _ _ hN hV hZ
    · exact (((h.withA _ hA).setC _ hC).setNVZ _ _ _ hN hV hZ).withDraws _
  · exact ((h.withA _ hA).setNVZ _ _ _ hN hV hZ).setC _ hC

end

/-- Register work of `i`, which does not look at the abort regions. -/
structure Work (i : Instr) (f : State → State) : Prop where
  touches : ∀ s, Touches i s (f s)
  natural : ∀ (s : State) l, f { s with aborts := l } = { f s with aborts := l }

/-- Most register work is a chain of record updates, which keep the regions by computation. -/
theorem Work.of {i : Instr} {f : State → State} (touches : ∀ s, Touches i s (f s))
    (natural : ∀ (s : State) l, f { s with aborts := l } = { f s with aborts := l } := by exact fun _ _ => rfl) :
    Work i f := ⟨touches, natural⟩

theorem Work.id (i : Instr) : Work i fun s => s := .of (.refl i)

theorem addResult_natural (s : State) (bin : AluResult) (dec : Byte × Bool) (l : List BusAbort) :
    { s with aborts := l }.addResult bin dec = { s.addResult bin dec with aborts := l } := by
  unfold State.addResult State.setDecimalNVZ
  by_cases hD : s.flagD
  · rw [if_pos hD, if_pos (show State.flagD { s with aborts := l } = true from hD)]
    cases hz : s.params.decimalNzv with
    | binary => simp only [State.setC_params, hz]; rfl
    | unspecified => simp only [State.setC_params, hz]; rfl
  · rw [if_neg hD, if_neg (show ¬ State.flagD { s with aborts := l } = true from hD)]
    rfl

theorem Work.adc {i : Instr} (m : Byte) (hA : i.writesA = true := by rfl)
    (hP : i.flagsWritten = [7, 6, 1, 0] := by rfl) : Work i fun s => s.adc m :=
  ⟨fun s => (Touches.refl i s).addResult _ _ hA hP,
    fun s => addResult_natural s (adcBin s.A m s.flagC) (bcdAdd s.A m s.flagC)⟩

theorem Work.sbc {i : Instr} (m : Byte) (hA : i.writesA = true := by rfl)
    (hP : i.flagsWritten = [7, 6, 1, 0] := by rfl) : Work i fun s => s.sbc m :=
  ⟨fun s => (Touches.refl i s).addResult _ _ hA hP,
    fun s => addResult_natural s (sbcBin s.A m s.flagC) (bcdSub s.A m s.flagC)⟩

/-! The meanings. -/

/-- If the Step has ended with Ok, it reports the counter's value, from 2 to `most`. -/
def Timed (most : Nat) (t : State) : Prop :=
  t.report.outcome = .ok → t.cycles = t.report.cycles ∧ 2 ≤ t.report.cycles ∧ t.report.cycles ≤ most

theorem timed_finish {most n : Nat} (s : State) (h2 : 2 ≤ n) (hmost : n ≤ most) : Timed most (s.finish n) :=
  fun _ => ⟨rfl, h2, hmost⟩

/-- What ARR does with its operand when D = 0 (R341). -/
def arrWork (m : Byte) (s : State) : State :=
  (({ s with A := rorByte (s.A &&& m) s.flagC }.setNZ (rorByte (s.A &&& m) s.flagC)).setC
    ((rorByte (s.A &&& m) s.flagC).getLsbD 6)).setV
      ((rorByte (s.A &&& m) s.flagC).getLsbD 6 ^^ (rorByte (s.A &&& m) s.flagC).getLsbD 5)

/-- The operation that `exec` runs for an instruction, with the register work and the bus accesses of its rule. -/
inductive Meaning : Instr → Prop
  | silent {i : Instr} {u : State → State} (run : ∀ s, exec i s = whenAdmitted i.rowProfile s (.next (u s)))
      (work : Work i u) (timed : ∀ s, Timed 7 (u s))
      (accesses : ∀ s t, i.accesses s t = [] := by exact fun _ _ => rfl) : Meaning i
  | branch {i : Instr} {cond : State → Bool} {d : Byte}
      (run : ∀ s, exec i s = whenAdmitted i.rowProfile s (branch (cond s) d s))
      (natural : ∀ (s : State) l, cond { s with aborts := l } = cond s := by exact fun _ _ => rfl)
      (writesPC : i.writesPC = true := by rfl)
      (accesses : ∀ s t, i.accesses s t = [] := by exact fun _ _ => rfl) : Meaning i
  | read {i : Instr} {o : ReadOperand} {f : Byte → State → State}
      (run : ∀ s, exec i s = whenAdmitted i.rowProfile s (readClass o s f)) (work : ∀ v, Work i (f v))
      (accesses : ∀ s t, i.accesses s t = ReadOperand.accesses o s := by exact fun _ _ => rfl) : Meaning i
  | write {i : Instr} {m : AddrMode} {v : State → Byte}
      (run : ∀ s, exec i s = whenAdmitted i.rowProfile s (writeClass m s (v s)))
      (natural : ∀ (s : State) l, v { s with aborts := l } = v s := by exact fun _ _ => rfl)
      (stores : i.storesByMode = some m := by rfl)
      (accesses : ∀ s t, i.accesses s t = AddrMode.writeAccesses m s (v s) := by exact fun _ _ => rfl) : Meaning i
  | modify {i : Instr} {m : AddrMode} {f : Byte → State → Byte} {g : Byte → Byte → State → State}
      (run : ∀ s, exec i s = whenAdmitted i.rowProfile s (rmwMemory m s f g))
      (reads_P : ∀ v (u w : State), u.P = w.P → f v u = f v w) (work : ∀ v r, Work i (g v r))
      (cycles : i.rowProfile ≠ .undocNmos → i.wellFormed = true → AddrMode.rmwCycles m ≤ 7)
      (stores : i.storesByMode = some m := by rfl)
      (accesses : ∀ s t, i.accesses s t = AddrMode.rmwAccesses m s t := by exact fun _ _ => rfl) : Meaning i
  | storeHigh {i : Instr} {m : AddrMode} {crossing : Refusal} {u : State → State}
      (run : ∀ s, exec i s = whenAdmitted i.rowProfile s (storeHighByte m crossing u s)) (work : Work i u)
      (stores : i.storesByMode = some m := by rfl) (undocumented : i.rowProfile = .undocNmos := by rfl)
      (accesses : ∀ s t, i.accesses s t =
        AddrMode.writeAccesses m s (s.A &&& s.X &&& (highByte (AddrMode.baseAddress m s) + 1)) := by
          exact fun _ _ => rfl) : Meaning i
  | arr (v : Byte) : Meaning (.arr v)
  | push {i : Instr} {v : State → Byte}
      (run : ∀ s, exec i s = whenAdmitted i.rowProfile s (finishAfter (push (v s) s) 3))
      (natural : ∀ (s : State) l, v { s with aborts := l } = v s := by exact fun _ _ => rfl)
      (writesS : i.writesS = true := by rfl) (pushes : i.pushes = 1 := by rfl)
      (stores : i.storesByMode = none := by rfl)
      (accesses : ∀ s t, i.accesses s t = [pushAccess s.S (v s)] := by exact fun _ _ => rfl) : Meaning i
  | pla : Meaning .pla
  | plp : Meaning .plp
  | jmpIndirect (p : Word) : Meaning (.jmp (.ind p))
  | jsr (a : Word) : Meaning (.jsr a)
  | rts : Meaning .rts
  | rti : Meaning .rti
  | brk : Meaning .brk

/-- Register work in 2 cycles and no bus access. -/
theorem Meaning.registers {i : Instr} {u : State → State}
    (run : ∀ s, exec i s = whenAdmitted i.rowProfile s (.next ((u s).finish 2))) (work : Work i u)
    (accesses : ∀ s t, i.accesses s t = [] := by exact fun _ _ => rfl) : Meaning i :=
  .silent run ⟨fun s => (work.touches s).finish 2, fun s l => by rw [work.natural]; rfl⟩
    (fun s => timed_finish (u s) le_rfl (by decide)) accesses

/-- Of the read-modify-write forms, those through a pointer alone take more than 7 cycles. -/
theorem rmwCycles_le_seven {m : AddrMode} {forms : List Format} (h : decide (m.format ∈ forms) = true)
    (hx : .indx ∉ forms := by decide) (hy : .indy ∉ forms := by decide) : AddrMode.rmwCycles m ≤ 7 := by
  have h := of_decide_eq_true h
  cases m with
  | indx a => exact absurd h hx
  | indy a => exact absurd h hy
  | _ => simp [AddrMode.rmwCycles]

theorem Work.hlt (k : Fin 12) :
    Work (.hlt k) fun s => { s with halted := true, report := { cycles := 0, outcome := .halted } } :=
  .of fun s => { Touches.refl (.hlt k) s with halted := fun hn => absurd rfl (hn k) }

theorem Work.invalid (k : Fin 2) : Work (.invalid k) fun s => { s with
    cycles := Config.invalidCycles s.draws
    draws := s.draws + 1
    report :=
      { cycles := Config.invalidCycles s.draws, outcome := .invalidOpcode (s.PC - 1) invalidOpcodes[k] } } :=
  .of fun s => { Touches.refl (.invalid k) s with }

/-- RRA's addition, with the bit rotated out as its carry. -/
theorem Work.adc_setC {i : Instr} (b : Bool) (r : Byte) (hA : i.writesA = true := by rfl)
    (hP : i.flagsWritten = [7, 6, 1, 0] := by rfl) : Work i fun s => (s.setC b).adc r :=
  ⟨fun s => ((Touches.refl i s).setC b (by rw [hP]; rfl)).addResult _ _ hA hP,
    fun s l => (Work.adc (i := i) r hA hP).natural (s.setC b) l⟩

/-- Every instruction is of one of the meanings. -/
theorem exec_meaning (i : Instr) : Meaning i := by
  cases i with
  | ora o => exact .read (fun _ => rfl) fun _ => .of fun s => ((Touches.refl _ s).withA _).setNZ _
  | and o => exact .read (fun _ => rfl) fun _ => .of fun s => ((Touches.refl _ s).withA _).setNZ _
  | eor o => exact .read (fun _ => rfl) fun _ => .of fun s => ((Touches.refl _ s).withA _).setNZ _
  | bit m => exact .read (fun _ => rfl) fun _ => .of fun s => (Touches.refl _ s).setNVZ _ _ _
  | adc o => exact .read (fun _ => rfl) fun _ => .adc _
  | sbc o => exact .read (fun _ => rfl) fun _ => .sbc _
  | cmp o => exact .read (fun _ => rfl) fun _ => .of fun s => (Touches.refl _ s).compare _ _
  | cpx o => exact .read (fun _ => rfl) fun _ => .of fun s => (Touches.refl _ s).compare _ _
  | cpy o => exact .read (fun _ => rfl) fun _ => .of fun s => (Touches.refl _ s).compare _ _
  | asl o =>
    cases o with
    | acc => exact .registers (fun _ => rfl) (.of fun s => ((Touches.refl _ s).withA _).shiftFlags _ _)
    | mem m =>
      exact .modify (shifts_asl.exec_eq (.mem m)) shifts_asl.reads_P
        (fun _ _ => .of fun s => (Touches.refl _ s).shiftFlags _ _) fun _ hw => rmwCycles_le_seven hw
  | lsr o =>
    cases o with
    | acc => exact .registers (fun _ => rfl) (.of fun s => ((Touches.refl _ s).withA _).shiftFlags _ _)
    | mem m =>
      exact .modify (shifts_lsr.exec_eq (.mem m)) shifts_lsr.reads_P
        (fun _ _ => .of fun s => (Touches.refl _ s).shiftFlags _ _) fun _ hw => rmwCycles_le_seven hw
  | rol o =>
    cases o with
    | acc => exact .registers (fun _ => rfl) (.of fun s => ((Touches.refl _ s).withA _).shiftFlags _ _)
    | mem m =>
      exact .modify (shifts_rol.exec_eq (.mem m)) shifts_rol.reads_P
        (fun _ _ => .of fun s => (Touches.refl _ s).shiftFlags _ _) fun _ hw => rmwCycles_le_seven hw
  | ror o =>
    cases o with
    | acc => exact .registers (fun _ => rfl) (.of fun s => ((Touches.refl _ s).withA _).shiftFlags _ _)
    | mem m =>
      exact .modify (shifts_ror.exec_eq (.mem m)) shifts_ror.reads_P
        (fun _ _ => .of fun s => (Touches.refl _ s).shiftFlags _ _) fun _ hw => rmwCycles_le_seven hw
  | lda o => exact .read (fun _ => rfl) fun _ => .of fun s => ((Touches.refl _ s).withA _).setNZ _
  | ldx o => exact .read (fun _ => rfl) fun _ => .of fun s => ((Touches.refl _ s).withX _).setNZ _
  | ldy o => exact .read (fun _ => rfl) fun _ => .of fun s => ((Touches.refl _ s).withY _).setNZ _
  | sta m => exact .write fun _ => rfl
  | stx m => exact .write fun _ => rfl
  | sty m => exact .write fun _ => rfl
  | tax => exact .registers (fun _ => rfl) (.of fun s => ((Touches.refl _ s).withX _).setNZ _)
  | tay => exact .registers (fun _ => rfl) (.of fun s => ((Touches.refl _ s).withY _).setNZ _)
  | txa => exact .registers (fun _ => rfl) (.of fun s => ((Touches.refl _ s).withA _).setNZ _)
  | tya => exact .registers (fun _ => rfl) (.of fun s => ((Touches.refl _ s).withA _).setNZ _)
  | tsx => exact .registers (fun _ => rfl) (.of fun s => ((Touches.refl _ s).withX _).setNZ _)
  | txs => exact .registers (fun _ => rfl) (.of fun s => (Touches.refl _ s).withS _)
  | inc m =>
    exact .modify (fun _ => rfl) (fun _ _ _ _ => rfl)
      (fun _ _ => .of fun s => (Touches.refl _ s).setNZ _) fun _ hw => rmwCycles_le_seven hw
  | dec m =>
    exact .modify (fun _ => rfl) (fun _ _ _ _ => rfl)
      (fun _ _ => .of fun s => (Touches.refl _ s).setNZ _) fun _ hw => rmwCycles_le_seven hw
  | inx => exact .registers (fun _ => rfl) (.of fun s => ((Touches.refl _ s).withX _).setNZ _)
  | iny => exact .registers (fun _ => rfl) (.of fun s => ((Touches.refl _ s).withY _).setNZ _)
  | dex => exact .registers (fun _ => rfl) (.of fun s => ((Touches.refl _ s).withX _).setNZ _)
  | dey => exact .registers (fun _ => rfl) (.of fun s => ((Touches.refl _ s).withY _).setNZ _)
  | pha => exact .push fun _ => rfl
  | php => exact .push fun _ => rfl
  | pla => exact .pla
  | plp => exact .plp
  | jmp j =>
    cases j with
    | abs a =>
      exact .silent (fun _ => rfl) (.of fun s => ((Touches.refl _ s).withPC a).finish 3)
        fun s => timed_finish { s with PC := a } (by decide) (by decide)
    | ind p => exact .jmpIndirect p
  | jsr a => exact .jsr a
  | rts => exact .rts
  | rti => exact .rti
  | brk => exact .brk
  | bpl d => exact .branch fun _ => rfl
  | bmi d => exact .branch fun _ => rfl
  | bvc d => exact .branch fun _ => rfl
  | bvs d => exact .branch fun _ => rfl
  | bcc d => exact .branch fun _ => rfl
  | bcs d => exact .branch fun _ => rfl
  | bne d => exact .branch fun _ => rfl
  | beq d => exact .branch fun _ => rfl
  | clc => exact .registers (fun _ => rfl) (.of fun s => (Touches.refl _ s).setC _)
  | sec => exact .registers (fun _ => rfl) (.of fun s => (Touches.refl _ s).setC _)
  | cli => exact .registers (fun _ => rfl) (.of fun s => (Touches.refl _ s).setI _)
  | sei => exact .registers (fun _ => rfl) (.of fun s => (Touches.refl _ s).setI _)
  | clv => exact .registers (fun _ => rfl) (.of fun s => (Touches.refl _ s).setV _)
  | cld => exact .registers (fun _ => rfl) (.of fun s => (Touches.refl _ s).setD _)
  | sed => exact .registers (fun _ => rfl) (.of fun s => (Touches.refl _ s).setD _)
  | nop => exact .registers (fun _ => rfl) (.id _)
  | nopAlias f =>
    cases f with
    | imp k => exact .registers (fun _ => rfl) (.id _)
    | imm k v => exact .read (fun _ => rfl) fun _ => .id _
    | zp k a => exact .read (fun _ => rfl) fun _ => .id _
    | zpx k a => exact .read (fun _ => rfl) fun _ => .id _
    | abs a => exact .read (fun _ => rfl) fun _ => .id _
    | absx k a => exact .read (fun _ => rfl) fun _ => .id _
  | hlt k => exact .silent (fun _ => rfl) (.hlt k) (fun _ hok => nomatch hok)
  | invalid k => exact .silent (fun _ => rfl) (.invalid k) (fun _ hok => nomatch hok)
  | slo m =>
    exact .modify (fun _ => rfl) (fun _ _ _ _ => rfl)
      (fun _ _ => .of fun s => (((Touches.refl _ s).withA _).setC _).setNZ _) fun hn => absurd rfl hn
  | rla m =>
    exact .modify (fun _ => rfl) shifts_rol.reads_P
      (fun _ _ => .of fun s => (((Touches.refl _ s).withA _).setC _).setNZ _) fun hn => absurd rfl hn
  | sre m =>
    exact .modify (fun _ => rfl) (fun _ _ _ _ => rfl)
      (fun _ _ => .of fun s => (((Touches.refl _ s).withA _).setC _).setNZ _) fun hn => absurd rfl hn
  | rra m =>
    exact .modify (fun _ => rfl) shifts_ror.reads_P (fun _ r => .adc_setC _ r) fun hn => absurd rfl hn
  | sax m => exact .write fun _ => rfl
  | lax m => exact .read (fun _ => rfl) fun _ => .of fun s => (((Touches.refl _ s).withA _).withX _).setNZ _
  | dcp m =>
    exact .modify (fun _ => rfl) (fun _ _ _ _ => rfl)
      (fun _ _ => .of fun s => (Touches.refl _ s).compare _ _) fun hn => absurd rfl hn
  | isc m =>
    exact .modify (fun _ => rfl) (fun _ _ _ _ => rfl) (fun _ r => .sbc r) fun hn => absurd rfl hn
  | anc k v => exact .read (fun _ => rfl) fun _ => .of fun s => (((Touches.refl _ s).withA _).setNZ _).setC _
  | alr v => exact .read (fun _ => rfl) fun _ => .of fun s => (((Touches.refl _ s).withA _).setC _).setNZ _
  | arr v => exact .arr v
  | ane v =>
    exact .read (fun _ => rfl) fun _ => .of fun s => (((Touches.refl (.ane v) s).withDraws (s.draws + 1)).withA _).setNZ _
  | lxa v =>
    exact .read (fun _ => rfl) fun _ => .of fun s =>
      ((((Touches.refl (.lxa v) s).withDraws (s.draws + 1)).withA _).withX _).setNZ _
  | sbx v => exact .read (fun _ => rfl) fun _ => .of fun s => (((Touches.refl _ s).withX _).setC _).setNZ _
  | usbc v => exact .read (fun _ => rfl) fun _ => .sbc _
  | las a => exact .read (fun _ => rfl) fun _ => .of fun s => ((((Touches.refl _ s).withA _).withX _).withS _).setNZ _
  | tas a => exact .storeHigh (fun _ => rfl) (.of fun s => (Touches.refl _ s).withS _)
  | sha m => exact .storeHigh (fun _ => rfl) (.id _)

end Sys2Proof.Machine
end

section
/-! PROOF. What the instructions with a meaning of their own answer, if they answer: the stack, jumps, branches,
interrupts, ARR, TAS and SHA. -/

namespace Sys2Proof.Machine

/-- A branch writes PC at most, and ends after 2, 3 or 4 cycles. -/
theorem branch_next {cond : Bool} {d : Byte} {s t : State} (h : branch cond d s = .next t) :
    ∃ a n, t = { s with PC := a }.finish n ∧ 2 ≤ n ∧ n ≤ 4 := by
  cases cond with
  | true =>
    cases (branch_true d s).symm.trans h
    refine ⟨_, _, rfl, ?_⟩
    split <;> decide
  | false =>
    cases (branch_false d s).symm.trans h
    exact ⟨s.PC, 2, rfl, by decide⟩

/-! The stack. -/

theorem pla_next {s t : State} (h : exec .pla s = .next t) : ∃ c tr d, t =
    (({ s with S := s.S + 1, A := s.peek (stackAddress (s.S + 1)) }.quiet c tr d).setNZ
      (s.peek (stackAddress (s.S + 1)))).finish 4 := by
  rw [exec_pla] at h
  obtain ⟨v, s1, hpull, h⟩ := andThen_eq_next.1 h
  obtain ⟨rfl, c, tr, d, rfl⟩ := pull_next hpull
  cases h
  exact ⟨c, tr, d, rfl⟩

theorem plp_next {s t : State} (h : exec .plp s = .next t) : ∃ c tr d, t =
    ({ s with S := s.S + 1, P := statusPulled (s.peek (stackAddress (s.S + 1))) }.quiet c tr d).finish 4 := by
  rw [exec_plp] at h
  obtain ⟨s1, hpull, rfl⟩ := finishAfter_next h
  obtain ⟨c, tr, d, rfl⟩ := pullStatus_next hpull
  exact ⟨c, tr, d, rfl⟩

theorem pushing_next {v : Byte} {n : Nat} {s t : State} (h : finishAfter (push v s) n = .next t) : ∃ c tr d, t =
    (({ s with S := s.S - 1 }.store (stackAddress s.S) v).quiet c tr d).finish n := by
  obtain ⟨s1, hpush, rfl⟩ := finishAfter_next h
  obtain ⟨c, tr, d, rfl⟩ := push_next hpush
  exact ⟨c, tr, d, rfl⟩

/-! Jumps. -/

theorem readIndirect_next {p : Word} {s t : State} {w : Word} (h : readIndirect p s = .next (w, t)) :
    ∃ c tr d, t = s.quiet c tr d := by
  obtain ⟨lo, s1, hlo, h⟩ := andThen_eq_next.1 h
  obtain ⟨rfl, c, tr, d, rfl⟩ := memRead_next hlo
  obtain ⟨hi, s2, hhi, h⟩ := andThen_eq_next.1 h
  obtain ⟨rfl, c', tr', d', rfl⟩ := memRead_next hhi
  cases h
  exact ⟨c', tr', d', rfl⟩

theorem jmp_ind_next {p : Word} {s t : State} (h : exec (.jmp (.ind p)) s = .next t) : ∃ a c tr d, t =
    ({ s.quiet c tr d with PC := a }).finish 5 := by
  rw [exec_jmp_ind] at h
  obtain ⟨a, s1, hread, h⟩ := andThen_eq_next.1 h
  obtain ⟨c, tr, d, rfl⟩ := readIndirect_next hread
  cases h
  exact ⟨a, c, tr, d, rfl⟩

theorem jsr_next {a : Word} {s t : State} (h : exec (.jsr a) s = .next t) : ∃ c tr d, t =
    ({ (({ s with S := s.S - 1 - 1 }.store (stackAddress s.S) (highByte (s.PC - 1))).store
      (stackAddress (s.S - 1)) (lowByte (s.PC - 1))).quiet c tr d with PC := a }).finish 6 := by
  rw [exec_jsr] at h
  obtain ⟨_, s1, hpush, h⟩ := andThen_eq_next.1 h
  obtain ⟨c, tr, d, rfl⟩ := pushWord_next hpush
  cases h
  exact ⟨c, tr, d, rfl⟩

theorem rts_next {s t : State} (h : exec .rts s = .next t) : ∃ c tr d, t = ({ s.quiet c tr d with
    S := s.S + 1 + 1
    PC := wordOf (s.peek (stackAddress (s.S + 1 + 1))) (s.peek (stackAddress (s.S + 1))) + 1 }).finish 6 := by
  rw [exec_rts] at h
  obtain ⟨w, s1, hpull, h⟩ := andThen_eq_next.1 h
  obtain ⟨rfl, c, tr, d, rfl⟩ := pullWord_next hpull
  cases h
  exact ⟨c, tr, d, rfl⟩

/-! Interrupts. -/

theorem rti_next {s t : State} (h : exec .rti s = .next t) : ∃ c tr d, t = ({ s with
    P := statusPulled (s.peek (stackAddress (s.S + 1)))
    S := s.S + 1 + 1 + 1
    PC := wordOf (s.peek (stackAddress (s.S + 1 + 1 + 1))) (s.peek (stackAddress (s.S + 1 + 1)))
    }.quiet c tr d).finish 6 := by
  rw [exec_rti] at h
  obtain ⟨s1, hreturn, rfl⟩ := finishAfter_next h
  obtain ⟨c, tr, d, rfl⟩ := returnFromInterrupt_next hreturn
  exact ⟨c, tr, d, rfl⟩

/-- What an interrupt entry leaves, its bookkeeping aside (R284, R412): `enterInterrupt_next` and `enterInterrupt_plain`
say so. -/
def State.entered (s : State) (status : Byte) (vector : Word) : State :=
  { (s.pushedThree s.PC status).setI true with
    PC := wordOf ((s.pushedThree s.PC status).peek (vector + 1)) ((s.pushedThree s.PC status).peek vector) }

theorem exec_brk (s : State) : exec .brk s =
    andThen (fetch s) fun _ s1 => finishAfter (enterInterrupt (s1.P ||| 0x30) 0xFFFE s1) 7 := rfl

/-- What BRK leaves: three bytes pushed, I set, and PC from the vector (R284). -/
theorem brk_next {s t : State} (h : exec .brk s = .next t) : ∃ c tr d, t =
    (State.entered { s with PC := s.PC + 1 } (s.P ||| 0x30) 0xFFFE |>.quiet c tr d).finish 7 := by
  rw [exec_brk] at h
  obtain ⟨_, s1, hfetch, h⟩ := andThen_eq_next.1 h
  obtain ⟨-, c, tr, d, rfl⟩ := fetch_next hfetch
  obtain ⟨s2, hentry, rfl⟩ := finishAfter_next h
  obtain ⟨c', tr', d', rfl⟩ := enterInterrupt_next hentry
  exact ⟨c', tr', d', rfl⟩

/-! ARR, TAS and SHA. -/

theorem exec_arr_admitted (v : Byte) (s : State) : exec (.arr v) s = whenNmosAdmitted s
    (if s.flagD then .refused .arrDecimal else .next ((arrWork v s).finish 2)) := rfl

/-- ARR, when it answers, is its register work in 2 cycles. -/
theorem arr_next {v : Byte} {s t : State} (h : exec (.arr v) s = .next t) : t = (arrWork v s).finish 2 := by
  rw [exec_arr_admitted] at h
  obtain ⟨-, h⟩ := whenNmosAdmitted_next h
  split at h
  · cases h
  · cases h; rfl

/-- TAS and SHA store at their effective address at most. -/
theorem storeHighByte_next {m : AddrMode} {crossing : Refusal} {w : State → State} {s t : State}
    (h : storeHighByte m crossing w s = .next t) : ∃ v c tr d c' tr' d',
      t = (((w (s.quiet c tr d)).store (addressed m s).addr v).quiet c' tr' d').finish (AddrMode.writeCycles m) := by
  obtain ⟨ea, s1, hea, h⟩ := andThen_eq_next.1 h
  obtain ⟨rfl, c, tr, d, rfl⟩ := effectiveAddress_next hea
  split at h
  · cases h
  · obtain ⟨s2, hwrite, rfl⟩ := finishAfter_next h
    obtain ⟨c', tr', d', rfl⟩ := memWrite_next hwrite
    exact ⟨_, c, tr, d, c', tr', d', rfl⟩

end Sys2Proof.Machine
end

section
/-! PROOF. What every instruction leaves as it was (spec 10_state, 20_memory R84, R85). -/

namespace Sys2Proof.Machine

/-- The addresses that an instruction may store to: the one its mode gives (R85), or the bytes it pushes (R84). -/
def storedTo (i : Instr) (s : State) : List Word :=
  match i.storesByMode with
  | some m => [AddrMode.address m s]
  | none => [stackAddress s.S, stackAddress (s.S - 1), stackAddress (s.S - 1 - 1)].take i.pushes

theorem storedTo_of_mode {i : Instr} {m : AddrMode} (h : i.storesByMode = some m) (s : State) :
    storedTo i s = [AddrMode.address m s] := by rw [storedTo, h]

/-- What instruction `i` leaves of `s` in `t`: what it does not write, every byte of memory that it does not store to,
and memory in its canonical form. -/
structure Frame (i : Instr) (s t : State) : Prop extends Keeps i s t where
  peek : ∀ a ∉ storedTo i s, t.peek a = s.peek a
  wf : Memory.wf s.mem = true → Memory.wf t.mem = true

section
variable {i : Instr} {s u t : State}

theorem Frame.refl (i : Instr) (s : State) : Frame i s s :=
  { Touches.refl i s with peek := fun _ _ => rfl, wf := fun h => h }

/-- Register work after anything. -/
theorem Frame.work (h : Frame i s u) (hw : Touches i u t) : Frame i s t where
  A hn := (hw.A hn).trans (h.A hn)
  X hn := (hw.X hn).trans (h.X hn)
  Y hn := (hw.Y hn).trans (h.Y hn)
  S hn := (hw.S hn).trans (h.S hn)
  PC hn := (hw.PC hn).trans (h.PC hn)
  P k hk := (hw.P k hk).trans (h.P k hk)
  halted hn := (hw.halted hn).trans (h.halted hn)
  aborts := hw.aborts.trans h.aborts
  params := hw.params.trans h.params
  peek a ha := (congrArg (Memory.read · a.toNat) hw.mem).trans (h.peek a ha)
  wf hm := hw.mem ▸ h.wf hm

variable (h : Frame i s u)
include h

/-- Bus accesses that write nothing. -/
theorem Frame.quiet (c : Nat) (tr : List BusAccess) (d : Nat) : Frame i s (u.quiet c tr d) := { h with }

theorem Frame.finish (n : Nat) : Frame i s (u.finish n) := { h with }

/-- A store to one of the instruction's addresses. -/
theorem Frame.store {a : Word} (v : Byte) (ha : a ∈ storedTo i s) : Frame i s (u.store a v) :=
  { h with
    peek := fun b hb => (u.peek_store a b v).trans ((if_neg (ne_of_mem_of_not_mem ha hb).symm).trans (h.peek b hb))
    wf := fun hm => Memory.wf_write_word a v (h.wf hm) }

/-- The store of an instruction of class write or rmw. -/
theorem Frame.storeMode {m : AddrMode} (v : Byte) (hm : i.storesByMode = some m) :
    Frame i s (u.store (addressed m s).addr v) :=
  h.store v (by rw [storedTo_of_mode hm, addressed_addr]; exact List.mem_singleton_self _)

end

/-- A push or pull moves S. -/
theorem Frame.withS {i : Instr} {s u : State} (h : Frame i s u) (v : Byte) (hw : i.writesS = true := by rfl) :
    Frame i s { u with S := v } := h.work ((Touches.refl i u).withS v hw)

theorem Frame.withPC {i : Instr} {s u : State} (h : Frame i s u) (a : Word) (hw : i.writesPC = true := by rfl) :
    Frame i s { u with PC := a } := h.work ((Touches.refl i u).withPC a hw)

/-- PLP and RTI replace P. -/
theorem Frame.withP {i : Instr} {s u : State} (h : Frame i s u) (p : Byte) (hw : ∀ k < 8, k ∈ i.flagsWritten) :
    Frame i s { u with P := p } := h.work ((Touches.refl i u).withP p hw)

theorem touches_arrWork (v w : Byte) (s : State) : Touches (.arr v) s (arrWork w s) :=
  ((((Touches.refl _ s).withA _).setNZ _).setC _).setV _

/-- Whatever instruction answers, on any bus and in any state, leaves its frame. -/
theorem exec_frame {i : Instr} {s t : State} (h : exec i s = .next t) : Frame i s t := by
  cases exec_meaning i with
  | silent run work =>
    cases whenAdmitted_next ((run s).symm.trans h)
    exact (Frame.refl i s).work (work.touches s)
  | branch run _ writesPC =>
    obtain ⟨a, n, rfl, -⟩ := branch_next (whenAdmitted_next ((run s).symm.trans h))
    exact ((Frame.refl i s).withPC a writesPC).finish n
  | read run work =>
    obtain ⟨c, tr, d, rfl⟩ := readClass_next (whenAdmitted_next ((run s).symm.trans h))
    exact (((Frame.refl i s).quiet c tr d).work ((work _).touches _)).finish _
  | write run _ stores =>
    obtain ⟨c, tr, d, rfl⟩ := writeClass_next (whenAdmitted_next ((run s).symm.trans h))
    exact (((Frame.refl i s).storeMode _ stores).quiet c tr d).finish _
  | modify run reads_P work _ stores =>
    obtain ⟨c, tr, d, rfl⟩ := rmwMemory_next reads_P (whenAdmitted_next ((run s).symm.trans h))
    exact ((((Frame.refl i s).storeMode _ stores).quiet c tr d).work ((work _ _).touches _)).finish _
  | storeHigh run work stores =>
    obtain ⟨v, c, tr, d, c', tr', d', rfl⟩ := storeHighByte_next (whenAdmitted_next ((run s).symm.trans h))
    exact (((((Frame.refl i s).quiet c tr d).work (work.touches _)).storeMode v stores).quiet c' tr' d').finish _
  | arr v =>
    rw [arr_next h]
    exact ((Frame.refl _ s).work (touches_arrWork v v s)).finish 2
  | push run _ writesS pushes stores =>
    obtain ⟨c, tr, d, rfl⟩ := pushing_next (whenAdmitted_next ((run s).symm.trans h))
    have hs : stackAddress s.S ∈ storedTo i s := by simp [storedTo, stores, pushes]
    exact ((((Frame.refl i s).withS _ writesS).store _ hs).quiet c tr d).finish 3
  | pla =>
    obtain ⟨c, tr, d, rfl⟩ := pla_next h
    have hpulled := ((Frame.refl .pla s).withS (s.S + 1)).work
      ((Touches.refl _ _).withA (s.peek (stackAddress (s.S + 1))))
    exact ((hpulled.quiet c tr d).work ((Touches.refl _ _).setNZ _)).finish 4
  | plp =>
    obtain ⟨c, tr, d, rfl⟩ := plp_next h
    have hpulled := ((Frame.refl .plp s).withS (s.S + 1)).withP (statusPulled (s.peek (stackAddress (s.S + 1))))
      (by decide)
    exact (hpulled.quiet c tr d).finish 4
  | jmpIndirect p =>
    obtain ⟨a, c, tr, d, rfl⟩ := jmp_ind_next h
    exact (((Frame.refl (.jmp (.ind p)) s).quiet c tr d).withPC a).finish 5
  | jsr a =>
    obtain ⟨c, tr, d, rfl⟩ := jsr_next h
    have hpushed := (((Frame.refl (.jsr a) s).withS (s.S - 1 - 1)).store (highByte (s.PC - 1)) (.head _)).store
      (lowByte (s.PC - 1)) (.tail _ (.head _))
    exact ((hpushed.quiet c tr d).withPC a).finish 6
  | rts =>
    obtain ⟨c, tr, d, rfl⟩ := rts_next h
    exact ((((Frame.refl .rts s).quiet c tr d).withS (s.S + 1 + 1)).withPC _).finish 6
  | rti =>
    obtain ⟨c, tr, d, rfl⟩ := rti_next h
    have hpulled := (((Frame.refl .rti s).withS (s.S + 1 + 1 + 1)).withPC
      (wordOf (s.peek (stackAddress (s.S + 1 + 1 + 1))) (s.peek (stackAddress (s.S + 1 + 1))))).withP
      (statusPulled (s.peek (stackAddress (s.S + 1)))) (by decide)
    exact (hpulled.quiet c tr d).finish 6
  | brk =>
    obtain ⟨c, tr, d, rfl⟩ := brk_next h
    have hpushed : Frame .brk s (State.pushedThree { s with PC := s.PC + 1 } (s.PC + 1) (s.P ||| 0x30)) :=
      (((((Frame.refl .brk s).withPC (s.PC + 1)).withS _).store _ (.head _)).store _ (.tail _ (.head _))).store _
        (.tail _ (.tail _ (.head _)))
    exact (((hpushed.work ((Touches.refl _ _).setI true)).withPC _).quiet c tr d).finish 7

/-! The frames. -/

/-- Settles O53: a part of the frame. -/
theorem registerFrame : Obligations.RegisterFrame := fun _ _ _ h =>
  have hf := exec_frame h
  ⟨hf.A, hf.X, hf.Y, hf.S, hf.PC⟩

/-- Settles O54: a part of the frame. -/
theorem flagFrame : Obligations.FlagFrame := fun _ _ _ h => (exec_frame h).P

/-- Settles O55: a part of the frame. -/
theorem platformFrame : Obligations.PlatformFrame := fun _ _ _ h =>
  have hf := exec_frame h
  ⟨hf.aborts, hf.params, hf.halted⟩

/-- Settles O56: such an instruction has no address to store to. -/
theorem noStoreFrame : Obligations.NoStoreFrame := by
  intro i s t hmode hpush h a
  refine (exec_frame h).peek a ?_
  simp [storedTo, hmode, hpush]

/-- Settles O57: its only address to store to is the one its mode gives. -/
theorem storeFrame : Obligations.StoreFrame := by
  intro i m s s1 t ea hmode hea h a ha
  obtain ⟨rfl, -⟩ := effectiveAddress_next hea
  refine (exec_frame h).peek a ?_
  rwa [storedTo_of_mode hmode, List.mem_singleton, ← addressed_addr]

/-- An instruction that pushes stores to no memory operand. -/
theorem storesByMode_of_pushes {i : Instr} (h : i.pushes ≠ 0) : i.storesByMode = none := by
  cases i with
  | pha => rfl
  | php => rfl
  | jsr a => rfl
  | brk => rfl
  | _ => exact absurd rfl h

/-- Settles O58: its addresses to store to are the bytes it pushes, one for each. -/
theorem stackFrame : Obligations.StackFrame := by
  intro i s t h a h1 h2 h3 h0
  refine (exec_frame h).peek a ?_
  have htwo : s.S - 1 - 1 = s.S - 2 := BitVec.sub_sub s.S 1 1
  rw [storedTo, storesByMode_of_pushes h0, htwo]
  generalize i.pushes = n at h1 h2 h3
  rcases n with _ | _ | _ | n
  · exact List.not_mem_nil
  · simpa using h1
  · simpa using And.intro h1 h2
  · simpa using And.intro h1 (And.intro h2 h3)

end Sys2Proof.Machine
end

section
/-! PROOF. The Step and the other host calls keep the invariant (spec 10_state R26, 20_memory R50). -/

namespace Sys2Proof.Machine

/-- Live U and B are among the flags of PLP and RTI alone, which read P from the stack. -/
theorem flagsWritten_live (i : Instr) : i = .plp ∨ i = .rti ∨ 4 ∉ i.flagsWritten ∧ 5 ∉ i.flagsWritten := by
  cases i with
  | plp => exact .inl rfl
  | rti => exact .inr (.inl rfl)
  | _ => exact .inr (.inr (by simp [Instr.flagsWritten]))

/-- Every instruction leaves live U and B at 0: it does not write them, or masks them as it pulls P (R30). -/
theorem exec_live {i : Instr} {s t : State} (hs : s.P &&& 0x30 = 0) (h : exec i s = .next t) : t.P &&& 0x30 = 0 := by
  rcases flagsWritten_live i with rfl | rfl | ⟨h4, h5⟩
  · obtain ⟨c, tr, d, rfl⟩ := plp_next h
    exact statusPulled_live _
  · obtain ⟨c, tr, d, rfl⟩ := rti_next h
    exact statusPulled_live _
  · have hP := (exec_frame h).P
    rw [status_live_iff] at hs ⊢
    rwa [hP 4 h4, hP 5 h5]

theorem exec_inv {i : Instr} {s t : State} (hs : s.Inv) (h : exec i s = .next t) : t.Inv :=
  ⟨(exec_frame h).wf hs.1, exec_live hs.2 h⟩

/-- Settles O12: a Step of a halted core changes neither memory nor P; one of a running core is the fetch, which changes
neither, and an instruction. -/
theorem stepKeepsInvariant : Obligations.StepKeepsInvariant := by
  intro s t hs h
  cases hh : s.halted with
  | true =>
    cases (step_of_halted hh).symm.trans h
    exact hs
  | false =>
    obtain ⟨i, rest, c, tr, d, -, h⟩ := step_next hh h
    exact exec_inv (s := State.quiet { s with PC := _ } c tr d) hs h

/-- An interrupt entry stores three bytes and sets I. -/
theorem State.entered_inv {s : State} (hs : s.Inv) (status : Byte) (vector : Word) : (s.entered status vector).Inv := by
  obtain ⟨hmem, hP⟩ := hs
  exact ⟨Memory.wf_write_word _ _ (Memory.wf_write_word _ _ (Memory.wf_write_word _ _ hmem)),
    status_live_setBit hP 2 true (by decide) (by decide) (by decide)⟩

theorem takeInterrupt_next {vector : Word} {s t : State} (h : takeInterrupt vector s = .next t) :
    ∃ c tr d, t = (s.entered ((s.P ||| 0x20) &&& 0xEF) vector).quiet c tr d := by
  obtain ⟨_, s1, hentry, h⟩ := andThen_eq_next.1 h
  obtain ⟨c, tr, d, rfl⟩ := enterInterrupt_next hentry
  cases h
  exact ⟨c, tr, d, rfl⟩

theorem takeInterrupt_inv {vector : Word} {s t : State} (hs : s.Inv) (h : takeInterrupt vector s = .next t) : t.Inv := by
  obtain ⟨c, tr, d, rfl⟩ := takeInterrupt_next h
  exact State.entered_inv hs ((s.P ||| 0x20) &&& 0xEF) vector

theorem hostIrq_ignored {s : State} (h : s.flagI = true) : hostIrq s = .next s := if_pos h

theorem hostIrq_taken {s : State} (h : s.flagI = false) : hostIrq s = takeInterrupt 0xFFFE s := if_neg (by simp [h])

/-- Settles O13: Reset keeps memory and clears P, an entry is three stores and I, SetPC touches neither. -/
theorem hostCallsKeepInvariant : Obligations.HostCallsKeepInvariant := by
  intro c s t hc hs h
  cases c with
  | reset =>
    obtain ⟨-, rfl⟩ := hostReset_eq_next.1 h
    exact ⟨hs.1, (by decide : (0x00 : Byte) &&& 0x30 = 0)⟩
  | nmi => exact takeInterrupt_inv hs h
  | irq =>
    cases hI : s.flagI with
    | true =>
      cases (hostIrq_ignored hI).symm.trans h
      exact hs
    | false => exact takeInterrupt_inv hs ((hostIrq_taken hI).symm.trans h)
  | setPC lo hi => cases h; exact hs
  | step => exact absurd rfl hc

/-- Settles O14: on the default bus Create reads zeros at the reset vector. -/
theorem resetStateIsCreated : Obligations.ResetStateIsCreated := ⟨⟨rfl, rfl⟩, rfl⟩

/-- Settles O15: on the plain bus Reset answers what it leaves. -/
theorem resetOperation : Obligations.ResetOperation :=
  fun _ h => hostReset_eq_next.2 ⟨h.resetVectorReadable, rfl⟩

/-- Settles O59: PC is the word of the two bytes, and its halves are theirs. -/
theorem setPcThenGetPc : Obligations.SetPcThenGetPc :=
  fun lo hi _ => ⟨rfl, wordOf_toNat hi lo, lowByte_wordOf hi lo, highByte_wordOf hi lo⟩

end Sys2Proof.Machine
end

section
/-! PROOF. The Step: what it fetches, when it halts, its cycles and its PC (spec 30_encoding R110 to R124,
48_nop_halt). -/

namespace Sys2Proof.Machine

/-! The instruction at PC. -/

/-- The three bytes at PC decode to the instruction of the opcode's shape, and leave over what is no operand. -/
theorem State.Fetches.eq {s : State} {i : Instr} {rest : List Byte} (h : s.Fetches i rest) :
    i = Shape.instr (decodeOpcode (s.peek s.PC)) (s.peek (s.PC + 1)) (s.peek (s.PC + 2)) ∧
      rest = [s.peek (s.PC + 1), s.peek (s.PC + 2)].drop (decodeOpcode (s.peek s.PC)).operandBytes := by
  cases (decode_three ..).symm.trans h
  exact ⟨rfl, rfl⟩

theorem State.Fetches.wellFormed {s : State} {i : Instr} {rest : List Byte} (h : s.Fetches i rest) :
    i.wellFormed = true := (encodeOfDecode _ _ _ h).1

/-- The opcode alone gives the class. -/
theorem State.Fetches.rowProfile {s : State} {i : Instr} {rest : List Byte} (h : s.Fetches i rest) :
    (decodeOpcode (s.peek s.PC)).rowProfile = i.rowProfile := by
  rw [h.eq.1]
  exact (wellFormedHasOpcode _).2 _ _ (encodesBack ..).2

/-! The halt opcodes. -/

theorem rowProfile_eq_hlt_iff : ∀ op : Byte, (decodeOpcode op).rowProfile = .hlt ↔
    op ∈ ([0x02, 0x12, 0x22, 0x32, 0x42, 0x52, 0x62, 0x72, 0x92, 0xB2, 0xD2, 0xF2] : List Byte) := by decide

theorem rowProfile_hlt {i : Instr} (h : i.rowProfile = .hlt) : ∃ k, i = .hlt k := by
  cases i with
  | hlt k => exact ⟨k, rfl⟩
  | _ => cases h

/-- Settles O7: HLT sets the latch, every other instruction keeps it, and the opcode tells which it is. -/
theorem onlyHaltOpcodesHalt : Obligations.OnlyHaltOpcodesHalt := by
  intro s t hh h
  obtain ⟨i, rest, c, tr, d, hi, h⟩ := step_next hh h
  rw [← rowProfile_eq_hlt_iff, hi.rowProfile]
  constructor
  case mp =>
    intro ht
    by_contra hrow
    have hkept := (exec_frame h).halted fun k e => hrow (e ▸ rfl)
    exact absurd (hkept.symm.trans ht) (by simp [hh])
  case mpr =>
    intro hrow
    obtain ⟨k, rfl⟩ := rowProfile_hlt hrow
    cases h
    rfl

/-! Cycles. -/

/-- The column of R124 for reads, with the penalty. -/
theorem readCycles_bounds (o : ReadOperand) (cross : Bool) :
    2 ≤ ReadOperand.readCycles o + crossPenalty cross ∧ ReadOperand.readCycles o + crossPenalty cross ≤ 7 := by
  have hcross : crossPenalty cross ≤ 1 := by cases cross <;> decide
  have hbase : 2 ≤ ReadOperand.readCycles o ∧ ReadOperand.readCycles o ≤ 6 := by
    rcases o with v | m
    · exact ⟨le_rfl, Nat.le_add_right 2 4⟩
    · cases m <;> simp [ReadOperand.readCycles, AddrMode.readCycles]
  omega

theorem writeCycles_bounds (m : AddrMode) : 2 ≤ AddrMode.writeCycles m ∧ AddrMode.writeCycles m ≤ 7 := by
  cases m <;> simp [AddrMode.writeCycles]

theorem rmwCycles_bounds (m : AddrMode) : 2 ≤ AddrMode.rmwCycles m ∧ AddrMode.rmwCycles m ≤ 8 := by
  cases m <;> simp [AddrMode.rmwCycles]

/-- A combined opcode runs under `UNDOC_PROFILE = nmos` alone. -/
theorem whenAdmitted_undocNmos {τ : Type} {row : RowProfile} {s : State} {x : Host.Outcome τ Fault Refusal} {t : τ}
    (h : whenAdmitted row s x = .next t) (hrow : row = .undocNmos) : s.params.undocProfile = .nmos := by
  subst hrow
  exact (whenNmosAdmitted_next h).1

/-- An instruction takes from 2 to 7 cycles, or it is admitted by `nmos` and takes 8 at most. -/
theorem exec_timed {i : Instr} {s t : State} (hw : i.wellFormed = true) (h : exec i s = .next t) :
    Timed 7 t ∨ s.params.undocProfile = .nmos ∧ Timed 8 t := by
  cases exec_meaning i with
  | silent run _ timed =>
    cases whenAdmitted_next ((run s).symm.trans h)
    exact .inl (timed s)
  | branch run =>
    obtain ⟨a, n, rfl, h2, h4⟩ := branch_next (whenAdmitted_next ((run s).symm.trans h))
    exact .inl (timed_finish _ h2 (h4.trans (by decide)))
  | read run =>
    obtain ⟨c, tr, d, rfl⟩ := readClass_next (whenAdmitted_next ((run s).symm.trans h))
    obtain ⟨h2, h7⟩ := readCycles_bounds _ _
    exact .inl (timed_finish _ h2 h7)
  | write run =>
    obtain ⟨c, tr, d, rfl⟩ := writeClass_next (whenAdmitted_next ((run s).symm.trans h))
    obtain ⟨h2, h7⟩ := writeCycles_bounds _
    exact .inl (timed_finish _ h2 h7)
  | modify run reads_P _ cycles =>
    have h := (run s).symm.trans h
    have hrow := whenAdmitted_undocNmos h
    obtain ⟨c, tr, d, rfl⟩ := rmwMemory_next reads_P (whenAdmitted_next h)
    obtain ⟨h2, h8⟩ := rmwCycles_bounds _
    by_cases hundoc : i.rowProfile = .undocNmos
    · exact .inr ⟨hrow hundoc, timed_finish _ h2 h8⟩
    · exact .inl (timed_finish _ h2 (cycles hundoc hw))
  | storeHigh run =>
    obtain ⟨v, c, tr, d, c', tr', d', rfl⟩ := storeHighByte_next (whenAdmitted_next ((run s).symm.trans h))
    obtain ⟨h2, h7⟩ := writeCycles_bounds _
    exact .inl (timed_finish _ h2 h7)
  | arr v => rw [arr_next h]; exact .inl (timed_finish _ (by decide) (by decide))
  | push run =>
    obtain ⟨c, tr, d, rfl⟩ := pushing_next (whenAdmitted_next ((run s).symm.trans h))
    exact .inl (timed_finish _ (by decide) (by decide))
  | pla => obtain ⟨c, tr, d, rfl⟩ := pla_next h; exact .inl (timed_finish _ (by decide) (by decide))
  | plp => obtain ⟨c, tr, d, rfl⟩ := plp_next h; exact .inl (timed_finish _ (by decide) (by decide))
  | jmpIndirect p => obtain ⟨a, c, tr, d, rfl⟩ := jmp_ind_next h; exact .inl (timed_finish _ (by decide) (by decide))
  | jsr a => obtain ⟨c, tr, d, rfl⟩ := jsr_next h; exact .inl (timed_finish _ (by decide) (by decide))
  | rts => obtain ⟨c, tr, d, rfl⟩ := rts_next h; exact .inl (timed_finish _ (by decide) (by decide))
  | rti => obtain ⟨c, tr, d, rfl⟩ := rti_next h; exact .inl (timed_finish _ (by decide) (by decide))
  | brk => obtain ⟨c, tr, d, rfl⟩ := brk_next h; exact .inl (timed_finish _ (by decide) (by decide))

/-- Settles O8: the count is that of the instruction fetched, which is well formed. -/
theorem cycleCountBounds : Obligations.CycleCountBounds := by
  intro s t hh h hok
  obtain ⟨i, rest, c, tr, d, hi, h⟩ := step_next hh h
  rcases exec_timed hi.wellFormed h with htimed | ⟨hnmos, htimed⟩
  · obtain ⟨heq, h2, h7⟩ := htimed hok
    exact ⟨heq, h2, h7.trans (by decide), fun _ => h7⟩
  · obtain ⟨heq, h2, h8⟩ := htimed hok
    exact ⟨heq, h2, h8, fun hn => absurd hnmos hn⟩

/-- Settles O9: the fetch leaves PC past the instruction's bytes, and an instruction that loads no target keeps it. -/
theorem pcAdvancesByLength : Obligations.PcAdvancesByLength := by
  intro s t i rest hh hi hpc h
  obtain ⟨j, rest', c, tr, d, hj, h⟩ := step_next hh h
  cases Except.ok.inj (hi.symm.trans hj)
  exact (exec_frame h).PC hpc

/-! The Step on the plain bus. -/

/-- Settles O6: the halted Step writes the report alone. -/
theorem haltedStepDoesNothing : Obligations.HaltedStepDoesNothing := fun _ h => step_of_halted h

theorem step_of_running {s : State} (h : s.halted = false) : step s = andThen (fetchInstr s.beginStep) exec :=
  if_neg (by simp [h])

section
variable {τ : Type} (row : RowProfile) (s : State)

/-- Admission looks at the parameters alone. -/
theorem whenAdmitted_congr {u : State} (h : u.params = s.params) (x : Host.Outcome τ Fault Refusal) :
    whenAdmitted row u x = whenAdmitted row s x := by
  unfold whenAdmitted whenNopAdmitted whenNmosAdmitted
  rw [h]

theorem andThen_whenAdmitted {α : Type} (x : Res α) (k : α → State → Host.Outcome τ Fault Refusal) :
    andThen (whenAdmitted row s x) k = whenAdmitted row s (andThen x k) := by
  cases row <;> simp only [whenAdmitted, whenNopAdmitted, whenNmosAdmitted] <;> cases s.params.undocProfile <;> rfl

theorem whenAdmitted_idem (x : Host.Outcome τ Fault Refusal) :
    whenAdmitted row s (whenAdmitted row s x) = whenAdmitted row s x := by
  cases row <;> simp only [whenAdmitted, whenNopAdmitted, whenNmosAdmitted] <;> cases s.params.undocProfile <;> rfl

end

/-- An instruction's meaning holds the admission of its class itself. -/
theorem whenAdmitted_exec (i : Instr) (s : State) : whenAdmitted i.rowProfile s (exec i s) = exec i s := by
  cases exec_meaning i with
  | silent run => rw [run, whenAdmitted_idem]
  | branch run => rw [run, whenAdmitted_idem]
  | read run => rw [run, whenAdmitted_idem]
  | write run => rw [run, whenAdmitted_idem]
  | modify run => rw [run, whenAdmitted_idem]
  | storeHigh run => rw [run, whenAdmitted_idem]
  | push run => rw [run, whenAdmitted_idem]
  | arr v => rw [exec_arr_admitted]; exact whenAdmitted_idem .undocNmos s _
  | _ => rfl

theorem whenAdmitted_exec_of_params (i : Instr) {s u : State} (h : u.params = s.params) :
    whenAdmitted i.rowProfile u (exec i s) = exec i s := by rw [whenAdmitted_congr _ s h, whenAdmitted_exec]

/-! The fetch on the plain bus, and with the functional trace. -/

/-- On the plain bus the operand bytes are fetched. -/
theorem fetchOperands_plain {s : State} (h : s.PlainBus) (sh : Shape) : ∃ c tr d, fetchOperands sh s =
    .next (Shape.instr sh (s.peek s.PC) (s.peek (s.PC + 1)),
      { s with PC := s.PC + BitVec.ofNat 16 sh.operandBytes }.quiet c tr d) := by
  have hanswers : ∃ i t, fetchOperands sh s = .next (i, t) := by
    cases sh with
    | none i => exact ⟨_, _, rfl⟩
    | byte f =>
      obtain ⟨c, tr, d, hfetch⟩ := fetch_plain h
      exact ⟨_, _, by rw [fetchOperands, hfetch, andThen_next]⟩
    | word f =>
      obtain ⟨c, tr, d, hlo⟩ := fetch_plain h
      obtain ⟨c', tr', d', hhi⟩ := fetch_plain (s := { s with PC := s.PC + 1 }.quiet c tr d) h
      exact ⟨_, _, by rw [fetchOperands, hlo, andThen_next, hhi, andThen_next]⟩
  obtain ⟨i, t, hfetch⟩ := hanswers
  obtain ⟨rfl, c, tr, d, rfl⟩ := fetchOperands_next hfetch
  exact ⟨c, tr, d, hfetch⟩

/-- The bytes of the instruction at PC, within the three that were read. -/
theorem State.Fetches.length {s : State} {i : Instr} {rest : List Byte} (h : s.Fetches i rest) :
    3 - rest.length = (decodeOpcode (s.peek s.PC)).operandBytes + 1 := by
  rw [h.eq.2]
  cases decodeOpcode (s.peek s.PC) <;> rfl

theorem add_ofNat_succ (a : Word) (n : Nat) : a + 1 + BitVec.ofNat 16 n = a + BitVec.ofNat 16 (n + 1) := by
  rw [BitVec.add_assoc, Nat.add_comm n 1, BitVec.ofNat_add]; rfl

theorem add_ofNat_one (a : Word) (n : Nat) : a + BitVec.ofNat 16 n + 1 = a + BitVec.ofNat 16 (n + 1) := by
  rw [BitVec.ofNat_add, ← BitVec.add_assoc]; rfl

/-- On the plain bus the fetch is stopped by the profile alone. -/
theorem fetchInstr_plain {s : State} {i : Instr} {rest : List Byte} (h : s.PlainBus) (hi : s.Fetches i rest) :
    ∃ c tr d, fetchInstr s = whenAdmitted i.rowProfile s
      (.next (i, { s with PC := s.PC + BitVec.ofNat 16 (3 - rest.length) }.quiet c tr d)) := by
  obtain ⟨c, tr, d, hop⟩ := fetch_plain h
  obtain ⟨c', tr', d', hoperands⟩ := fetchOperands_plain (s := { s with PC := s.PC + 1 }.quiet c tr d) h
    (decodeOpcode (s.peek s.PC))
  refine ⟨c', tr', d', ?_⟩
  rw [fetchInstr, hop, andThen_next, hoperands, hi.rowProfile, whenAdmitted_congr _ s rfl, hi.length, ← add_ofNat_succ,
    hi.eq.1, show s.PC + 2 = s.PC + 1 + 1 by bv_omega]
  rfl

/-- On the plain bus a Step of a running core is the instruction at PC, if the profile admits it. -/
theorem step_plain {s : State} {i : Instr} {rest : List Byte} (hh : s.halted = false) (h : s.PlainBus)
    (hi : s.Fetches i rest) : ∃ c tr d, step s = whenAdmitted i.rowProfile s
      (exec i ({ s with PC := s.PC + BitVec.ofNat 16 (3 - rest.length) }.quiet c tr d)) := by
  obtain ⟨c, tr, d, hfetch⟩ := fetchInstr_plain (s := s.beginStep) h hi
  refine ⟨c, tr, d, ?_⟩
  rw [step_of_running hh, hfetch, andThen_whenAdmitted, andThen_next, whenAdmitted_congr _ s rfl]
  rfl

/-- The state after the reads of the first `n` bytes at PC. -/
def State.fetched (s : State) (n : Nat) : State := { s with PC := s.PC + BitVec.ofNat 16 n }.made (s.fetchReads n)

theorem State.fetched_zero (s : State) : s.fetched 0 = s := by
  rw [State.fetched, show s.fetchReads 0 = [] from rfl, State.made_nil, BitVec.add_zero]

theorem State.fetchReads_succ (s : State) {n : Nat} (hn : n < 3) : s.fetchReads (n + 1) =
    s.fetchReads n ++ [.read (s.PC + BitVec.ofNat 16 n) (s.peek (s.PC + BitVec.ofNat 16 n))] := by
  interval_cases n
  · simp [State.fetchReads]
  · rfl
  · rfl

/-- The next byte at PC, with the functional trace. -/
theorem fetch_fetched {s : State} (h : s.Functional) {n : Nat} (hn : n < 3) :
    fetch (s.fetched n) = .next (s.peek (s.PC + BitVec.ofNat 16 n), s.fetched (n + 1)) := by
  have hmade := fetch_made (s := s.fetched n) ⟨h.1, h.2⟩
  rwa [show s.fetched (n + 1) = { s.fetched n with PC := (s.fetched n).PC + 1 }.made _ by
    rw [State.fetched, s.fetchReads_succ hn, ← State.made_made, ← add_ofNat_one]; rfl]

/-- With the functional trace the fetch reads each byte of the instruction once. -/
theorem fetchInstr_functional {s : State} {i : Instr} {rest : List Byte} (h : s.Functional) (hi : s.Fetches i rest) :
    fetchInstr s = whenAdmitted i.rowProfile s (.next (i, s.fetched (3 - rest.length))) := by
  have hop : fetch s = .next (s.peek s.PC, s.fetched 1) := by
    simpa [State.fetched_zero] using fetch_fetched h (n := 0) (by decide)
  rw [fetchInstr, hop, andThen_next, whenAdmitted_congr _ s rfl, hi.rowProfile, hi.length, hi.eq.1]
  cases decodeOpcode (s.peek s.PC) with
  | none j => rfl
  | byte f => rw [fetchOperands, fetch_fetched h (by decide), andThen_next]; rfl
  | word f =>
    rw [fetchOperands, fetch_fetched h (by decide), andThen_next, fetch_fetched h (by decide), andThen_next]; rfl

/-- Settles O5: the fetch is stopped by the profile alone, which stops the instruction as well. -/
theorem stepRunsDecodedInstruction : Obligations.StepRunsDecodedInstruction := by
  intro s i rest hh h hi
  constructor
  case left =>
    obtain ⟨c, tr, d, hstep⟩ := step_plain hh h hi
    exact ⟨c, tr, d, hstep.trans (whenAdmitted_exec_of_params i rfl)⟩
  case right =>
    intro htrace
    have hfetch := fetchInstr_functional (s := s.beginStep) ⟨h, htrace⟩ hi
    have hcount : 0 + (s.fetchReads (3 - rest.length)).length = 3 - rest.length := by simp [State.fetchReads]
    rw [step_of_running hh, hfetch, andThen_whenAdmitted, andThen_next]
    refine (whenAdmitted_exec_of_params i rfl).trans (congrArg (exec i) ?_)
    exact congrArg (fun c => State.quiet _ c (s.fetchReads (3 - rest.length)) s.draws) hcount

theorem whenAdmitted_undocNmos_refused {τ : Type} {s : State} (h : s.params.undocProfile ≠ .nmos)
    (x : Host.Outcome τ Fault Refusal) : whenAdmitted .undocNmos s x = .refused .undocNmosNotAdmitted := by
  simp only [whenAdmitted, whenNmosAdmitted]
  split
  · rfl
  · rfl
  · contradiction

/-- Settles O10: on the plain bus the profile alone can stop the fetch, and it does. -/
theorem profileRefusesOpcodes : Obligations.ProfileRefusesOpcodes := by
  intro s i rest hh h hi
  obtain ⟨c, tr, d, hstep⟩ := step_plain hh h hi
  rw [hstep]
  constructor
  case left =>
    intro hrow hprofile
    rw [hrow, whenAdmitted_undocNmos_refused hprofile]
  case right =>
    intro hrow hprofile
    rw [hrow, whenAdmitted, whenNopAdmitted, hprofile]

end Sys2Proof.Machine
end

section
/-! PROOF. The invalid opcodes' Step (spec 48_nop_halt R321), the addressing modes in closed form (30_encoding R101),
binary subtraction and decimal arithmetic (41_arithmetic R211 to R213). -/

namespace Sys2Proof.Machine

/-! Invalid opcodes. -/

theorem invalidOpcodes_getElem : ∀ k : Fin 2, invalidOpcodes[k] = if k = 0 then 0x9C else 0x9E := by decide

/-- An invalid opcode as an instruction writes its report, the counter and the draws alone. -/
theorem exec_invalid (k : Fin 2) (s : State) : ∃ t n, exec (.invalid k) s = .next t ∧
    t.report = { cycles := n, outcome := .invalidOpcode (s.PC - 1) (if k = 0 then 0x9C else 0x9E) } ∧
    s.Leaves t s.unchanged :=
  ⟨_, _, rfl, by rw [← invalidOpcodes_getElem], s.leaves_self⟩

theorem fetches_invalid {s : State} {op : Byte} (hop : op = 0x9C ∨ op = 0x9E) (hpc : s.peek s.PC = op) :
    ∃ k : Fin 2, (if k = 0 then 0x9C else 0x9E) = op ∧ s.Fetches (.invalid k) [s.peek (s.PC + 1), s.peek (s.PC + 2)] := by
  unfold State.Fetches
  rw [hpc]
  rcases hop with rfl | rfl
  · exact ⟨0, rfl, rfl⟩
  · exact ⟨1, rfl, rfl⟩

/-- Settles O46: the Step is the instruction with PC past the opcode. -/
theorem invalidOpcodeResult : Obligations.InvalidOpcodeResult := by
  refine ⟨fun s op hop hh h hpc => ?_, exec_invalid⟩
  obtain ⟨k, hk, hi⟩ := fetches_invalid hop hpc
  obtain ⟨c, tr, d, hstep⟩ := step_plain hh h hi
  obtain ⟨t, n, hx, hreport, hleaves⟩ := exec_invalid k ({ s with PC := s.PC + 1 }.quiet c tr d)
  refine ⟨t, n, hstep.trans hx, ?_, hleaves⟩
  rw [hreport, hk]
  exact congrArg (fun a => StepReport.mk n (.invalidOpcode a op)) (BitVec.add_sub_cancel s.PC 1)

/-- Settles O25: each mode answers the closed form after reads alone. -/
theorem effectiveAddressClosedForm : Obligations.EffectiveAddressClosedForm := by
  intro m s h
  obtain ⟨c, tr, d, hea⟩ := effectiveAddress_plain h m
  exact ⟨_, _, hea, addressed_addr m s, addressed_base m s, addressed_cross m s, s.leaves_quiet c tr d⟩

/-! Binary subtraction. -/

/-- Settles O22: it is the addition of the complement, whose value is 255 - m, and -m - 1 as a signed byte. -/
theorem binarySubtraction : Obligations.BinarySubtraction := by
  intro a m cin
  have ha := a.isLt
  have hm := m.isLt
  have hnot : (~~~m).toNat = 255 - m.toNat := BitVec.toNat_not
  refine ⟨rfl, ?r, ?C, ?V⟩
  case r =>
    apply BitVec.eq_of_toNat_eq
    rw [sbcBin, adcBin_r_toNat, hnot]
    cases cin <;> simp [BitVec.toNat_sub] <;> omega
  case C =>
    change decide (a.toNat + (~~~m).toNat + cin.toNat > 0xFF) = _
    rw [hnot, decide_eq_decide]
    cases cin <;> simp <;> omega
  case V =>
    have hint : (~~~m).toInt = -m.toInt - 1 := by
      rw [BitVec.toInt_eq_toNat_cond, BitVec.toInt_eq_toNat_cond, hnot]
      split <;> split <;> omega
    rw [sbcBin, adcBin_V_eq_signedOverflow, decide_eq_decide, hint]
    cases cin <;> simp <;> omega

/-! Decimal digits. -/

theorem toNat_and_low : ∀ x : Byte, (x &&& (0x0F : Byte)).toNat = x.toNat % 16 := by decide

theorem toNat_shiftLeft_four : ∀ y : Byte, (y <<< 4).toNat = (y.toNat % 16) <<< 4 := by decide

theorem shiftLeft_four_and_high : ∀ y : Byte, (y <<< 4) &&& (0xF0 : Byte) = y <<< 4 := by decide

/-- A byte put together from the low nibbles of two. -/
theorem toNat_join (x y : Byte) : ((x &&& (0x0F : Byte)) ||| (y <<< 4)).toNat = y.toNat % 16 * 16 + x.toNat % 16 := by
  rw [BitVec.toNat_or, toNat_and_low, toNat_shiftLeft_four, Nat.or_comm,
    ← Nat.shiftLeft_add_eq_or_of_lt (Nat.mod_lt _ (by decide)), Nat.shiftLeft_eq]

/-- R212's formula, its steps named. -/
theorem bcdAdd_formula {a m : Byte} {cin : Bool} {lo lo' hi hi' : Nat}
    (hlo : lo = a.toNat % 16 + m.toNat % 16 + cin.toNat) (hlo' : lo' = if 9 < lo then lo + 6 else lo)
    (hhi : hi = a.toNat / 16 + m.toNat / 16 + if 15 < lo' then 1 else 0) (hhi' : hi' = if 9 < hi then hi + 6 else hi) :
    (bcdAdd a m cin).1.toNat = hi' % 16 * 16 + lo' % 16 ∧ (bcdAdd a m cin).2 = decide (15 < hi') := by
  have hadd : bcdAdd a m cin =
      ((BitVec.ofNat 8 lo' &&& (0x0F : Byte)) ||| ((BitVec.ofNat 8 hi' <<< 4) &&& (0xF0 : Byte)), decide (15 < hi')) := by
    subst hlo hlo' hhi hhi'; rfl
  rw [hadd]
  refine ⟨?_, rfl⟩
  rw [shiftLeft_four_and_high, toNat_join, BitVec.toNat_ofNat, BitVec.toNat_ofNat]
  omega

/-- A sum of two digits and a carry, adjusted: the carry out of 4 bits is that of ten. -/
theorem adjusted_sum {d d' : Nat} (hd : d ≤ 19) (h : d' = if 9 < d then d + 6 else d) :
    d' % 16 = d % 10 ∧ (15 < d' ↔ 9 < d) := by
  split at h <;> omega

/-- Settles O23: the formula, and on digits its adjustments by 6 are the carries of tens. -/
theorem decimalAddition : Obligations.DecimalAddition := by
  refine ⟨fun _ _ _ _ _ _ _ => bcdAdd_formula, ?_⟩
  intro a m cin ⟨ha, ha'⟩ ⟨hm, hm'⟩
  have hcin := cin.toNat_le
  obtain ⟨lo, hlo⟩ : ∃ lo, lo = a.toNat % 16 + m.toNat % 16 + cin.toNat := ⟨_, rfl⟩
  obtain ⟨hlow, hcarry⟩ := adjusted_sum (d := lo) (by omega) rfl
  obtain ⟨hi, hhi⟩ : ∃ hi, hi = a.toNat / 16 + m.toNat / 16 + if 9 < lo then 1 else 0 := ⟨_, rfl⟩
  obtain ⟨hhigh, hcarry'⟩ := adjusted_sum (d := hi) (by split at hhi <;> omega) rfl
  obtain ⟨hr, hC⟩ := bcdAdd_formula (hi := hi) hlo rfl (by simp only [hcarry, hhi]) rfl
  rw [hlow, hhigh] at hr
  replace hC : (bcdAdd a m cin).2 = decide (9 < hi) := hC.trans (decide_eq_decide.2 hcarry')
  rw [BcdValid, bcdValue, bcdValue, bcdValue, hr, hC]
  by_cases h9 : 9 < hi
  · simp only [h9, decide_true, Bool.toNat_true]
    split at hhi <;> omega
  · simp only [h9, decide_false, Bool.toNat_false]
    split at hhi <;> omega

/-- Bit 4 of the two's-complement bits tells the sign of a difference of nibbles. -/
theorem getLsbD_four_ofInt {x : Int} (hlow : -17 < x) (hhigh : x < 16) :
    (BitVec.ofInt 8 x).getLsbD 4 = decide (x < 0) := by
  interval_cases x <;> rfl

/-- R213's formula, its steps named. -/
theorem bcdSub_formula {a m : Byte} {cin : Bool} {lo lo' hi hi' : Int}
    (hlo : lo = ((a.toNat % 16 : Nat) : Int) - (m.toNat % 16 : Nat) - (if cin then 0 else 1))
    (hlo' : lo' = if lo < 0 then lo - 6 else lo)
    (hhi : hi = ((a.toNat / 16 : Nat) : Int) - (m.toNat / 16 : Nat) - (if lo < 0 then 1 else 0))
    (hhi' : hi' = if hi < 0 then hi - 6 else hi) :
    ((bcdSub a m cin).1.toNat : Int) = hi' % 16 * 16 + lo' % 16 ∧ (bcdSub a m cin).2 = decide (hi' % 256 < 15) := by
  have ha := a.isLt
  have hm := m.isLt
  have hl : (BitVec.ofInt 8 lo).getLsbD 4 = decide (lo < 0) := by
    refine getLsbD_four_ofInt ?_ ?_ <;> split at hlo <;> omega
  have hh : (BitVec.ofInt 8 hi).getLsbD 4 = decide (hi < 0) := by
    refine getLsbD_four_ofInt ?_ ?_ <;> split at hhi <;> omega
  have hsub : bcdSub a m cin =
      ((BitVec.ofInt 8 lo' &&& (0x0F : Byte)) ||| (BitVec.ofInt 8 hi' <<< 4),
        decide ((BitVec.ofInt 8 hi').toNat < 15)) := by
    have hlo' : lo' = if (BitVec.ofInt 8 lo).getLsbD 4 then lo - 6 else lo := by
      rw [hlo', hl]; simp only [decide_eq_true_eq]
    have hhi' : hi' = if (BitVec.ofInt 8 hi).getLsbD 4 then hi - 6 else hi := by
      rw [hhi', hh]; simp only [decide_eq_true_eq]
    have hhi : hi = ((a.toNat / 16 : Nat) : Int) - (m.toNat / 16 : Nat) -
        (if (BitVec.ofInt 8 lo).getLsbD 4 then 1 else 0) := by
      rw [hhi, hl]; simp only [decide_eq_true_eq]
    rw [hlo', hhi', hhi, hlo]
    rfl
  rw [hsub]
  refine ⟨?_, ?_⟩
  · rw [toNat_join, BitVec.toNat_ofInt, BitVec.toNat_ofInt]
    omega
  · rw [decide_eq_decide, BitVec.toNat_ofInt]
    omega

/-- A difference of two digits and a borrow, adjusted: the borrow from 4 bits is that of ten. -/
theorem adjusted_difference {d d' : Int} (hlow : -11 < d) (hhigh : d < 10) (h : d' = if d < 0 then d - 6 else d) :
    d' % 16 = d % 10 ∧ (d' % 256 < 15 ↔ 0 ≤ d) := by
  split at h <;> omega

/-- Settles O24: the formula, and on digits its adjustments by 6 are the borrows of tens. -/
theorem decimalSubtraction : Obligations.DecimalSubtraction := by
  refine ⟨fun _ _ _ _ _ _ _ => bcdSub_formula, ?_⟩
  intro a m cin ⟨ha, ha'⟩ ⟨hm, hm'⟩
  obtain ⟨lo, hlo⟩ : ∃ lo, lo = ((a.toNat % 16 : Nat) : Int) - (m.toNat % 16 : Nat) - (if cin then 0 else 1) := ⟨_, rfl⟩
  obtain ⟨hlow, -⟩ := adjusted_difference (d := lo) (by split at hlo <;> omega) (by split at hlo <;> omega) rfl
  obtain ⟨hi, hhi⟩ : ∃ hi, hi = ((a.toNat / 16 : Nat) : Int) - (m.toNat / 16 : Nat) - (if lo < 0 then 1 else 0) :=
    ⟨_, rfl⟩
  obtain ⟨hhigh, hborrow⟩ := adjusted_difference (d := hi) (by split at hhi <;> omega) (by split at hhi <;> omega) rfl
  obtain ⟨hr, hC⟩ := bcdSub_formula hlo rfl hhi rfl
  rw [hlow, hhigh] at hr
  replace hC : (bcdSub a m cin).2 = decide (0 ≤ hi) := hC.trans (decide_eq_decide.2 hborrow)
  have hcin : lo = ((a.toNat % 16 : Nat) : Int) - (m.toNat % 16 : Nat) - ((!cin).toNat : Nat) := by
    rw [hlo]; cases cin <;> rfl
  rw [BcdValid, bcdValue, bcdValue, bcdValue, hC]
  by_cases h0 : 0 ≤ hi
  · simp only [h0, decide_true, Bool.not_true, Bool.toNat_false]
    split at hhi <;> omega
  · simp only [h0, decide_false, Bool.not_false, Bool.toNat_true]
    split at hhi <;> omega

end Sys2Proof.Machine
end

section
/-! PROOF. Interrupt entries and BRK, the return from them, and the round trips through the stack (spec 60_exceptions R411
to R420, 46_control R281 to R284, 45_stack). -/

namespace Sys2Proof.Machine

/-! What an entry leaves. -/

/-- An entry leaves its three bytes, I, PC from the vector and S three less. -/
theorem State.leaves_entered (s : State) (status : Byte) (vector : Word) (c : Nat) (tr : List BusAccess) (d : Nat) :
    s.Leaves ((s.entered status vector).quiet c tr d) { s.unchanged with
      S := s.S - 3
      P := statusWith s.P s.flagN s.flagV s.flagD true s.flagZ s.flagC
      PC := wordOf ((s.entered status vector).peek (vector + 1)) ((s.entered status vector).peek vector)
      stored := [(stackAddress (s.S - 2), status), (stackAddress (s.S - 1), lowByte s.PC),
        (stackAddress s.S, highByte s.PC)] } := by
  have htwo : s.S - 1 - 1 = s.S - 2 := BitVec.sub_sub s.S 1 1
  refine ⟨rfl, rfl, rfl, ?S, rfl, statusWith_setI s.P true, fun b => ?stored, rfl, rfl, rfl⟩
  case S => exact (congrArg (· - 1) htwo).trans (BitVec.sub_sub s.S 2 1)
  case stored =>
    rw [← htwo]
    exact peek_store_three ..

theorem takeInterrupt_plain {s : State} (h : s.PlainBus) (vector : Word) : ∃ c tr d, takeInterrupt vector s =
    .next ((s.entered ((s.P ||| 0x20) &&& 0xEF) vector).quiet c tr d) := by
  obtain ⟨c, tr, d, hentry⟩ := enterInterrupt_plain h ((s.P ||| 0x20) &&& 0xEF) vector
  exact ⟨c, tr, d, congrArg (andThen · fun _ s1 => .next s1) hentry⟩

/-- Settles O17: an entry through $FFFA. -/
theorem nmiEntry : Obligations.NmiEntry := by
  intro s h
  obtain ⟨c, tr, d, hentry⟩ := takeInterrupt_plain h 0xFFFA
  exact ⟨_, hentry, s.leaves_entered _ 0xFFFA c tr d⟩

/-- Settles O18: with I clear, an entry through $FFFE. -/
theorem irqEntry : Obligations.IrqEntry := by
  refine ⟨fun s => hostIrq_ignored, fun s hI h => ?_⟩
  obtain ⟨c, tr, d, hentry⟩ := takeInterrupt_plain h 0xFFFE
  exact ⟨_, (hostIrq_taken hI).trans hentry, s.leaves_entered _ 0xFFFE c tr d⟩

/-- Settles O41: a fetch, which moves PC, then an entry through $FFFE. -/
theorem breakResult : Obligations.BreakResult := by
  refine ⟨rfl, fun s h => ?_⟩
  obtain ⟨c, tr, d, hfetch⟩ := fetch_plain h
  obtain ⟨c', tr', d', hentry⟩ := enterInterrupt_plain (s := { s with PC := s.PC + 1 }.quiet c tr d) h
    (s.P ||| 0x30) 0xFFFE
  have hx := exec_brk s
  rw [hfetch, andThen_next] at hx
  exact ⟨_, hx.trans (congrArg (finishAfter · 7) hentry), rfl, rfl,
    State.leaves_entered { s with PC := s.PC + 1 } (s.P ||| 0x30) 0xFFFE c' tr' d'⟩

/-! Back from an entry. -/

theorem stackAddress_inj {p q : Byte} (h : stackAddress p = stackAddress q) : p = q := by
  simpa [stackAddress, lowByte_wordOf] using congrArg lowByte h

/-- The three bytes of an entry stand one above the other. -/
theorem State.entered_stack (s : State) (status : Byte) (vector : Word) :
    (s.entered status vector).peek (stackAddress (s.S - 2)) = status ∧
    (s.entered status vector).peek (stackAddress (s.S - 1)) = lowByte s.PC ∧
    (s.entered status vector).peek (stackAddress s.S) = highByte s.PC := by
  have hpeek (b : Word) : (s.entered status vector).peek b = s.peekAfter
      [(stackAddress (s.S - 2), status), (stackAddress (s.S - 1), lowByte s.PC), (stackAddress s.S, highByte s.PC)] b := by
    obtain ⟨-, -, -, -, -, -, hstored, -⟩ := s.leaves_entered status vector s.cycles s.trace s.draws
    exact hstored b
  have h12 : stackAddress (s.S - 1) ≠ stackAddress (s.S - 2) := fun h => absurd (stackAddress_inj h) (by bv_omega)
  have h02 : stackAddress s.S ≠ stackAddress (s.S - 2) := fun h => absurd (stackAddress_inj h) (by bv_omega)
  have h01 : stackAddress s.S ≠ stackAddress (s.S - 1) := fun h => absurd (stackAddress_inj h) (by bv_omega)
  exact ⟨(hpeek _).trans (if_pos rfl), (hpeek _).trans ((if_neg h12).trans (if_pos rfl)),
    (hpeek _).trans ((if_neg h02).trans ((if_neg h01).trans (if_pos rfl)))⟩

/-- RTI with an entry's S and stack bytes resumes where the entry was made, with the status pushed. -/
theorem rti_after_entered {s u v : State} {status : Byte} {vector : Word} (hS : u.S = (s.entered status vector).S)
    (hstack : ∀ k : Byte, k ∈ ([0, 1, 2] : List Byte) →
      u.peek (stackAddress (s.S - k)) = (s.entered status vector).peek (stackAddress (s.S - k)))
    (h : exec .rti u = .next v) : v.PC = s.PC ∧ v.P = statusPulled status ∧ v.S = s.S := by
  obtain ⟨c, tr, d, rfl⟩ := rti_next h
  obtain ⟨h2, h1, h0⟩ := s.entered_stack status vector
  change u.S = s.S - 1 - 1 - 1 at hS
  have hs2 : u.S + 1 = s.S - 2 := by bv_omega
  have hs1 : u.S + 1 + 1 = s.S - 1 := by bv_omega
  have hs0 : u.S + 1 + 1 + 1 = s.S := by bv_omega
  have hzero : s.S - 0 = s.S := BitVec.sub_zero _
  refine ⟨?PC, ?P, ?S⟩
  case PC =>
    change wordOf (u.peek (stackAddress (u.S + 1 + 1 + 1))) (u.peek (stackAddress (u.S + 1 + 1))) = s.PC
    rw [hs0, hs1, hstack 1 (by decide), h1, ← hzero, hstack 0 (by decide), hzero, h0, wordOf_highByte_lowByte]
  case P =>
    change statusPulled (u.peek (stackAddress (u.S + 1))) = statusPulled status
    rw [hs2, hstack 2 (by decide), h2]
  case S => exact hs0

/-- Settles O19: NMI, IRQ and BRK each end in an entry, and RTI masks U and B of the status they pushed. -/
theorem rtiResumesAfterEntry : Obligations.RtiResumesAfterEntry := by
  intro s t u v hlive hS hstack h
  have hmask := status_live_mask hlive
  have hinterrupt {vector : Word} (ht : takeInterrupt vector s = .next t) : v.PC = s.PC ∧ v.P = s.P ∧ v.S = s.S := by
    obtain ⟨c, tr, d, rfl⟩ := takeInterrupt_next ht
    obtain ⟨hPC, hP, hS⟩ := rti_after_entered (vector := vector) hS hstack h
    exact ⟨hPC, hP.trans ((statusPulled_statusPushedInterrupt s.P).trans hmask), hS⟩
  refine ⟨hinterrupt, fun hI ht => hinterrupt ((hostIrq_taken hI).symm.trans ht), fun ht => ?_⟩
  obtain ⟨c, tr, d, rfl⟩ := brk_next ht
  obtain ⟨hPC, hP, hS⟩ := rti_after_entered (s := { s with PC := s.PC + 1 }) (vector := 0xFFFE) hS hstack h
  exact ⟨hPC, hP.trans ((statusPulled_statusPushed s.P).trans hmask), hS⟩

/-! Round trips. -/

/-- What a push stored is what the next pull reads. -/
theorem State.peek_pushed (s : State) (v : Byte) :
    ({ s with S := s.S - 1 }.store (stackAddress s.S) v).peek (stackAddress (s.S - 1 + 1)) = v := by
  rw [BitVec.sub_add_cancel, State.peek_store, if_pos rfl]

/-- Settles O20: a pull reads what the push stored, and RTS the word of JSR's two bytes. -/
theorem stackRoundTrips : Obligations.StackRoundTrips := by
  refine ⟨fun s t u ht hu => ?php, fun s t u ht hu => ?pha, fun a s t u v ht hS h0 h1 hv => ?jsr⟩
  case php =>
    obtain ⟨c, tr, d, rfl⟩ := pushing_next ((exec_php s).symm.trans ht)
    obtain ⟨c', tr', d', rfl⟩ := plp_next hu
    exact ⟨rfl, (State.peek_store ..).trans (if_pos rfl),
      (congrArg statusPulled (s.peek_pushed _)).trans (statusPulled_statusPushed s.P), BitVec.sub_add_cancel s.S 1⟩
  case pha =>
    obtain ⟨c, tr, d, rfl⟩ := pushing_next ((exec_pha s).symm.trans ht)
    obtain ⟨c', tr', d', rfl⟩ := pla_next hu
    have hA := s.peek_pushed s.A
    exact ⟨hA, BitVec.sub_add_cancel s.S 1, (setNZ_status s _).trans (congrArg s.statusNZ hA)⟩
  case jsr =>
    obtain ⟨c, tr, d, rfl⟩ := jsr_next ht
    obtain ⟨c', tr', d', rfl⟩ := rts_next hv
    have hne : stackAddress s.S ≠ stackAddress (s.S - 1) := fun h => absurd (stackAddress_inj h) (by bv_omega)
    replace h0 : u.peek (stackAddress s.S) = highByte (s.PC - 1) :=
      h0.trans ((peek_store_two ..).trans ((if_neg hne).trans (if_pos rfl)))
    replace h1 : u.peek (stackAddress (s.S - 1)) = lowByte (s.PC - 1) :=
      h1.trans ((peek_store_two ..).trans (if_pos rfl))
    change u.S = s.S - 1 - 1 at hS
    have hs1 : u.S + 1 = s.S - 1 := by bv_omega
    have hs0 : u.S + 1 + 1 = s.S := by bv_omega
    refine ⟨?_, hs0⟩
    change wordOf (u.peek (stackAddress (u.S + 1 + 1))) (u.peek (stackAddress (u.S + 1))) + 1 = s.PC
    rw [hs0, hs1, h0, h1, wordOf_highByte_lowByte, BitVec.sub_add_cancel]

end Sys2Proof.Machine
end

section
/-! PROOF. The bus under everything that the core does: the first access that aborts ends it (spec 60_exceptions R403,
R405), nothing else stops a documented instruction (R404, R440), and the accesses are those of the rules (20_memory R58, R85). -/

namespace Sys2Proof.Machine

/-! Agreement up to the first abort. -/

section
variable {τ : Type} {C : Carrier τ} {s : State} {l : List BusAbort} {x y x' y' : Host.Outcome τ Fault Refusal}

/-- A choice that does not look at the regions. -/
theorem AgreesTo.ite {p : Bool} (hx : AgreesTo C s l x x') (hy : AgreesTo C s l y y') :
    AgreesTo C s l (if p then x else y) (if p then x' else y') := by
  cases p with
  | true => exact hx
  | false => exact hy

theorem whenAdmitted_agrees (row : RowProfile) {f : State → Host.Outcome τ Fault Refusal} (hf : Agrees C f) :
    Agrees C fun s => whenAdmitted row s (f s) := by
  cases row with
  | documented => exact hf
  | hlt => exact hf
  | invalid => exact hf
  | undocNop => exact whenNopAdmitted_agrees hf
  | undocNmos => exact whenNmosAdmitted_agrees hf

end

theorem branch_agrees {cond : State → Bool} (hcond : ∀ (s : State) l, cond { s with aborts := l } = cond s) (d : Byte) :
    Agrees .end fun s => branch (cond s) d s := fun s l h => by
  simp only [hcond]
  exact .ite (p := cond s) (.silent rfl h rfl) (.silent rfl h rfl)

theorem readIndirect_agrees (p : Word) : Agrees (.res Word) (readIndirect p) :=
  (memRead_agrees _).andThen fun _ => (memRead_agrees _).andThen fun _ =>
    .next _ _ (fun _ => rfl) (fun _ _ => rfl) fun _ _ => rfl

theorem storeHighByte_agrees (m : AddrMode) (crossing : Refusal) {i : Instr} {u : State → State} (hu : Work i u) :
    Agrees .end (storeHighByte m crossing u) :=
  (effectiveAddress_agrees m).andThen fun ea s l h => .ite (p := ea.cross) (.refused crossing)
    (((finishAfter_agrees (memWrite_agrees ea.addr (s.A &&& s.X &&& (highByte ea.base + 1))) _).after u
      (fun s => (hu.touches s).trace) hu.natural) s l h)

theorem pushing_agrees {v : State → Byte} (hv : ∀ (s : State) l, v { s with aborts := l } = v s) (n : Nat) :
    Agrees .end fun s => finishAfter (push (v s) s) n := fun s l h => by
  simp only [hv]
  exact finishAfter_agrees (push_agrees (v s)) n s l h

/-- Every instruction, by its meaning. -/
theorem exec_agrees (i : Instr) : Agrees .end (exec i) := by
  cases exec_meaning i with
  | @silent _ u run work =>
    rw [funext run]
    exact whenAdmitted_agrees _ (.stop u (fun s => (work.touches s).trace) work.natural)
  | branch run natural => rw [funext run]; exact whenAdmitted_agrees _ (branch_agrees natural _)
  | read run work =>
    rw [funext run]
    exact whenAdmitted_agrees _ (readClass_agrees _ (fun v s => ((work v).touches s).trace) fun v => (work v).natural)
  | write run natural => rw [funext run]; exact whenAdmitted_agrees _ (writeClass_agrees _ natural)
  | modify run reads_P work =>
    rw [funext run]
    exact whenAdmitted_agrees _ (rmwMemory_agrees _ (fun v s l => reads_P v _ s rfl)
      (fun v r s => ((work v r).touches s).trace) fun v r => (work v r).natural)
  | storeHigh run work => rw [funext run]; exact whenAdmitted_agrees _ (storeHighByte_agrees _ _ work)
  | arr v =>
    rw [funext (exec_arr_admitted v)]
    exact whenNmosAdmitted_agrees fun s l h => .ite (p := s.flagD) (.refused _) (.silent rfl h rfl)
  | push run natural => rw [funext run]; exact whenAdmitted_agrees _ (pushing_agrees natural 3)
  | pla =>
    exact pull_agrees.andThen fun v => .stop (fun s => ({ s with A := v }.setNZ v).finish 4) (fun _ => rfl) fun _ _ => rfl
  | plp => exact finishAfter_agrees pullStatus_agrees 4
  | jmpIndirect p =>
    exact (readIndirect_agrees p).andThen fun a =>
      .stop (fun s => { s with PC := a }.finish 5) (fun _ => rfl) fun _ _ => rfl
  | jsr a =>
    intro s l h
    rw [exec_jsr, exec_jsr]
    exact (pushWord_agrees (s.PC - 1) s l h).andThen fun _ =>
      .stop (fun s => { s with PC := a }.finish 6) (fun _ => rfl) fun _ _ => rfl
  | rts =>
    exact pullWord_agrees.andThen fun w => .stop (fun s => { s with PC := w + 1 }.finish 6) (fun _ => rfl) fun _ _ => rfl
  | rti => exact finishAfter_agrees returnFromInterrupt_agrees 6
  | brk =>
    exact fetch_agrees.andThen fun _ s l h => finishAfter_agrees (enterInterrupt_agrees (s.P ||| 0x30) 0xFFFE) 7 s l h

theorem fetchOperands_agrees (sh : Shape) : Agrees (.res Instr) (fetchOperands sh) := by
  cases sh with
  | none i => exact .next (fun _ => i) _ (fun _ => rfl) (fun _ _ => rfl) fun _ _ => rfl
  | byte f =>
    exact fetch_agrees.andThen fun b => .next (fun _ => f b) _ (fun _ => rfl) (fun _ _ => rfl) fun _ _ => rfl
  | word f =>
    exact fetch_agrees.andThen fun lo => fetch_agrees.andThen fun hi =>
      .next (fun _ => f (wordOf hi lo)) _ (fun _ => rfl) (fun _ _ => rfl) fun _ _ => rfl

theorem fetchInstr_agrees : Agrees (.res Instr) fetchInstr :=
  fetch_agrees.andThen fun op => whenAdmitted_agrees _ (fetchOperands_agrees (decodeOpcode op))

theorem takeInterrupt_agrees (vector : Word) : Agrees .end (takeInterrupt vector) := fun s l h =>
  (enterInterrupt_agrees (statusPushedInterrupt s.P) vector s l h).andThen fun _ =>
    .stop (fun s => s) (fun _ => rfl) fun _ _ => rfl

theorem hostIrq_agrees : Agrees .end hostIrq := fun s l h =>
  .ite (p := s.flagI) (.silent rfl h rfl) (takeInterrupt_agrees 0xFFFE s l h)

/-- An operation on `s` that is another one on `u`, a state with the same regions. -/
theorem EndsAtFirstAbort.of_eq {f g : State → Host.Outcome State Fault Refusal} {s u : State}
    {made : State → List BusAccess} (h : EndsAtFirstAbort g u made) (hs : f s = g u)
    (hplain : f s.withoutAborts = g u.withoutAborts) (haborts : u.aborts = s.aborts) : EndsAtFirstAbort f s made := by
  unfold EndsAtFirstAbort at h ⊢
  rwa [hs, hplain, State.firstAbort_eq, ← haborts, ← State.firstAbort_eq]

/-- Settles O11: each is built of bus accesses that agree up to the first abort. A Step and Reset begin the record anew. -/
theorem firstAbortEndsTheStep : Obligations.FirstAbortEndsTheStep := by
  intro s
  refine ⟨fun hh => ?step, fun i => (exec_agrees i).endsAtFirstAbort s, (takeInterrupt_agrees 0xFFFA).endsAtFirstAbort s,
    hostIrq_agrees.endsAtFirstAbort s, ?reset⟩
  case step =>
    exact ((fetchInstr_agrees.andThen exec_agrees).endsAtFirstAbort s.beginStep).of_eq (step_of_running hh)
      (step_of_running (s := s.withoutAborts) hh) rfl
  case reset =>
    have hreads := (busRead_agrees 0xFFFC).andThen fun lo => (busRead_agrees 0xFFFD).andThen fun hi =>
      .stop (fun s => { s with PC := wordOf hi lo, halted := false, cycles := 0 }) (fun _ => rfl) fun _ _ => rfl
    exact (hreads.endsAtFirstAbort { s with S := 0xFF, A := 0x00, X := 0x00, Y := 0x00, P := 0x00, trace := [] }).of_eq
      rfl rfl rfl

/-! What stops an instruction. -/

/-- On the plain bus nothing faults. -/
theorem exec_ne_fault {i : Instr} {s : State} (h : s.PlainBus) (e : Fault) : exec i s ≠ .fault e := by
  intro hx
  have hagree := exec_agrees i s [] h
  rw [hx] at hagree
  exact hagree

theorem exec_answers {i : Instr} {s : State} (h : s.PlainBus) (hr : NotRefused (exec i s)) : ∃ t, exec i s = .next t := by
  cases hx : exec i s with
  | next t => exact ⟨t, rfl⟩
  | fault e => exact absurd hx (exec_ne_fault h e)
  | refused r => exact absurd hx (hr r)

theorem branch_notRefused {cond : Bool} {d : Byte} {s : State} : NotRefused (branch cond d s) := by
  cases cond with
  | true => exact .next _
  | false => exact .next _

section
variable {row : RowProfile} {s : State} {x : Host.Outcome State Fault Refusal}

theorem whenAdmitted_notRefused (hnop : row ≠ .undocNop) (hnmos : row ≠ .undocNmos) (hx : NotRefused x) :
    NotRefused (whenAdmitted row s x) := by
  cases row with
  | undocNop => contradiction
  | undocNmos => contradiction
  | _ => exact hx

end

/-- A documented instruction, HLT or an invalid opcode is admitted by every profile, and made of operations that do not
refuse. -/
theorem exec_notRefused {i : Instr} {s : State} (hnop : i.rowProfile ≠ .undocNop) (hnmos : i.rowProfile ≠ .undocNmos) :
    NotRefused (exec i s) := by
  cases exec_meaning i with
  | silent run => rw [run]; exact whenAdmitted_notRefused hnop hnmos (.next _)
  | branch run => rw [run]; exact whenAdmitted_notRefused hnop hnmos branch_notRefused
  | read run => rw [run]; exact whenAdmitted_notRefused hnop hnmos readClass_notRefused
  | write run => rw [run]; exact whenAdmitted_notRefused hnop hnmos writeClass_notRefused
  | modify run => rw [run]; exact whenAdmitted_notRefused hnop hnmos rmwMemory_notRefused
  | storeHigh run _ _ undocumented => exact absurd undocumented hnmos
  | arr v => exact absurd rfl hnmos
  | push run => rw [run]; exact whenAdmitted_notRefused hnop hnmos (finishAfter_notRefused push_notRefused)
  | pla => rw [exec_pla]; exact .andThen pull_notRefused fun _ _ => .next _
  | plp => exact finishAfter_notRefused pullStatus_notRefused
  | jmpIndirect p => rw [exec_jmp_ind]; exact .andThen readIndirect_notRefused fun _ _ => .next _
  | jsr a => rw [exec_jsr]; exact .andThen pushWord_notRefused fun _ _ => .next _
  | rts => rw [exec_rts]; exact .andThen pullWord_notRefused fun _ _ => .next _
  | rti => exact finishAfter_notRefused returnFromInterrupt_notRefused
  | brk =>
    rw [exec_brk]
    exact .andThen fetch_notRefused fun _ _ => finishAfter_notRefused enterInterrupt_notRefused

/-- Settles O60: it is never refused, and faults on no plain bus. -/
theorem onlyTheBusStopsDocumented : Obligations.OnlyTheBusStopsDocumented := fun _ _ hnop hnmos =>
  ⟨fun _ => exec_notRefused hnop hnmos, fun h => exec_answers h (exec_notRefused hnop hnmos)⟩

end Sys2Proof.Machine
end

section
/-! PROOF. The bus accesses of each instruction and interrupt entry under the functional bus trace (spec 20_memory R58,
R85). -/

namespace Sys2Proof.Machine

/-- What is not refused is what its class admits. -/
theorem whenAdmitted_of_notRefused {row : RowProfile} {s : State} {x : Host.Outcome State Fault Refusal}
    (h : NotRefused (whenAdmitted row s x)) : whenAdmitted row s x = x := by
  cases row with
  | undocNop =>
    refine whenNopAdmitted_admits (fun hp => h .undocNopNotAdmitted ?_) x
    rw [whenAdmitted, whenNopAdmitted, hp]
  | undocNmos =>
    refine whenNmosAdmitted_admits ?_ x
    by_contra hp
    exact h _ (whenAdmitted_undocNmos_refused hp x)
  | _ => rfl

/-- TAS and SHA, when indexing crosses no page, read their pointer and write once. -/
theorem storeHighByte_made {i : Instr} {s : State} (h : s.Functional) (m : AddrMode) (crossing : Refusal)
    {u : State → State} (hu : Work i u) (hr : NotRefused (storeHighByte m crossing u s)) :
    ∃ t, storeHighByte m crossing u s = .next t ∧ t.trace =
      s.trace ++ AddrMode.writeAccesses m s (s.A &&& s.X &&& (highByte (AddrMode.baseAddress m s) + 1)) := by
  have hea := effectiveAddress_made h m
  cases hcross : (addressed m s).cross with
  | true =>
    refine absurd ?_ (hr crossing)
    rw [storeHighByte, hea, andThen_next, if_pos hcross]
  | false =>
    have hwork := hu.touches (s.made (AddrMode.pointerReads m s))
    have hwrite := memWrite_made (s := u (s.made (AddrMode.pointerReads m s)))
      ⟨hwork.aborts.trans h.plain, (congrArg (·.busTrace) hwork.params).trans h.trace⟩
      (addressed m s).addr (s.A &&& s.X &&& (highByte (addressed m s).base + 1))
    have hx : storeHighByte m crossing u s = finishAfter (memWrite (addressed m s).addr
        (s.A &&& s.X &&& (highByte (addressed m s).base + 1)) (u (s.made (AddrMode.pointerReads m s))))
        (AddrMode.writeCycles m) := by
      rw [storeHighByte, hea, andThen_next, if_neg (by simp [hcross])]; rfl
    refine ⟨_, hx.trans (congrArg (finishAfter · _) hwrite), ?_⟩
    rw [AddrMode.writeAccesses, ← List.append_assoc, ← addressed_addr, ← addressed_base]
    exact congrArg (· ++ _) hwork.trace

/-- The two reads of the pointer. -/
theorem readIndirect_made {s : State} (h : s.Functional) (p : Word) : ∃ a, readIndirect p s =
    .next (a, s.made (JumpTarget.accesses (.ind p) s)) :=
  ⟨_, by rw [readIndirect, memRead_made h, andThen_next, memRead_made (h.made _), andThen_next, State.made_made]; rfl⟩

/-- A read-modify-write instruction writes the byte that it leaves. -/
theorem trace_rmw {i : Instr} {m : AddrMode} {s u : State} {r : Byte} (hu : Touches i
      ((s.store (AddrMode.address m s) r).made (AddrMode.readAccesses m s ++ [.write (AddrMode.address m s) r])) u)
    (n : Nat) : (u.finish n).trace = s.trace ++ AddrMode.rmwAccesses m s (u.finish n) := by
  have hpeek : (u.finish n).peek (AddrMode.address m s) = r :=
    (congrArg (Memory.read · _) hu.mem).trans ((s.peek_store ..).trans (if_pos rfl))
  rw [AddrMode.rmwAccesses, hpeek]
  exact hu.trace

theorem exec_brk_made {s : State} (h : s.Functional) : ∃ t, exec .brk s = .next t ∧
    t.trace = s.trace ++ (.read s.PC (s.peek s.PC) :: s.entryAccesses t (s.PC + 1) (s.P ||| 0x30) 0xFFFE) := by
  obtain ⟨t, hentry, htrace⟩ := enterInterrupt_made (s := { s with PC := s.PC + 1 }.made [.read s.PC (s.peek s.PC)])
    ⟨h.plain, h.trace⟩ (s.P ||| 0x30) 0xFFFE
  have hx := exec_brk s
  rw [fetch_made h, andThen_next] at hx
  exact ⟨t.finish 7, hx.trans (congrArg (finishAfter · 7) hentry), htrace.trans (List.append_assoc ..)⟩

/-- An instruction that is not refused makes the accesses of its rule, by its meaning. -/
theorem exec_made {i : Instr} {s : State} (h : s.Functional) (hr : NotRefused (exec i s)) :
    ∃ t, exec i s = .next t ∧ t.trace = s.trace ++ i.accesses s t := by
  have hadmitted {x} (run : exec i s = whenAdmitted i.rowProfile s x) : exec i s = x :=
    run.trans (whenAdmitted_of_notRefused (run ▸ hr))
  cases exec_meaning i with
  | silent run work _ accesses =>
    exact ⟨_, hadmitted (run s), by rw [accesses, List.append_nil, (work.touches s).trace]⟩
  | branch run _ _ accesses =>
    obtain ⟨t, ht⟩ := exec_answers h.plain hr
    obtain ⟨a, n, rfl, -⟩ := branch_next ((hadmitted (run s)).symm.trans ht)
    exact ⟨_, ht, by rw [accesses, List.append_nil]; rfl⟩
  | read run work accesses =>
    exact ⟨_, (hadmitted (run s)).trans (readClass_made h _ _), by rw [accesses]; exact ((work _).touches _).trace⟩
  | write run _ _ accesses =>
    exact ⟨_, (hadmitted (run s)).trans (writeClass_made h _ _), by rw [accesses]; rfl⟩
  | modify run reads_P work _ _ accesses =>
    exact ⟨_, (hadmitted (run s)).trans (rmwMemory_made h _ _ _ reads_P),
      by rw [accesses]; exact trace_rmw ((work _ _).touches _) _⟩
  | storeHigh run work _ _ accesses =>
    have hx := hadmitted (run s)
    obtain ⟨t, ht, htrace⟩ := storeHighByte_made h _ _ work (hx ▸ hr)
    exact ⟨t, hx.trans ht, by rw [accesses, htrace]⟩
  | arr v =>
    obtain ⟨t, ht⟩ := exec_answers h.plain hr
    exact ⟨t, ht, by rw [arr_next ht]; exact (List.append_nil _).symm⟩
  | push run _ _ _ _ accesses =>
    exact ⟨_, (hadmitted (run s)).trans (congrArg (finishAfter · 3) (push_made h _)), by rw [accesses]; rfl⟩
  | pla => exact ⟨_, (exec_pla s).trans (by rw [pull_made h, andThen_next]), rfl⟩
  | plp =>
    exact ⟨_, (exec_plp s).trans (by rw [pullStatus, pull_made h, andThen_next, finishAfter_of_next]), rfl⟩
  | jmpIndirect p =>
    obtain ⟨a, hread⟩ := readIndirect_made h p
    exact ⟨_, (exec_jmp_ind p s).trans (by rw [hread, andThen_next]), rfl⟩
  | jsr a => exact ⟨_, (exec_jsr a s).trans (by rw [pushWord_made h, andThen_next]), rfl⟩
  | rts =>
    have htwo : s.S + 1 + 1 = s.S + 2 := BitVec.add_assoc s.S 1 1
    exact ⟨_, (exec_rts s).trans (by rw [pullWord_made h, andThen_next, htwo]), rfl⟩
  | rti =>
    obtain ⟨t, hreturn, htrace⟩ := returnFromInterrupt_made h
    exact ⟨t.finish 6, (exec_rti s).trans (congrArg (finishAfter · 6) hreturn), htrace⟩
  | brk => exact exec_brk_made h

theorem takeInterrupt_made {s : State} (h : s.Functional) (vector : Word) : ∃ t, takeInterrupt vector s = .next t ∧
    t.trace = s.trace ++ s.entryAccesses t s.PC ((s.P ||| 0x20) &&& 0xEF) vector := by
  obtain ⟨t, hentry, htrace⟩ := enterInterrupt_made h ((s.P ||| 0x20) &&& 0xEF) vector
  exact ⟨t, congrArg (andThen · fun _ s1 => .next s1) hentry, htrace⟩

/-- Settles O26: an instruction makes the accesses of its meaning, an entry its pushes and vector reads. -/
theorem accessesInProgramOrder : Obligations.AccessesInProgramOrder := by
  intro s hplain htrace
  have h : s.Functional := ⟨hplain, htrace⟩
  refine ⟨fun i => exec_made h, takeInterrupt_made h 0xFFFA, fun hI => ?_⟩
  rw [hostIrq_taken hI]
  exact takeInterrupt_made h 0xFFFE

end Sys2Proof.Machine
end
